-- ==== Sys2Proof/Word.lean ====
section
/-! DEFINITION. The word types of the block. Every value of the spec is unsigned (R9). -/

namespace Sys2Proof

/-- `u8`: a byte of a buffer, of a frame or of the wire (R9). -/
abbrev Byte := BitVec 8

/-- `u16`: a CRC, a Modbus register number or a count (R9). -/
abbrev Half := BitVec 16

/-- `u32`: a host register, a command word (R9, R77, R126). -/
abbrev Word := BitVec 32

/-- `u64`: a time in ms on the `S.now` scale (R9, R32). -/
abbrev DWord := BitVec 64

/-- A 12-bit byte address of the host register space (R70). -/
abbrev Addr := BitVec 12

end Sys2Proof
end

