-- ==== Sys2Proof/Config.lean ====
section
/-! DEFINITION. What one implementation of the block fixes: the parameters of R7, the constants of R7 and R23, and the
free value the spec leaves open. -/

namespace Sys2Proof

/-- The parameters a given instance is built with (R7). They are plain data in the state, so that the model covers every
legal instance; no step changes them (log entry 1). -/
structure Params where
  /-- `N_DEV`: capacity of the device table. -/
  nDev : Nat
  /-- `MAX_FRAME`: maximum frame length in bytes. -/
  maxFrame : Nat
  /-- `RX_CAP`: receive buffer capacity in bytes. -/
  rxCap : Nat
  /-- `RELAY_Q_BYTES`: relay queue capacity in bytes, prefixes included. -/
  relayQBytes : Nat
  /-- `EVT_DEPTH`: event FIFO depth in entries. -/
  evtDepth : Nat
  /-- `RX_POLL_MS`: receive-poll interval. -/
  rxPollMs : Nat
  /-- `RELAY_WAIT_MS`: the short wait on an empty relay queue. -/
  relayWaitMs : Nat
  /-- `CFG_VERSION`: the configuration version tag the block accepts. -/
  cfgVersion : Nat
  deriving DecidableEq, Repr

/-- The default values of R7, which the spec's vectors use. -/
def Params.standard : Params :=
  { nDev := 16, maxFrame := 32, rxCap := 32, relayQBytes := 64, evtDepth := 8, rxPollMs := 100, relayWaitMs := 10,
    cfgVersion := 1 }

/-- `CIN_BYTES = max(MAX_FRAME, RX_CAP)` (R7). -/
def Params.cinBytes (p : Params) : Nat := max p.maxFrame p.rxCap

/-- The legal ranges of R7. -/
abbrev Params.Legal (p : Params) : Prop :=
  (1 ≤ p.nDev ∧ p.nDev ≤ 64) ∧ (9 ≤ p.maxFrame ∧ p.maxFrame ≤ 255) ∧ (9 ≤ p.rxCap ∧ p.rxCap ≤ 255) ∧
  (p.maxFrame + 1 ≤ p.relayQBytes ∧ p.relayQBytes ≤ 65535) ∧ (1 ≤ p.evtDepth ∧ p.evtDepth ≤ 255) ∧
  (1 ≤ p.rxPollMs ∧ p.rxPollMs ≤ 65535) ∧ (1 ≤ p.relayWaitMs ∧ p.relayWaitMs ≤ 65535) ∧ p.cfgVersion ≤ 65535

/-- `ID` reads "MRTU" (R23). -/
def Config.idWord : Word := 0x4D525455

/-- `SPECREV` (R23). -/
def Config.specRev : Word := 0x00000001

/-- `T_MIN_MS` (R7). -/
def Config.tMinMs : Nat := 5

/-- `T_MAX_MS` (R7). -/
def Config.tMaxMs : Nat := 10000

/-- `AUTO_TIMEOUT_MS` (R7). -/
def Config.autoTimeoutMs : Nat := 1000

/-- FREE VALUE: the word a host read of a width other than 32 bits returns. The spec states none (R71, R77); it is applied
to `ports.freeIndex`, one index for each use (log entry 6). DESIGN CHOICE. -/
opaque Config.freeWord : Nat → Word

end Sys2Proof
end

