-- ==== Sys2Proof/Syntax.lean ====
section
/-! DEFINITION. The instruction set: the eleven commands of R102. -/

namespace Sys2Proof

/-- One command of the block, one constructor per row of the opcode table (R102). `len` is the operand `LEN`, an unsigned
byte count (R101). -/
inductive Instr where
  /-- `NOP` (R290). -/
  | nop
  /-- `CRC_CALC` (R146). -/
  | crcCalc (len : Nat)
  /-- `CRC_VERIFY` (R148). -/
  | crcVerify (len : Nat)
  /-- `BUILD_READ` (R150). -/
  | buildRead
  /-- `BUILD_WRITE_S` (R153). -/
  | buildWriteS (len : Nat)
  /-- `BUILD_WRITE_M` (R156). -/
  | buildWriteM (len : Nat)
  /-- `CLASSIFY` (R190). -/
  | classify (len : Nat)
  /-- `RELAY_PUSH` (R233). -/
  | relayPush
  /-- `CFG_COMMIT` (R210). -/
  | cfgCommit
  /-- `EVT_POP` (R294). -/
  | evtPop
  /-- `CLR_ERR` (R296). -/
  | clrErr
  deriving DecidableEq, Repr

end Sys2Proof
end

