-- ==== Sys2Proof/WellFormed.lean ====
section
/-! DEFINITION. Which terms are instructions the encoding admits (R101). -/

namespace Sys2Proof

/-- The operand `LEN` as R101 lays it out: 0 for a format with no length field. -/
def Instr.len : Instr → Nat
  | .nop => 0
  | .crcCalc n => n
  | .crcVerify n => n
  | .buildRead => 0
  | .buildWriteS n => n
  | .buildWriteM n => n
  | .classify n => n
  | .relayPush => 0
  | .cfgCommit => 0
  | .evtPop => 0
  | .clrErr => 0

/-- `LEN` is an unsigned byte count, 0–255 (R101). -/
def lenFits (n : Nat) : Bool := decide (n < 256)

/-- The instruction has an encoding: each operand fits its field (R101). -/
def Instr.wellFormed : Instr → Bool
  | .nop => true
  | .crcCalc n => lenFits n
  | .crcVerify n => lenFits n
  | .buildRead => true
  | .buildWriteS n => lenFits n
  | .buildWriteM n => lenFits n
  | .classify n => lenFits n
  | .relayPush => true
  | .cfgCommit => true
  | .evtPop => true
  | .clrErr => true

end Sys2Proof
end

