-- ==== Sys2Proof/Decode.lean ====
section
/-! DEFINITION. The command decoder of R100, total on every 32-bit word, and after it the encoder, written from the same
opcode map (R102). -/

namespace Sys2Proof

/-- A row of the opcode map (R102), by its mnemonic. -/
inductive Opcode where
  | nop | crcCalc | crcVerify | buildRead | buildWriteS | buildWriteM | classify | relayPush | cfgCommit | evtPop | clrErr
  deriving DecidableEq, Repr

/-- All rows of the opcode map, in the order of R102. -/
def Opcode.all : List Opcode :=
  [.nop, .crcCalc, .crcVerify, .buildRead, .buildWriteS, .buildWriteM, .classify, .relayPush, .cfgCommit, .evtPop, .clrErr]

/-- The Mask column of R102: format `N` fixes all 32 bits; formats `L` and `W` leave `LEN` (bits 23:16) open. -/
def Opcode.mask : Opcode → Word
  | .nop => 0xFFFFFFFF
  | .crcCalc => 0xFF00FFFF
  | .crcVerify => 0xFF00FFFF
  | .buildRead => 0xFFFFFFFF
  | .buildWriteS => 0xFF00FFFF
  | .buildWriteM => 0xFF00FFFF
  | .classify => 0xFF00FFFF
  | .relayPush => 0xFFFFFFFF
  | .cfgCommit => 0xFFFFFFFF
  | .evtPop => 0xFFFFFFFF
  | .clrErr => 0xFFFFFFFF

/-- The Match column of R102. -/
def Opcode.value : Opcode → Word
  | .nop => 0x00000000
  | .crcCalc => 0x00000001
  | .crcVerify => 0x00000002
  | .buildRead => 0x00000003
  | .buildWriteS => 0x00000004
  | .buildWriteM => 0x00000104
  | .classify => 0x00000005
  | .relayPush => 0x00000006
  | .cfgCommit => 0x00000007
  | .evtPop => 0x00000008
  | .clrErr => 0x00000009

/-- Row `r` matches iff `(w & r.mask) = r.match` (R100). -/
def Opcode.matchesWord (o : Opcode) (w : Word) : Bool := w &&& o.mask == o.value

/-- `LEN`, bits 23:16, zero-extended, unscaled (R101). -/
def lenField (w : Word) : Nat := (w.extractLsb' 16 8).toNat

/-- `OP`, bits 7:0 (R101). -/
def opField (w : Word) : Byte := w.extractLsb' 0 8

/-- The command of a row with its operand from the word (R100, R101). -/
def Opcode.instr (o : Opcode) (len : Nat) : Instr :=
  match o with
  | .nop => .nop
  | .crcCalc => .crcCalc len
  | .crcVerify => .crcVerify len
  | .buildRead => .buildRead
  | .buildWriteS => .buildWriteS len
  | .buildWriteM => .buildWriteM len
  | .classify => .classify len
  | .relayPush => .relayPush
  | .cfgCommit => .cfgCommit
  | .evtPop => .evtPop
  | .clrErr => .clrErr

/-- Why a word is no command (R103). Either way the block raises `ILLEGAL_CMD`. -/
inductive Reject where
  /-- `OP` is 0x0A to 0xFF. -/
  | reservedOpcode
  /-- `OP` is a command's, but a bit outside the fields of its format is set. -/
  | strayBits
  deriving DecidableEq, Repr

/-- What the decoder answers. -/
inductive Decoded where
  | command (i : Instr)
  | rejected (why : Reject)
  deriving DecidableEq, Repr

/-- The decoder of R100 and R103. -/
def decode (w : Word) : Decoded :=
  match Opcode.all.find? (fun o => o.matchesWord w) with
  | some o => .command (o.instr (lenField w))
  | none => .rejected (if 0x0A ≤ (opField w).toNat then .reservedOpcode else .strayBits)

/-- The row of an instruction. -/
def Instr.opcode : Instr → Opcode
  | .nop => .nop
  | .crcCalc _ => .crcCalc
  | .crcVerify _ => .crcVerify
  | .buildRead => .buildRead
  | .buildWriteS _ => .buildWriteS
  | .buildWriteM _ => .buildWriteM
  | .classify _ => .classify
  | .relayPush => .relayPush
  | .cfgCommit => .cfgCommit
  | .evtPop => .evtPop
  | .clrErr => .clrErr

/-- The command word of a well-formed instruction: the row's Match with `LEN` at bits 23:16 (R101, R102). -/
def encode (i : Instr) : Word := i.opcode.value ||| (BitVec.ofNat 32 i.len <<< 16)

/-- The instruction the decoder reads from a table word; the bits above `nbits` are 0. A command is one 32-bit word (R126),
so the table's numbering and the bus word's are the same. -/
def decodeTableWord (nbits w : Nat) : Option Instr :=
  match decode (BitVec.ofNat 32 (w % 2 ^ nbits)) with
  | .command i => some i
  | .rejected _ => none

end Sys2Proof
end

