-- ==== Sys2Proof/Machine/State.lean ====
section
/-! DEFINITION. The state of the block: every register, buffer, queue and control state of 10_state.md, as plain data, and
the state after reset (R331). -/

namespace Sys2Proof.Machine

/-- The worker control states (R40). -/
inductive WorkerState where
  | wIdle | wPass | wScan | wDue | wDrain | wRwait | cStart | cTx | cRxwait | cTurn | cEnd
  deriving DecidableEq, Repr

/-- The per-device scheduler state (R39). -/
inductive DevState where
  | idle | due | polling
  deriving DecidableEq, Repr

/-- The classification taxonomy (R120). -/
inductive RespClass where
  | value | noResponse | invalidReceiveLength | crcError | invalidResponse | unexpectedFunctionCode | actorResponse
  deriving DecidableEq, Repr

/-- The event kinds (R121). -/
inductive EventKind where
  | value | diagnostic
  deriving DecidableEq, Repr

/-- `S.ctx.attempt`: the first attempt (0) or the retry (1) (R41). -/
inductive Attempt where
  | first | retry
  deriving DecidableEq, Repr

/-- `S.ctx.src`: a scheduled poll (0) or a relay frame (1) (R41). -/
inductive Source where
  | poll | relay
  deriving DecidableEq, Repr

/-- The error codes a command or an access can record in `ERR` (R301). -/
inductive ErrCode where
  | illegalCmd | oversize | badLen | cfgReject | badAccess
  deriving DecidableEq, Repr

/-- The reasons a `CFG_COMMIT` is rejected (R210, checks 1 to 7). -/
inductive CfgReason where
  | version | count | baud | wordLen | stopBits | parity | functionCode
  deriving DecidableEq, Repr

/-- One port action of R315, one step of the agent named there (R11). -/
inductive Input where
  /-- `Host`: a read of `size` bytes at a byte address. -/
  | hostRead (addr : Addr) (size : Nat)
  /-- `Host`: a write of `size` bytes at a byte address. -/
  | hostWrite (addr : Addr) (size : Nat) (data : Word)
  /-- `Worker`: the worker takes its enabled step. -/
  | worker
  /-- `Clock`: the 1 ms tick. -/
  | tick
  /-- `RxLine`: one received byte. -/
  | rx (b : Byte)
  /-- `Transport`: the answer to the byte on offer, with its status. -/
  | answer (ok : Bool)
  /-- `rst` is asserted. -/
  | reset
  deriving DecidableEq, Repr

/-- The byte memory of the register space, a list of (address, byte) in one canonical form (`Memory.wf`, Ops.lean). It
holds the buffer windows of R74 and R75; an unlisted address reads as 0, the reset content of R331. -/
abbrev Memory := List Host.Cell

/-- A staging device entry (R36): three registers of which all 32 bits are stored. -/
structure StagedDevice where
  af : Word
  reg : Word
  cyc : Word
  deriving DecidableEq, Repr

/-- An active device entry (R37). -/
structure Device where
  addr : Byte
  fc : Byte
  reg : Half
  cycle : Word
  deriving DecidableEq, Repr

/-- An event FIFO entry (R47, R122). -/
structure Event where
  kind : EventKind
  dev : Byte
  subch : Byte
  fc : Byte
  cls : RespClass
  val : Word
  deriving DecidableEq, Repr

/-- `S.ctx`: the context of the current frame (R41). -/
structure Context where
  dev : Byte
  attempt : Attempt
  src : Source
  reqAddr : Byte
  reqFc : Byte
  flags : Word
  deriving DecidableEq, Repr

/-- The host's command port: arguments, results, the error register (R26, R27, R30, R31, R48) and the two flags that
commands write (R25). -/
structure HostPort where
  arg0 : Word
  arg1 : Word
  arg2 : Word
  err : Word
  cfgStatus : Word
  crcOk : Bool
  enqFail : Bool
  crcResult : Half
  outLen : Byte
  clsResult : Word
  clsValue : Word
  evtHead0 : Word
  evtHead1 : Word
  evtHead2 : Word
  deriving DecidableEq, Repr

/-- The staging configuration (R35, R36). -/
structure Staging where
  ver : Word
  baud : Word
  format : Word
  timing : Word
  count : Word
  devs : List StagedDevice
  deriving DecidableEq, Repr

/-- The active configuration and its timing values (R34, R37). -/
structure Active where
  count : Byte
  devs : List Device
  ifs : Half
  timeout : Half
  deriving DecidableEq, Repr

/-- The deadline table and the device state vector (R38, R39). -/
structure Schedule where
  deadlines : List DWord
  devStates : List DevState
  deriving DecidableEq, Repr

/-- The worker's control state (R40, R41) and its transmit pointers (R44). -/
structure Worker where
  ws : WorkerState
  scanI : Byte
  passNow : DWord
  restart : Bool
  ctx : Context
  t0 : DWord
  nextSample : DWord
  tEnd : DWord
  cls : RespClass
  val : Word
  txLen : Byte
  txIdx : Byte
  deriving DecidableEq, Repr

/-- The serial side: direction and offer (R50), receive length (R42), failure counter (R49). -/
structure Line where
  dir : Bool
  txOffer : Option Byte
  rxLen : Byte
  txFailCnt : Word
  deriving DecidableEq, Repr

/-- THE MODEL'S OWN fields, no state of the block: what is still to come at the ports and what was seen at them
(log entries 2, 5, 6). Reset leaves them alone. -/
structure Ports where
  /-- Port actions still to come, oldest first. -/
  inputs : List Input
  /-- `rdata`: the word the last host read returned. -/
  rdata : Word
  /-- The serial wire of R70 item 2: bytes offered to the transport so far, first on the wire first. -/
  wire : List Byte
  /-- How many free values have been used. -/
  freeIndex : Nat
  deriving DecidableEq, Repr

/-- The whole state. -/
structure State where
  params : Params
  /-- `CTRL` (R24). -/
  ctrl : Word
  /-- `STATUS.CFG_VALID` (R25, R212). -/
  cfgValid : Bool
  /-- `STATUS.EVT_OVF` (R25, R268). -/
  evtOvf : Bool
  /-- `S.now` (R32). -/
  now : DWord
  host : HostPort
  staging : Staging
  active : Active
  sched : Schedule
  worker : Worker
  line : Line
  mem : Memory
  /-- `S.rq` (R46). -/
  relayQ : List (List Byte)
  /-- `S.evq` (R47). -/
  evtQ : List Event
  ports : Ports
  deriving DecidableEq, Repr

/-- Why a step stops. No instruction raises one of these; both are raised by `Machine.takeInput` for a port action that
the spec says is not enabled (log entry 4). Safe: the block has no such step. -/
inductive Fault where
  /-- A `Transport` answer while no byte is on offer (93_implementation_defined.md I18). Safe. -/
  | answerWithoutOffer
  /-- A worker step while the worker has no enabled step (R10, R246). Safe. -/
  | workerNotEnabled
  deriving DecidableEq, Repr

/-- Why a step has no meaning. -/
inductive Refusal where
  /-- An instruction with no meaning yet, by its mnemonic; no arm of `exec` raises it. Safe. -/
  | notModelled (mnemonic : String)
  deriving DecidableEq, Repr

/-- A staging entry after reset (R36). -/
def StagedDevice.zero : StagedDevice := { af := 0, reg := 0, cyc := 0 }

/-- An active entry after reset (R37). -/
def Device.zero : Device := { addr := 0, fc := 0, reg := 0, cycle := 0 }

/-- `S.ctx` after reset (R41): `dev = 0xFF`, every other field 0. -/
def Context.atReset : Context :=
  { dev := 0xFF, attempt := .first, src := .poll, reqAddr := 0, reqFc := 0, flags := 0 }

/-- The state an instance of parameters `p` has right after reset, every value from R331, with the ports as given. -/
def State.resetWith (p : Params) (ports : Ports) : State :=
  { params := p
    ctrl := 0
    cfgValid := false
    evtOvf := false
    now := 0
    host :=
      { arg0 := 0, arg1 := 0, arg2 := 0, err := 0, cfgStatus := 0, crcOk := false, enqFail := false, crcResult := 0,
        outLen := 0, clsResult := 0, clsValue := 0, evtHead0 := 0, evtHead1 := 0, evtHead2 := 0 }
    staging :=
      { ver := 0, baud := 0, format := 0, timing := 0, count := 0, devs := List.replicate p.nDev StagedDevice.zero }
    active := { count := 0, devs := List.replicate p.nDev Device.zero, ifs := 0, timeout := 0 }
    sched := { deadlines := List.replicate p.nDev 0, devStates := List.replicate p.nDev .idle }
    worker :=
      { ws := .wIdle, scanI := 0, passNow := 0, restart := false, ctx := Context.atReset, t0 := 0, nextSample := 0,
        tEnd := 0, cls := .value, val := 0, txLen := 0, txIdx := 0 }
    line := { dir := false, txOffer := none, rxLen := 0, txFailCnt := 0 }
    mem := []
    relayQ := []
    evtQ := []
    ports := ports }

/-- The ports before anything has happened at them. DESIGN CHOICE (log entries 2, 5, 6). -/
def Ports.quiet : Ports := { inputs := [], rdata := 0, wire := [], freeIndex := 0 }

/-- The block right after reset, an instance with the default parameters of R7. -/
def State.reset : State := State.resetWith Params.standard Ports.quiet

end Sys2Proof.Machine
end

