-- ==== Sys2Proof/Machine/Ops.lean ====
section
/-! DEFINITION. The shared operations: bit fields and byte order, the byte memory, the buffer windows, recording an error
(the block's only exception mechanism, R300, R305), the event FIFO, the receive buffer. -/

namespace Sys2Proof.Machine

/-! Bit fields and byte order (R9). -/

/-- `hi8(v) = v[15:8]`. -/
def hi8 (v : Half) : Byte := v.extractLsb' 8 8

/-- `lo8(v) = v[7:0]`. -/
def lo8 (v : Half) : Byte := v.extractLsb' 0 8

/-- `hi << 8 | lo` as a 16-bit value. -/
def joinBytes (hi lo : Byte) : Half := hi.setWidth 16 <<< 8 ||| lo.setWidth 16

/-- The one-bit field `b` at bit `k` of a register. -/
def bitAt (k : Nat) (b : Bool) : Word := if b then 1#32 <<< k else 0

/-- The field `v`, zero-extended, at bit `k` of a register. -/
def fieldAt {n : Nat} (k : Nat) (v : BitVec n) : Word := v.setWidth 32 <<< k

/-- Bytes 0 to 3 of a word, little-endian (R74, R80). -/
def packWord (b0 b1 b2 b3 : Byte) : Word := fieldAt 24 b3 ||| fieldAt 16 b2 ||| fieldAt 8 b1 ||| fieldAt 0 b0

/-- Byte `k` of a word, little-endian (R74, R80). -/
def wordByte (v : Word) (k : Nat) : Byte := v.extractLsb' (8 * k) 8

/-! The byte memory. -/

/-- The byte at an address: an unlisted one reads 0 (R331). -/
def Memory.read : Memory → Nat → Byte
  | [], _ => 0
  | (k, v) :: m, a => if k = a then v else Memory.read m a

/-- Store one byte, keeping the canonical form: a 0 is not listed. -/
def Memory.write : Memory → Nat → Byte → Memory
  | [], a, b => if b = 0 then [] else [(a, b)]
  | (k, v) :: m, a, b =>
    if a < k then (if b = 0 then (k, v) :: m else (a, b) :: (k, v) :: m)
    else if a = k then (if b = 0 then m else (a, b) :: m)
    else (k, v) :: Memory.write m a b

/-- Every address of the list is above `a`, addresses rise strictly, no listed byte is 0. -/
def Memory.wfAbove : Nat → Memory → Bool
  | _, [] => true
  | lo, (k, v) :: m => decide (lo ≤ k) && v != 0 && Memory.wfAbove (k + 1) m

/-- The canonical form: addresses strictly rising, no entry equal to what an unlisted address reads as. -/
def Memory.wf (m : Memory) : Bool := Memory.wfAbove 0 m

/-- The `n` bytes from address `a` on. -/
def Memory.readBytes (m : Memory) (a : Nat) : Nat → List Byte
  | 0 => []
  | n + 1 => m.read a :: Memory.readBytes m (a + 1) n

/-- Store a byte sequence from address `a` on. -/
def Memory.writeBytes (m : Memory) (a : Nat) : List Byte → Memory
  | [] => m
  | b :: bs => Memory.writeBytes (m.write a b) (a + 1) bs

/-- The first `cap` bytes of `f`, filled up with zeros: `buf[0..n) <- f; buf[n..cap) <- 0`. -/
def padTo : Nat → List Byte → List Byte
  | 0, _ => []
  | cap + 1, [] => 0 :: padTo cap []
  | cap + 1, b :: bs => b :: padTo cap bs

/-- Fill a whole window of capacity `cap` with `f` and zeros after it (R150, R222, R247, R43). -/
def Memory.setWindow (m : Memory) (base cap : Nat) (f : List Byte) : Memory := m.writeBytes base (padTo cap f)

/-! The windows of R75, by base address. -/

/-- `CODEC_IN`. -/
def codecInBase : Nat := 0x800
/-- `CODEC_OUT`. -/
def codecOutBase : Nat := 0x900
/-- `RXBUF`. -/
def rxBase : Nat := 0xA00
/-- `TXBUF`. -/
def txBase : Nat := 0xB00

/-- Byte `k` of a window of capacity `cap`: bytes past the capacity read 0 (R74). -/
def Memory.windowByte (m : Memory) (base cap k : Nat) : Byte := if k < cap then m.read (base + k) else 0

/-- The word of bytes `4j .. 4j+3` of a window (R74). -/
def Memory.windowWord (m : Memory) (base cap j : Nat) : Word :=
  packWord (m.windowByte base cap (4 * j)) (m.windowByte base cap (4 * j + 1)) (m.windowByte base cap (4 * j + 2))
    (m.windowByte base cap (4 * j + 3))

/-- Store byte `k` of a window: bytes past the capacity are not stored (R74). -/
def Memory.setWindowByte (m : Memory) (base cap k : Nat) (b : Byte) : Memory :=
  if k < cap then m.write (base + k) b else m

/-- Store the word of bytes `4j .. 4j+3` of a window (R74). -/
def Memory.setWindowWord (m : Memory) (base cap j : Nat) (v : Word) : Memory :=
  (((m.setWindowByte base cap (4 * j) (wordByte v 0)).setWindowByte base cap (4 * j + 1) (wordByte v 1)).setWindowByte
    base cap (4 * j + 2) (wordByte v 2)).setWindowByte base cap (4 * j + 3) (wordByte v 3)

/-! Recording an error. The block has no trap: no vector, no saved context, no return (R305). -/

/-- The number of an error code (R301). -/
def ErrCode.number : ErrCode → Word
  | .illegalCmd => 1
  | .oversize => 2
  | .badLen => 3
  | .cfgReject => 4
  | .badAccess => 5

/-- `ERR.CODE` (R26). -/
def State.errCode (s : State) : BitVec 4 := s.host.err.extractLsb' 0 4

/-- `raise CmdError(code)` with `OP` field `op`: the first error wins, and nothing else changes (R300, R73). -/
def raise (code : ErrCode) (op : Byte) (s : State) : State :=
  if s.errCode = 0 then { s with host.err := fieldAt 8 op ||| code.number } else s

/-- The bus access error (R73). -/
def busError (s : State) : State := raise .badAccess 0xFF s

/-! Queues and buffers. -/

/-- `used(S.rq)`: the frames with their one-byte prefixes (R46, R124). -/
def relayUsed : List (List Byte) → Nat
  | [] => 0
  | f :: q => 1 + f.length + relayUsed q

/-- `emit E`: a full FIFO drops the new event and sets `EVT_OVF` (R268). -/
def emit (e : Event) (s : State) : State :=
  if s.evtQ.length < s.params.evtDepth then { s with evtQ := s.evtQ ++ [e] } else { s with evtOvf := true }

/-- `rx_clear()` (R43). -/
def rxClear (s : State) : State :=
  { s with line.rxLen := 0, mem := s.mem.setWindow rxBase s.params.rxCap [] }

/-- `S.rxbuf[0..rxlen)` (R42). -/
def State.rxBytes (s : State) : List Byte := s.mem.readBytes rxBase s.line.rxLen.toNat

/-- `CODEC_OUT[0..n) <- f`, the rest 0, and `OUT_LEN <- n` (R150, R151). -/
def setCodecOut (f : List Byte) (s : State) : State :=
  { s with
    mem := s.mem.setWindow codecOutBase s.params.maxFrame f
    host.outLen := BitVec.ofNat 8 f.length }

/-- `S.txbuf[0..n) <- f`, the rest 0, and `S.txlen <- n` (R222, R247). -/
def loadTx (f : List Byte) (s : State) : State :=
  { s with
    mem := s.mem.setWindow txBase s.params.maxFrame f
    worker.txLen := BitVec.ofNat 8 f.length }

/-- Move the worker's control state (R10). -/
def goto (w : WorkerState) (s : State) : State := { s with worker.ws := w }

/-- Replace one entry of the deadline table. -/
def setDeadline (i : Nat) (t : DWord) (s : State) : State := { s with sched.deadlines := s.sched.deadlines.set i t }

/-- Replace one entry of the device state vector. -/
def setDevState (i : Nat) (d : DevState) (s : State) : State := { s with sched.devStates := s.sched.devStates.set i d }

end Sys2Proof.Machine
end

