-- ==== Sys2Proof/Machine/Operands.lean ====
section
/-! DEFINITION. Every operand form of a command (R104, R105) and of the worker: fields of the argument registers, of the
staging registers (R35, R36) and of a `pollingCycle` word (R112). -/

namespace Sys2Proof.Machine

/-- `addr = ARG0[7:0]` (R104). -/
def State.argAddr (s : State) : Byte := s.host.arg0.extractLsb' 0 8

/-- `fc = ARG0[15:8]` (R104). -/
def State.argFc (s : State) : Byte := s.host.arg0.extractLsb' 8 8

/-- `reg = ARG1[15:0]` (R104). -/
def State.argReg (s : State) : Half := s.host.arg1.extractLsb' 0 16

/-- `count = ARG1[31:16]` (R104). -/
def State.argCount (s : State) : Half := s.host.arg1.extractLsb' 16 16

/-- `flags = ARG2` (R104). -/
def State.argFlags (s : State) : Word := s.host.arg2

/-- `CODEC_IN[0..LEN)` (R104). -/
def State.codecIn (s : State) (len : Nat) : List Byte := s.mem.readBytes codecInBase len

/-- `CODEC_OUT[0..OUT_LEN)`, the frame `RELAY_PUSH` enqueues (R233). -/
def State.codecOut (s : State) : List Byte := s.mem.readBytes codecOutBase s.host.outLen.toNat

/-! The `pollingCycle` field (R112, R113). -/

/-- `MAG`, bits 11:0. -/
def cycMag (c : Word) : Nat := (c.extractLsb' 0 12).toNat
/-- `UNIT1000`, bit 12. -/
def cycUnit1000 (c : Word) : Bool := c.getLsbD 12
/-- `COMBINE`, bit 13. -/
def cycCombine (c : Word) : Bool := c.getLsbD 13
/-- `HWF`, bit 14. -/
def cycHwf (c : Word) : Bool := c.getLsbD 14
/-- `LE`, bit 15. -/
def cycLe (c : Word) : Bool := c.getLsbD 15

/-- The cycle period in ms (R114). -/
def periodMs (c : Word) : Nat := cycMag c * (if cycUnit1000 c then 1000 else 100)

/-- The word count of a scheduled poll (R115). -/
def wcount (fc : Byte) (c : Word) : Half := if (fc = 3 ∨ fc = 4) ∧ cycCombine c then 2 else 1

/-! The staging fields `CFG_COMMIT` reads (R35, R36). -/

/-- `CFG_VER.VERSION`. -/
def State.stVersion (s : State) : Nat := (s.staging.ver.extractLsb' 0 16).toNat
/-- `CFG_BAUD.BAUD`. -/
def State.stBaud (s : State) : Nat := s.staging.baud.toNat
/-- `CFG_FORMAT.WORDLEN`. -/
def State.stWordLen (s : State) : Nat := (s.staging.format.extractLsb' 0 4).toNat
/-- `CFG_FORMAT.STOP`. -/
def State.stStop (s : State) : Nat := (s.staging.format.extractLsb' 4 4).toNat
/-- `CFG_FORMAT.PARITY`. -/
def State.stParity (s : State) : Nat := (s.staging.format.extractLsb' 8 3).toNat
/-- `CFG_TIMING.PAUSE_MS`. -/
def State.stPause (s : State) : Nat := (s.staging.timing.extractLsb' 0 16).toNat
/-- `CFG_TIMING.TIMEOUT_MS`. -/
def State.stTimeout (s : State) : Nat := (s.staging.timing.extractLsb' 16 15).toNat
/-- `CFG_TIMING.MANUAL`. -/
def State.stManual (s : State) : Bool := s.staging.timing.getLsbD 31
/-- `CFG_COUNT.ENTRY_COUNT`. -/
def State.stCount (s : State) : Byte := s.staging.count.extractLsb' 0 8
/-- `DEVS_AF[i].ADDR`. -/
def StagedDevice.addr (d : StagedDevice) : Byte := d.af.extractLsb' 0 8
/-- `DEVS_AF[i].FC`. -/
def StagedDevice.fc (d : StagedDevice) : Byte := d.af.extractLsb' 8 8

/-- The active entry a commit makes of a staging entry (R211). -/
def StagedDevice.commit (d : StagedDevice) : Device :=
  { addr := d.addr, fc := d.fc, reg := d.reg.extractLsb' 0 16, cycle := d.cyc }

/-- `S.act_dev[i]` (R37). Past the table, which no run reads, an empty entry (log entry 10). -/
def State.device (s : State) (i : Nat) : Device := s.active.devs.getD i Device.zero

/-- `S.dl[i]` (R38). Past the table 0 (log entry 10). -/
def State.deadline (s : State) (i : Nat) : DWord := s.sched.deadlines.getD i 0

/-- `S.devstate[i]` (R39). Past the table `Idle` (log entry 10). -/
def State.devState (s : State) (i : Nat) : DevState := s.sched.devStates.getD i .idle

/-- Staging entry `i` (R36). Past the table an empty entry (log entry 10). -/
def State.staged (s : State) (i : Nat) : StagedDevice := s.staging.devs.getD i StagedDevice.zero

end Sys2Proof.Machine
end

