-- ==== Sys2Proof/Machine/Flags.lean ====
section
/-! DEFINITION. Every flag and derived register of the block: the codes of R39, R40, R120, R121, the fields of `CTRL`
(R24), `STATUS` (R25, R51), the packed read-only registers (R31, R33, R41, R46, R48) and the `irq` output (R306). -/

namespace Sys2Proof.Machine

/-- `STATUS.WSTATE` (R40). -/
def WorkerState.code : WorkerState → BitVec 4
  | .wIdle => 0
  | .wPass => 1
  | .wScan => 2
  | .wDue => 3
  | .wDrain => 4
  | .wRwait => 5
  | .cStart => 6
  | .cTx => 7
  | .cRxwait => 8
  | .cTurn => 9
  | .cEnd => 10

/-- The code of a device state (R39). -/
def DevState.code : DevState → Byte
  | .idle => 0
  | .due => 1
  | .polling => 2

/-- The code of a classification (R120). -/
def RespClass.code : RespClass → BitVec 4
  | .value => 0
  | .noResponse => 1
  | .invalidReceiveLength => 2
  | .crcError => 3
  | .invalidResponse => 4
  | .unexpectedFunctionCode => 5
  | .actorResponse => 6

/-- The set `Fail` (R184). -/
def RespClass.isFailure : RespClass → Bool
  | .value => false
  | .noResponse => true
  | .invalidReceiveLength => true
  | .crcError => true
  | .invalidResponse => true
  | .unexpectedFunctionCode => true
  | .actorResponse => false

/-- The code of an event kind (R121). -/
def EventKind.code : EventKind → Bool
  | .value => false
  | .diagnostic => true

/-- An event has kind 0 iff its class is `Value` (R121). -/
def RespClass.eventKind : RespClass → EventKind
  | .value => .value
  | .noResponse => .diagnostic
  | .invalidReceiveLength => .diagnostic
  | .crcError => .diagnostic
  | .invalidResponse => .diagnostic
  | .unexpectedFunctionCode => .diagnostic
  | .actorResponse => .diagnostic

/-- The attempt bit (R41). -/
def Attempt.code : Attempt → Bool
  | .first => false
  | .retry => true

/-- The source bit (R41). -/
def Source.code : Source → Bool
  | .poll => false
  | .relay => true

/-! `CTRL` (R24). -/

/-- `CTRL.RUN`. -/
def State.run (s : State) : Bool := s.ctrl.getLsbD 0
/-- `CTRL.IRQ_EVT_EN`. -/
def State.irqEvtEn (s : State) : Bool := s.ctrl.getLsbD 1
/-- `CTRL.IRQ_ERR_EN`. -/
def State.irqErrEn (s : State) : Bool := s.ctrl.getLsbD 2

/-- What a write of `v` leaves in `CTRL`: bits 31:3 are `RW-R0` (R20, R24, R292). -/
def ctrlWritten (v : Word) : Word := v &&& 0x00000007

/-! Read-only registers made of state. -/

/-- `STATUS` (R25). -/
def State.status (s : State) : Word :=
  bitAt 0 s.host.crcOk ||| bitAt 1 s.host.enqFail ||| bitAt 2 s.evtOvf ||| bitAt 3 s.cfgValid |||
  bitAt 4 (s.worker.ws != .wIdle) ||| bitAt 5 s.worker.restart |||
  fieldAt 8 (BitVec.ofNat 8 s.evtQ.length) ||| fieldAt 16 s.worker.ws.code

/-- `CUR_CTX` (R41). -/
def State.curCtx (s : State) : Word :=
  fieldAt 0 s.worker.ctx.dev ||| bitAt 8 s.worker.ctx.attempt.code ||| bitAt 9 s.worker.ctx.src.code |||
  fieldAt 16 s.worker.ctx.reqAddr ||| fieldAt 24 s.worker.ctx.reqFc

/-- `RELAY_LEVEL` (R46). -/
def State.relayLevel (s : State) : Word :=
  fieldAt 0 (BitVec.ofNat 16 (relayUsed s.relayQ)) ||| fieldAt 16 (BitVec.ofNat 16 s.relayQ.length)

/-- `PARAM0` (R33). -/
def paramWord0 (p : Params) : Word :=
  fieldAt 0 (BitVec.ofNat 8 p.nDev) ||| fieldAt 8 (BitVec.ofNat 8 p.maxFrame) ||| fieldAt 16 (BitVec.ofNat 8 p.rxCap) |||
  fieldAt 24 (BitVec.ofNat 8 p.evtDepth)

/-- `PARAM1` (R33). -/
def paramWord1 (p : Params) : Word :=
  fieldAt 0 (BitVec.ofNat 16 p.relayQBytes) ||| fieldAt 16 (BitVec.ofNat 16 p.rxPollMs)

/-- `PARAM2` (R33). -/
def paramWord2 (p : Params) : Word :=
  fieldAt 0 (BitVec.ofNat 16 p.relayWaitMs) ||| fieldAt 16 (BitVec.ofNat 16 p.cfgVersion)

/-- `EVT_HEAD0` of an entry (R48, R294). -/
def Event.head0 (e : Event) : Word :=
  fieldAt 24 e.fc ||| fieldAt 16 e.subch ||| fieldAt 8 e.dev ||| bitAt 1 e.kind.code ||| 1

/-- `EVT_HEAD1` of an entry (R48, R294). -/
def Event.head1 (e : Event) : Word := fieldAt 0 e.cls.code

/-- `CLS_RESULT` after a classification (R190). -/
def clsResultWord (len : Nat) (fc : Byte) (c : RespClass) : Word :=
  bitAt 31 true ||| fieldAt 16 (BitVec.ofNat 8 len) ||| fieldAt 8 fc ||| fieldAt 0 c.code

/-! Outputs (R50, R315). -/

/-- `irq`: a level, combinational, no storage (R306). -/
def State.irq (s : State) : Bool := (s.irqEvtEn && decide (0 < s.evtQ.length)) || (s.irqErrEn && s.errCode != 0)

/-- `ser_dir` (R315). -/
def State.serDir (s : State) : Bool := s.line.dir

/-- `tx_valid` (R315). -/
def State.txValid (s : State) : Bool := s.line.txOffer.isSome

end Sys2Proof.Machine
end

