-- ==== Sys2Proof/Machine/Codec.lean ====
section
/-! DEFINITION. The frame codec: CRC16, verification, frame building (R140–R144) and the five commands that expose them
(R146–R156). -/

namespace Sys2Proof.Machine

/-- One of the eight shifts of R140, reflected polynomial 0xA001. -/
def crcBit (c : Half) : Half := if c.getLsbD 0 then (c >>> 1) ^^^ 0xA001 else c >>> 1

/-- `n` shifts. -/
def crcBits : Nat → Half → Half
  | 0, c => c
  | n + 1, c => crcBits n (crcBit c)

/-- One byte into the CRC (R140). -/
def crcByte (c : Half) (b : Byte) : Half := crcBits 8 (c ^^^ b.setWidth 16)

/-- `crc16(s)`, seed 0xFFFF, no final XOR (R140). -/
def crc16 (s : List Byte) : Half := s.foldl crcByte 0xFFFF

/-- `frame(s)`: the CRC appended low byte first (R106, R142). -/
def frame (s : List Byte) : List Byte := s ++ [lo8 (crc16 s), hi8 (crc16 s)]

/-- The trailing two bytes of a frame as its CRC, `(lo, hi)` (R143, R175). -/
def frameCrc (f : List Byte) : Half := joinBytes (f.getD (f.length - 1) 0) (f.getD (f.length - 2) 0)

/-- `verify(f)` (R143). -/
def verify (f : List Byte) : Bool := crc16 (f.take (f.length - 2)) == frameCrc f

/-- `buildRequestFrame` (R107, R144). -/
def buildRequestFrame (a f : Byte) (r c : Half) : List Byte := frame [a, f, hi8 r, lo8 r, hi8 c, lo8 c]

/-- `buildWriteFrame(..., isMultiple=false)` (R108, R144). -/
def buildWriteSingle (a f : Byte) (r : Half) (p : List Byte) : List Byte := frame ([a, f, hi8 r, lo8 r] ++ p)

/-- `buildWriteFrame(..., isMultiple=true)` (R109, R144). -/
def buildWriteMultiple (a f : Byte) (r c : Half) (p : List Byte) : List Byte :=
  frame ([a, f, hi8 r, lo8 r, hi8 c, lo8 c, BitVec.ofNat 8 p.length] ++ p)

/-- `CRC_CALC` (R146). -/
def execCrcCalc (len : Nat) (s : State) : Host.Outcome State Fault Refusal :=
  if s.params.cinBytes < len then .next (raise .oversize (opField (Opcode.value .crcCalc)) s)
  else .next { s with host.crcResult := crc16 (s.codecIn len) }

/-- `CRC_VERIFY` (R148): `OVERSIZE` is checked before `BAD_LEN` (R302). -/
def execCrcVerify (len : Nat) (s : State) : Host.Outcome State Fault Refusal :=
  if s.params.cinBytes < len then .next (raise .oversize (opField (Opcode.value .crcVerify)) s)
  else if len < 2 then .next (raise .badLen (opField (Opcode.value .crcVerify)) s)
  else .next { s with host.crcOk := verify (s.codecIn len) }

/-- `BUILD_READ` (R150). -/
def execBuildRead (s : State) : Host.Outcome State Fault Refusal :=
  .next (setCodecOut (buildRequestFrame s.argAddr s.argFc s.argReg s.argCount) s)

/-- `BUILD_WRITE_S` (R153). -/
def execBuildWriteS (len : Nat) (s : State) : Host.Outcome State Fault Refusal :=
  if s.params.maxFrame < 6 + len then .next (raise .oversize (opField (Opcode.value .buildWriteS)) s)
  else .next (setCodecOut (buildWriteSingle s.argAddr s.argFc s.argReg (s.codecIn len)) s)

/-- `BUILD_WRITE_M` (R156). -/
def execBuildWriteM (len : Nat) (s : State) : Host.Outcome State Fault Refusal :=
  if s.params.maxFrame < 9 + len then .next (raise .oversize (opField (Opcode.value .buildWriteM)) s)
  else .next (setCodecOut (buildWriteMultiple s.argAddr s.argFc s.argReg s.argCount (s.codecIn len)) s)

end Sys2Proof.Machine
end

