-- ==== Sys2Proof/Machine/Classifier.lean ====
section
/-! DEFINITION. The response classifier: one pure, total function (R170–R189), and the `CLASSIFY` command (R190). -/

namespace Sys2Proof.Machine

/-- `g(i)`: byte `i` of the frame, 0 at or past its length (R171). -/
def clsByte (f : List Byte) (i : Nat) : Byte := f.getD i 0

/-- `W(k)`: the big-endian 32-bit window at offset `k` (R172). -/
def clsWindow (f : List Byte) (k : Nat) : Word :=
  fieldAt 24 (clsByte f k) ||| fieldAt 16 (clsByte f (k + 1)) ||| fieldAt 8 (clsByte f (k + 2)) |||
  fieldAt 0 (clsByte f (k + 3))

/-- `word(k)` under the `LE` flag (R181). -/
def clsWord (f : List Byte) (flags : Word) (k : Nat) : Half :=
  if cycLe flags then joinBytes (clsByte f (k + 1)) (clsByte f k) else joinBytes (clsByte f k) (clsByte f (k + 1))

/-- The decode for `fc` 1 and 2 (R178). -/
def decodeBits (f : List Byte) : RespClass × Word :=
  if clsByte f 2 = 1 ∧ f.length = 6 then (.value, (clsByte f 3).setWidth 32)
  else (.invalidReceiveLength, clsWindow f 3)

/-- The expected data byte count for `fc` 3 and 4 (R179). -/
def expectedBytes (flags : Word) : Nat := if cycCombine flags then 4 else 2

/-- The decode for `fc` 3 and 4 (R179–R183). -/
def decodeRegisters (f : List Byte) (flags : Word) : RespClass × Word :=
  if (clsByte f 2).toNat ≠ expectedBytes flags ∨ f.length ≠ 5 + expectedBytes flags then
    (.invalidReceiveLength, clsWindow f 3)
  else if cycCombine flags = false then (.value, (clsWord f flags 3).setWidth 32)
  else if cycHwf flags then (.value, fieldAt 16 (clsWord f flags 3) ||| fieldAt 0 (clsWord f flags 5))
  else (.value, fieldAt 16 (clsWord f flags 5) ||| fieldAt 0 (clsWord f flags 3))

/-- The decode by function code of a frame that passed steps 1 to 4 (R178–R187). -/
def decodePayload (f : List Byte) (fc : Byte) (flags : Word) : RespClass × Word :=
  if fc = 1 ∨ fc = 2 then decodeBits f
  else if fc = 3 ∨ fc = 4 then decodeRegisters f flags
  else if fc = 7 then (.value, (clsByte f 2).setWidth 32)
  else if fc = 5 ∨ fc = 6 ∨ fc = 15 ∨ fc = 16 then (.actorResponse, clsWindow f 2)
  else (.unexpectedFunctionCode, clsWindow f 2)

/-- `classify(f, L, a, fc, flags)` with `f` the `L` received bytes (R188). -/
def classify (f : List Byte) (a fc : Byte) (flags : Word) : RespClass × Word :=
  if f.length = 0 then (.noResponse, 0)
  else if f.length ≤ 4 then (.invalidReceiveLength, BitVec.ofNat 32 f.length)
  else if crc16 (f.take (f.length - 2)) ≠ frameCrc f then
    (.crcError, fieldAt 16 (crc16 (f.take (f.length - 2))) ||| fieldAt 0 (frameCrc f))
  else if clsByte f 0 ≠ a ∨ clsByte f 1 ≠ fc then
    (.invalidResponse, fieldAt 8 (clsByte f 0) ||| fieldAt 0 (clsByte f 1))
  else decodePayload f fc flags

/-- `CLASSIFY` (R190). -/
def execClassify (len : Nat) (s : State) : Host.Outcome State Fault Refusal :=
  if s.params.cinBytes < len then .next (raise .oversize (opField (Opcode.value .classify)) s)
  else .next { s with
    host.clsResult := clsResultWord len s.argFc (classify (s.codecIn len) s.argAddr s.argFc s.argFlags).1
    host.clsValue := (classify (s.codecIn len) s.argAddr s.argFc s.argFlags).2 }

end Sys2Proof.Machine
end

