-- ==== Sys2Proof/Machine/Control.lean ====
section
/-! DEFINITION. The control commands `NOP`, `EVT_POP` and `CLR_ERR` (R290, R294, R296). -/

namespace Sys2Proof.Machine

/-- `NOP` (R290). -/
def execNop (s : State) : Host.Outcome State Fault Refusal := .next s

/-- `EVT_POP` (R294). -/
def execEvtPop (s : State) : Host.Outcome State Fault Refusal :=
  match s.evtQ with
  | [] => .next { s with host.evtHead0 := 0, host.evtHead1 := 0, host.evtHead2 := 0 }
  | e :: q => .next { s with
      evtQ := q, host.evtHead0 := e.head0, host.evtHead1 := e.head1, host.evtHead2 := e.val }

/-- `CLR_ERR` (R296). -/
def execClrErr (s : State) : Host.Outcome State Fault Refusal := .next { s with host.err := 0, evtOvf := false }

end Sys2Proof.Machine
end

