-- ==== Sys2Proof/Machine/Relay.lean ====
section
/-! DEFINITION. The relay queue's host side: `RELAY_PUSH` (R230–R233). -/

namespace Sys2Proof.Machine

/-- The whole frame with its prefix has room in the queue (R231). -/
def State.relayHasRoom (s : State) (n : Nat) : Bool := decide (relayUsed s.relayQ + 1 + n ≤ s.params.relayQBytes)

/-- `RELAY_PUSH` (R233). -/
def execRelayPush (s : State) : Host.Outcome State Fault Refusal :=
  if s.host.outLen = 0 then .next (raise .badLen (opField (Opcode.value .relayPush)) s)
  else if s.relayHasRoom s.host.outLen.toNat then
    .next { s with relayQ := s.relayQ ++ [s.codecOut], host.enqFail := false }
  else .next { s with host.enqFail := true }

end Sys2Proof.Machine
end

