-- ==== Sys2Proof/Machine/Scheduler.lean ====
section
/-! DEFINITION. The poll scheduler: `CFG_COMMIT` with its validation and timing (R210–R216) and the worker steps of a
scheduler pass (R219–R223). -/

namespace Sys2Proof.Machine

/-- The function codes that may be polled (R116, R118). -/
def isPollCode (fc : Byte) : Bool := fc == 1 || fc == 2 || fc == 3 || fc == 4 || fc == 7

/-- The number of a rejection reason (R210). -/
def CfgReason.number : CfgReason → Word
  | .version => 1
  | .count => 2
  | .baud => 3
  | .wordLen => 4
  | .stopBits => 5
  | .parity => 6
  | .functionCode => 7

/-- The least index below `ENTRY_COUNT` whose function code may not be polled (R210, check 7). -/
def State.badDevice (s : State) : Option Nat :=
  (s.staging.devs.take s.stCount.toNat).findIdx? (fun d => !isPollCode d.fc)

/-- The first failing check of R210 with its device index, or none if the commit is accepted. -/
def State.commitCheck (s : State) : Option (CfgReason × Nat) :=
  if s.stVersion ≠ s.params.cfgVersion then some (.version, 0)
  else if s.params.nDev < s.stCount.toNat then some (.count, 0)
  else if s.stBaud = 0 then some (.baud, 0)
  else if s.stWordLen ≠ 8 ∧ s.stWordLen ≠ 9 then some (.wordLen, 0)
  else if s.stStop ≠ 1 ∧ s.stStop ≠ 2 then some (.stopBits, 0)
  else if 4 < s.stParity then some (.parity, 0)
  else match s.badDevice with
    | some i => some (.functionCode, i)
    | none => none

/-- Character length in bits (R213). Parity codes 3 and 4 count one bit (R117; log entry 9). -/
def State.charBits (s : State) : Nat := 1 + s.stWordLen + s.stStop + (if s.stParity ≠ 0 then 1 else 0)

/-- `clamp(x)`, over unbounded non-negative integers (R214). -/
def clampMs (x : Nat) : Nat := min (max x Config.tMinMs) Config.tMaxMs

/-- `ceil(a / b)`. -/
def ceilDiv (a b : Nat) : Nat := (a + b - 1) / b

/-- `ifs` of `timing(staging)` (R215). -/
def State.newIfs (s : State) : Nat :=
  if s.stManual then clampMs s.stPause else clampMs (ceilDiv (3500 * s.charBits) s.stBaud)

/-- `timeout` of `timing(staging)` (R215). -/
def State.newTimeout (s : State) : Nat :=
  if s.stManual then clampMs s.stTimeout else clampMs Config.autoTimeoutMs

/-- Acceptance of a commit (R211, R212). -/
def acceptCommit (s : State) : State :=
  { s with
    cfgValid := true
    active :=
      { count := s.stCount, devs := s.staging.devs.map StagedDevice.commit, ifs := BitVec.ofNat 16 s.newIfs,
        timeout := BitVec.ofNat 16 s.newTimeout }
    sched := { deadlines := List.replicate s.params.nDev 0, devStates := List.replicate s.params.nDev .idle }
    worker.restart := true
    host.cfgStatus := 0 }

/-- Rejection of a commit: `CFG_STATUS`, written before the error is raised (R210, R300). -/
def rejectCommit (why : CfgReason) (idx : Nat) (s : State) : State :=
  raise .cfgReject (opField (Opcode.value .cfgCommit))
    { s with host.cfgStatus := fieldAt 8 (BitVec.ofNat 8 idx) ||| why.number }

/-- `CFG_COMMIT` (R210, R211). -/
def execCfgCommit (s : State) : Host.Outcome State Fault Refusal :=
  match s.commitCheck with
  | some (why, idx) => .next (rejectCommit why idx s)
  | none => .next (acceptCommit s)

/-! Worker steps of a pass. The frame-boundary checks that come first are in Cycle.lean (R245). -/

/-- `W_PASS` (R219). -/
def passStep (s : State) : State :=
  { s with worker.restart := false, worker.passNow := s.now, worker.scanI := 0, worker.ws := .wScan }

/-- Device `i` is due at the current pass (R220): `MAG` is not 0 and its deadline has elapsed. -/
def State.isDue (s : State) (i : Nat) : Bool :=
  cycMag (s.device i).cycle != 0 && decide (s.deadline i ≤ s.worker.passNow)

/-- Device `i` becomes Due: its next deadline is `pass_now + period` mod 2^64 (R221). -/
def becomeDue (i : Nat) (s : State) : State :=
  goto .wDue (setDeadline i (s.worker.passNow + BitVec.ofNat 64 (periodMs (s.device i).cycle)) (setDevState i .due s))

/-- `W_SCAN` (R220). -/
def scanStep (s : State) : State :=
  if s.active.count ≤ s.worker.scanI then goto .wDrain s
  else if s.isDue s.worker.scanI.toNat then becomeDue s.worker.scanI.toNat s
  else { s with worker.scanI := s.worker.scanI + 1 }

/-- The request frame of a device (R222). -/
def pollFrame (d : Device) : List Byte := buildRequestFrame d.addr d.fc d.reg (wcount d.fc d.cycle)

/-- `W_DUE` (R222). -/
def dueStep (s : State) : State :=
  let i := s.worker.scanI
  let d := s.device i.toNat
  goto .cStart (setDevState i.toNat .polling
    { loadTx (pollFrame d) s with
      worker.ctx := { dev := i, attempt := .first, src := .poll, reqAddr := d.addr, reqFc := d.fc, flags := d.cycle } })

/-- Return from a poll's frame transaction (R223). -/
def pollReturn (s : State) : State :=
  let i := s.worker.ctx.dev
  goto .wScan { setDevState i.toNat .idle s with worker.scanI := i + 1, worker.ctx.dev := 0xFF }

end Sys2Proof.Machine
end

