-- ==== Sys2Proof/Machine/Dispatch.lean ====
section
/-! DEFINITION. One arm per command, each one direct call of its meaning. -/

namespace Sys2Proof.Machine

def exec (i : Instr) (s : State) : Host.Outcome State Fault Refusal :=
  match i with
  | .nop => Sys2Proof.Machine.execNop s
  | .crcCalc len => Sys2Proof.Machine.execCrcCalc len s
  | .crcVerify len => Sys2Proof.Machine.execCrcVerify len s
  | .buildRead => Sys2Proof.Machine.execBuildRead s
  | .buildWriteS len => Sys2Proof.Machine.execBuildWriteS len s
  | .buildWriteM len => Sys2Proof.Machine.execBuildWriteM len s
  | .classify len => Sys2Proof.Machine.execClassify len s
  | .relayPush => Sys2Proof.Machine.execRelayPush s
  | .cfgCommit => Sys2Proof.Machine.execCfgCommit s
  | .evtPop => Sys2Proof.Machine.execEvtPop s
  | .clrErr => Sys2Proof.Machine.execClrErr s

end Sys2Proof.Machine
end

