-- ==== Sys2Proof/Machine/Bus.lean ====
section
/-! DEFINITION. The host bus: the address map (R75), the access classes (R20), reads (R71) and writes (R72). -/

namespace Sys2Proof.Machine

/-- A mapped word of the register space (R75): a register, an entry of a device table, or word `j` of a window. -/
inductive Reg where
  | id | specRev | param0 | param1 | param2 | ctrl | status | err | cmd | arg0 | arg1 | arg2
  | crcResult | outLen | clsResult | clsValue | nowLo | nowHi | ifsMs | timeoutMs | txFailCnt | relayLevel
  | rxLen | txLen | curCtx | evtHead0 | evtHead1 | evtHead2 | actCount | cfgStatus
  | cfgVer | cfgBaud | cfgFormat | cfgTiming | cfgCount
  | devsAf (i : Nat) | devsReg (i : Nat) | devsCyc (i : Nat)
  | dlLo (i : Nat) | dlHi (i : Nat) | devStateWord (j : Nat)
  | codecIn (j : Nat) | codecOut (j : Nat) | rxBuf (j : Nat) | txBuf (j : Nat)
  | devaAf (i : Nat) | devaReg (i : Nat) | devaCyc (i : Nat)
  deriving DecidableEq, Repr

/-- The access classes of R20. -/
inductive Access where
  | ro | rw | wo
  deriving DecidableEq, Repr

/-- The offset of `CMD` (R75). -/
def cmdAddr : Addr := 0x020

/-- The single registers of R75, by offset. -/
def fixedMap : List (Nat × Reg) :=
  [(0x000, .id), (0x004, .specRev), (0x008, .param0), (0x00C, .param1), (0x010, .param2), (0x014, .ctrl),
   (0x018, .status), (0x01C, .err), (0x020, .cmd), (0x024, .arg0), (0x028, .arg1), (0x02C, .arg2)] ++
  [(0x030, .crcResult), (0x034, .outLen), (0x038, .clsResult), (0x03C, .clsValue), (0x040, .nowLo), (0x044, .nowHi),
   (0x048, .ifsMs), (0x04C, .timeoutMs), (0x050, .txFailCnt), (0x054, .relayLevel), (0x058, .rxLen), (0x05C, .txLen),
   (0x060, .curCtx)] ++
  [(0x064, .evtHead0), (0x068, .evtHead1), (0x06C, .evtHead2), (0x070, .actCount), (0x074, .cfgStatus),
   (0x080, .cfgVer), (0x084, .cfgBaud), (0x088, .cfgFormat), (0x08C, .cfgTiming), (0x090, .cfgCount)]

/-- Column `o` of a device table entry of 16 bytes: three registers, the fourth word unmapped (R75). -/
def deviceColumn (o : Nat) (af reg cyc : Reg) : Option Reg :=
  if o = 0 then some af else if o = 4 then some reg else if o = 8 then some cyc else none

/-- Word `j` of a window of capacity `cap` is mapped iff `4j < cap` (R74). -/
def windowMap (cap j : Nat) (r : Reg) : Option Reg := if 4 * j < cap then some r else none

/-- The tables and windows of R75 at an aligned offset `a`. -/
def tableMap (p : Params) (a : Nat) : Option Reg :=
  if 0x100 ≤ a ∧ a < 0x500 then
    let i := (a - 0x100) / 16
    if i < p.nDev then deviceColumn ((a - 0x100) % 16) (.devsAf i) (.devsReg i) (.devsCyc i) else none
  else if 0x500 ≤ a ∧ a < 0x700 then
    let i := (a - 0x500) / 8
    if i < p.nDev then some (if (a - 0x500) % 8 = 0 then .dlLo i else .dlHi i) else none
  else if 0x700 ≤ a ∧ a < 0x740 then windowMap p.nDev ((a - 0x700) / 4) (.devStateWord ((a - 0x700) / 4))
  else if 0x800 ≤ a ∧ a < 0x900 then windowMap p.cinBytes ((a - 0x800) / 4) (.codecIn ((a - 0x800) / 4))
  else if 0x900 ≤ a ∧ a < 0xA00 then windowMap p.maxFrame ((a - 0x900) / 4) (.codecOut ((a - 0x900) / 4))
  else if 0xA00 ≤ a ∧ a < 0xB00 then windowMap p.rxCap ((a - 0xA00) / 4) (.rxBuf ((a - 0xA00) / 4))
  else if 0xB00 ≤ a ∧ a < 0xC00 then windowMap p.maxFrame ((a - 0xB00) / 4) (.txBuf ((a - 0xB00) / 4))
  else if 0xC00 ≤ a ∧ a < 0x1000 then
    let i := (a - 0xC00) / 16
    if i < p.nDev then deviceColumn ((a - 0xC00) % 16) (.devaAf i) (.devaReg i) (.devaCyc i) else none
  else none

/-- What stands at a byte address: none if it is misaligned or unmapped (R71, R72, R75, R77). -/
def mapped (p : Params) (addr : Addr) : Option Reg :=
  if addr.toNat % 4 ≠ 0 then none
  else match fixedMap.lookup addr.toNat with
    | some r => some r
    | none => tableMap p addr.toNat

/-- The access class of each mapped word (R75). -/
def Reg.access : Reg → Access
  | .cmd => .wo
  | .ctrl | .arg0 | .arg1 | .arg2 | .cfgVer | .cfgBaud | .cfgFormat | .cfgTiming | .cfgCount | .devsAf _ | .devsReg _
  | .devsCyc _ | .codecIn _ => .rw
  | .id | .specRev | .param0 | .param1 | .param2 | .status | .err | .crcResult | .outLen | .clsResult | .clsValue
  | .nowLo | .nowHi | .ifsMs | .timeoutMs | .txFailCnt | .relayLevel | .rxLen | .txLen | .curCtx | .evtHead0
  | .evtHead1 | .evtHead2 | .actCount | .cfgStatus | .dlLo _ | .dlHi _ | .devStateWord _ | .codecOut _ | .rxBuf _
  | .txBuf _ | .devaAf _ | .devaReg _ | .devaCyc _ => .ro

/-- Byte `i` of the `DEVSTATE` window (R39, R74). -/
def State.devStateByte (s : State) (i : Nat) : Byte := if i < s.params.nDev then (s.devState i).code else 0

/-- The current value of a mapped word (R71, R74, 10_state.md). -/
def State.regValue (s : State) : Reg → Word
  | .id => Config.idWord
  | .specRev => Config.specRev
  | .param0 => paramWord0 s.params
  | .param1 => paramWord1 s.params
  | .param2 => paramWord2 s.params
  | .ctrl => s.ctrl
  | .status => s.status
  | .err => s.host.err
  | .cmd => 0
  | .arg0 => s.host.arg0
  | .arg1 => s.host.arg1
  | .arg2 => s.host.arg2
  | .crcResult => s.host.crcResult.setWidth 32
  | .outLen => s.host.outLen.setWidth 32
  | .clsResult => s.host.clsResult
  | .clsValue => s.host.clsValue
  | .nowLo => s.now.extractLsb' 0 32
  | .nowHi => s.now.extractLsb' 32 32
  | .ifsMs => s.active.ifs.setWidth 32
  | .timeoutMs => s.active.timeout.setWidth 32
  | .txFailCnt => s.line.txFailCnt
  | .relayLevel => s.relayLevel
  | .rxLen => s.line.rxLen.setWidth 32
  | .txLen => s.worker.txLen.setWidth 32
  | .curCtx => s.curCtx
  | .evtHead0 => s.host.evtHead0
  | .evtHead1 => s.host.evtHead1
  | .evtHead2 => s.host.evtHead2
  | .actCount => s.active.count.setWidth 32
  | .cfgStatus => s.host.cfgStatus
  | .cfgVer => s.staging.ver
  | .cfgBaud => s.staging.baud
  | .cfgFormat => s.staging.format
  | .cfgTiming => s.staging.timing
  | .cfgCount => s.staging.count
  | .devsAf i => (s.staged i).af
  | .devsReg i => (s.staged i).reg
  | .devsCyc i => (s.staged i).cyc
  | .dlLo i => (s.deadline i).extractLsb' 0 32
  | .dlHi i => (s.deadline i).extractLsb' 32 32
  | .devStateWord j =>
      packWord (s.devStateByte (4 * j)) (s.devStateByte (4 * j + 1)) (s.devStateByte (4 * j + 2))
        (s.devStateByte (4 * j + 3))
  | .codecIn j => s.mem.windowWord codecInBase s.params.cinBytes j
  | .codecOut j => s.mem.windowWord codecOutBase s.params.maxFrame j
  | .rxBuf j => s.mem.windowWord rxBase s.params.rxCap j
  | .txBuf j => s.mem.windowWord txBase s.params.maxFrame j
  | .devaAf i => fieldAt 8 (s.device i).fc ||| fieldAt 0 (s.device i).addr
  | .devaReg i => (s.device i).reg.setWidth 32
  | .devaCyc i => (s.device i).cycle

/-- `MemRead(addr, 4)`: misaligned, unmapped and write-only words return 0 (R71). -/
def memRead (s : State) (addr : Addr) : Word :=
  match mapped s.params addr with
  | none => 0
  | some r => match r.access with
    | .wo => 0
    | .ro => s.regValue r
    | .rw => s.regValue r

/-- Replace staging entry `i`. -/
def setStaged (i : Nat) (d : StagedDevice) (s : State) : State := { s with staging.devs := s.staging.devs.set i d }

/-- Store `v` in a writable register; nothing for a word that is not `RW` (R72). -/
def storeReg (r : Reg) (v : Word) (s : State) : State :=
  match r with
  | .ctrl => { s with ctrl := ctrlWritten v }
  | .arg0 => { s with host.arg0 := v }
  | .arg1 => { s with host.arg1 := v }
  | .arg2 => { s with host.arg2 := v }
  | .cfgVer => { s with staging.ver := v }
  | .cfgBaud => { s with staging.baud := v }
  | .cfgFormat => { s with staging.format := v }
  | .cfgTiming => { s with staging.timing := v }
  | .cfgCount => { s with staging.count := v }
  | .devsAf i => setStaged i { s.staged i with af := v } s
  | .devsReg i => setStaged i { s.staged i with reg := v } s
  | .devsCyc i => setStaged i { s.staged i with cyc := v } s
  | .codecIn j => { s with mem := s.mem.setWindowWord codecInBase s.params.cinBytes j v }
  | .id | .specRev | .param0 | .param1 | .param2 | .status | .err | .cmd | .crcResult | .outLen | .clsResult | .clsValue
  | .nowLo | .nowHi | .ifsMs | .timeoutMs | .txFailCnt | .relayLevel | .rxLen | .txLen | .curCtx | .evtHead0
  | .evtHead1 | .evtHead2 | .actCount | .cfgStatus | .dlLo _ | .dlHi _ | .devStateWord _ | .codecOut _ | .rxBuf _
  | .txBuf _ | .devaAf _ | .devaReg _ | .devaCyc _ => s

/-- A word written to `CMD`: the command it encodes, or `ILLEGAL_CMD` with `ERR.OP = w[7:0]` (R29, R100). -/
def command (w : Word) (s : State) : Host.Outcome State Fault Refusal :=
  match decode w with
  | .command i => exec i s
  | .rejected _ => .next (raise .illegalCmd (opField w) s)

/-- A write to a mapped word (R72). -/
def writeReg (r : Reg) (v : Word) (s : State) : Host.Outcome State Fault Refusal :=
  match r.access with
  | .ro => .next (busError s)
  | .wo => command v s
  | .rw => .next (storeReg r v s)

/-- A host write of `size` bytes: another width than 32 bits, or a misaligned or unmapped address, is a bus access error
(R72, R73, R77, R301). -/
def hostWrite (addr : Addr) (size : Nat) (v : Word) (s : State) : Host.Outcome State Fault Refusal :=
  if size ≠ 4 then .next (busError s)
  else match mapped s.params addr with
    | none => .next (busError s)
    | some r => writeReg r v s

/-- A host read of `size` bytes: it only puts a word on `rdata`. For another width than 32 bits the spec states no word:
a free value (log entry 6). -/
def hostRead (addr : Addr) (size : Nat) (s : State) : State :=
  if size = 4 then { s with ports.rdata := memRead s addr }
  else { s with ports.rdata := Config.freeWord s.ports.freeIndex, ports.freeIndex := s.ports.freeIndex + 1 }

end Sys2Proof.Machine
end

