-- ==== Sys2Proof/Machine/Cycle.lean ====
section
/-! DEFINITION. The half-duplex cycle controller and the worker loop (R245–R268, R292): what the worker's enabled step
does in each control state. -/

namespace Sys2Proof.Machine

/-- `W_IDLE` is left when `RUN = 1` and `CFG_VALID = 1` (R292). -/
def idleStep (s : State) : Option State := if s.run && s.cfgValid then some (goto .wPass s) else none

/-- The frame-boundary checks of R245, each a whole step, before the state's own rule `own`: `RUN = 0` parks the worker;
then, where `W_PASS` is not the state itself, `restart` starts a new pass. -/
def atBoundary (checkRestart : Bool) (own : State → Option State) (s : State) : Option State :=
  if s.run = false then some (goto .wIdle s)
  else if checkRestart && s.worker.restart then some (goto .wPass s)
  else own s

/-- Load the head relay frame without removing it (R234, R235, R247). -/
def loadRelay (f : List Byte) (s : State) : State :=
  goto .cStart
    { loadTx f s with
      worker.ctx :=
        { dev := 0xFF, attempt := .first, src := .relay, reqAddr := f.getD 0 0, reqFc := f.getD 1 0, flags := 0 } }

/-- `W_DRAIN` (R247). -/
def drainStep (s : State) : State :=
  match s.relayQ with
  | f :: _ => loadRelay f s
  | [] => goto .wRwait { s with worker.tEnd := s.now + BitVec.ofNat 64 s.params.relayWaitMs }

/-- `W_RWAIT` (R248): enabled when a frame is queued or the wait is over. -/
def rwaitStep (s : State) : Option State :=
  if s.relayQ ≠ [] then some (goto .wDrain s)
  else if s.worker.tEnd ≤ s.now then some (goto .wPass s)
  else none

/-- `C_START`, cycle step 1 (R255). -/
def startStep (s : State) : State :=
  goto .cTx { rxClear s with line.dir := true, worker.txIdx := 0 }

/-- The byte `C_TX` offers next, `S.txbuf[S.txidx]` (R256). -/
def State.nextTxByte (s : State) : Byte := s.mem.read (txBase + s.worker.txIdx.toNat)

/-- `C_TX`, the worker's offer (R256); the byte goes on the wire. -/
def offerStep (s : State) : State :=
  { s with line.txOffer := some s.nextTxByte, ports.wire := s.ports.wire ++ [s.nextTxByte] }

/-- End of cycle step 2 and step 3: switch to receive (R257). -/
def switchStep (s : State) : State :=
  goto .cRxwait { s with line.dir := false, worker.t0 := s.now, worker.nextSample := s.now }

/-- `C_TX` (R256, R257): waits while a byte is on offer. -/
def txStep (s : State) : Option State :=
  if s.line.txOffer ≠ none then none
  else if s.worker.txIdx < s.worker.txLen then some (offerStep s)
  else if s.worker.txIdx = s.worker.txLen then some (switchStep s)
  else none

/-- The end of the response wait, `S.t0 + S.timeout` (R258); modulo 2^64 (log entry 7). -/
def State.waitEnd (s : State) : DWord := s.worker.t0 + s.active.timeout.setWidth 64

/-- The classification of the receive buffer under the captured context (R258). -/
def State.rxClass (s : State) : RespClass × Word :=
  classify s.rxBytes s.worker.ctx.reqAddr s.worker.ctx.reqFc s.worker.ctx.flags

/-- The event an attempt publishes (R258, R260, R268). -/
def State.attemptEvent (s : State) : Event :=
  { kind := s.worker.cls.eventKind, dev := s.worker.ctx.dev, subch := 0, fc := s.worker.ctx.reqFc, cls := s.worker.cls,
    val := s.worker.val }

/-- An attempt publishes when it did not fail or is the retry (R258, R260). -/
def publish (s : State) : State :=
  if s.worker.cls.isFailure = false ∨ s.worker.ctx.attempt = .retry then emit s.attemptEvent s else s

/-- Cycle step 5 with the start of the turnaround pause (R258). -/
def classifyStep (s : State) : State :=
  let s1 := publish { s with worker.cls := s.rxClass.1, worker.val := s.rxClass.2 }
  goto .cTurn { s1 with worker.tEnd := s.now + s.active.ifs.setWidth 64 }

/-- The smaller of two times. -/
def minTime (a b : DWord) : DWord := if a ≤ b then a else b

/-- `C_RXWAIT`, cycle steps 4 and 5 (R258): enabled at the next sample time. -/
def rxwaitStep (s : State) : Option State :=
  if s.now < s.worker.nextSample then none
  else if 0 < s.line.rxLen ∨ s.waitEnd ≤ s.now then some (classifyStep s)
  else some { s with
    worker.nextSample := minTime (s.worker.nextSample + BitVec.ofNat 64 s.params.rxPollMs) s.waitEnd }

/-- `C_TURN`, cycle step 6 (R262). -/
def turnStep (s : State) : Option State :=
  if s.now < s.worker.tEnd then none else some (goto .cEnd (rxClear s))

/-- Return of a relay frame: the head leaves the queue (R266). -/
def relayReturn (s : State) : State := goto .wDrain { s with relayQ := s.relayQ.tail }

/-- Return at the end of a frame transaction, by the captured context (R265). -/
def returnStep (s : State) : State :=
  match s.worker.ctx.src with
  | .poll => pollReturn s
  | .relay => relayReturn s

/-- `C_END`: a failed first attempt runs the cycle once more (R264). -/
def endStep (s : State) : State :=
  if s.worker.cls.isFailure ∧ s.worker.ctx.attempt = .first then
    goto .cStart { s with worker.ctx.attempt := .retry }
  else returnStep s

/-- The worker's enabled step, or none while it waits (R246). -/
def workerStep (s : State) : Option State :=
  match s.worker.ws with
  | .wIdle => idleStep s
  | .wPass => atBoundary false (fun s => some (passStep s)) s
  | .wScan => atBoundary true (fun s => some (scanStep s)) s
  | .wDue => some (dueStep s)
  | .wDrain => atBoundary true (fun s => some (drainStep s)) s
  | .wRwait => atBoundary true rwaitStep s
  | .cStart => some (startStep s)
  | .cTx => txStep s
  | .cRxwait => rxwaitStep s
  | .cTurn => turnStep s
  | .cEnd => some (endStep s)

end Sys2Proof.Machine
end

