-- ==== Sys2Proof/Machine/Agents.lean ====
section
/-! DEFINITION. The steps of the agents other than the worker (R11) and the taking of one port action. -/

namespace Sys2Proof.Machine

/-- The `Clock` step (R310). -/
def clockStep (s : State) : State := { s with now := s.now + 1 }

/-- The `RxLine` step: a byte past the capacity is dropped silently (R251). -/
def rxStep (b : Byte) (s : State) : State :=
  if s.line.rxLen.toNat < s.params.rxCap then
    { s with mem := s.mem.write (rxBase + s.line.rxLen.toNat) b, line.rxLen := s.line.rxLen + 1 }
  else s

/-- The `Transport` answer to the byte on offer (R256). -/
def answerStep (ok : Bool) (s : State) : State :=
  { s with
    line.txFailCnt := if ok then s.line.txFailCnt else s.line.txFailCnt + 1
    line.txOffer := none
    worker.txIdx := s.worker.txIdx + 1 }

/-- The reset step: every piece of state at its reset value at once; the parameters and what stands at the ports are no
such state (R330, R331). -/
def resetStep (s : State) : State := State.resetWith s.params s.ports

/-- Take the oldest port action off the list. -/
def dropInput (rest : List Input) (s : State) : State := { s with ports.inputs := rest }

/-- A tick is due. It waits while the worker has an enabled step: worker steps take no time, and a `Clock` step is enabled
only when the worker has none (R246, R310). `taken` is the state once the tick is consumed. -/
def tickTurn (taken : State) (s : State) : State :=
  match workerStep s with
  | some t => t
  | none => clockStep taken

/-- One port action, `rest` being those after it. -/
def takeInput (inp : Input) (rest : List Input) (s : State) : Host.Outcome State Fault Refusal :=
  match inp with
  | .hostRead addr size => .next (hostRead addr size (dropInput rest s))
  | .hostWrite addr size v => hostWrite addr size v (dropInput rest s)
  | .worker => match workerStep (dropInput rest s) with
    | some t => .next t
    | none => .fault .workerNotEnabled
  | .tick => .next (tickTurn (dropInput rest s) s)
  | .rx b => .next (rxStep b (dropInput rest s))
  | .answer ok =>
    if s.line.txOffer = none then .fault .answerWithoutOffer else .next (answerStep ok (dropInput rest s))
  | .reset => .next (resetStep (dropInput rest s))

/-- With no port action to come, the block runs on by itself: the worker's enabled step, else a tick (log entry 3). -/
def takeTurn (s : State) : Host.Outcome State Fault Refusal := .next (tickTurn s s)

/-- Put a host write of a command word in front of the port actions to come. -/
def pushCommand (w : Word) (s : State) : State :=
  { s with ports.inputs := .hostWrite cmdAddr 4 w :: s.ports.inputs }

end Sys2Proof.Machine
end

