-- ==== Sys2Proof/Machine/Step.lean ====
section
/-! DEFINITION. One step of the machine: the oldest port action, or the block's own next step. -/

namespace Sys2Proof.Machine

/-- One atomic step of one agent (R11, R82). -/
def step (s : State) : Host.Outcome State Fault Refusal :=
  match s.ports.inputs with
  | [] => takeTurn s
  | inp :: rest => takeInput inp rest s

/-- `s` with the host about to write a command word to `CMD`: the very next step runs it (R29; log entry 2). -/
def State.withFetchWord (s : State) (nbits w : Nat) : State := pushCommand (BitVec.ofNat 32 (w % 2 ^ nbits)) s

end Sys2Proof.Machine
end

