-- ==== Sys2Proof/Safety.lean ====
section
/-! DEFINITION. The words claims use: the invariant of a safe state, frames over memory, which worker states belong to a
frame transaction, the single checks of a commit, and a run of steps. -/

namespace Sys2Proof.Machine

/-- A frame transaction is running: `C_START` to `C_END` (R13, R40). -/
def WorkerState.inTransaction : WorkerState → Bool
  | .wIdle => false
  | .wPass => false
  | .wScan => false
  | .wDue => false
  | .wDrain => false
  | .wRwait => false
  | .cStart => true
  | .cTx => true
  | .cRxwait => true
  | .cTurn => true
  | .cEnd => true

/-- Address `a` is one of the `n` bytes from `base` on. -/
abbrev InRange (base n a : Nat) : Prop := base ≤ a ∧ a < base + n

/-- Every byte outside the `n` bytes from `base` on reads in `m'` as in `m`. -/
def SameOutside (m m' : Memory) (base n : Nat) : Prop := ∀ a, ¬ InRange base n a → m'.read a = m.read a

/-- Bytes `0 .. n` of the buffer at `base` are those of `f`. -/
def HoldsBytes (m : Memory) (base : Nat) (f : List Byte) : Prop := ∀ k, k < f.length → m.read (base + k) = f.getD k 0

/-- Bytes `lo .. hi` of the buffer at `base` are 0. -/
def ZeroFrom (m : Memory) (base lo hi : Nat) : Prop := ∀ k, lo ≤ k → k < hi → m.read (base + k) = 0

/-- `S.txbuf[0..txlen)` (R44). -/
def State.txBytes (s : State) : List Byte := s.mem.readBytes txBase s.worker.txLen.toNat

/-- Check `why` of R210 passes. -/
def State.passes (s : State) : CfgReason → Prop
  | .version => s.stVersion = s.params.cfgVersion
  | .count => s.stCount.toNat ≤ s.params.nDev
  | .baud => s.stBaud ≠ 0
  | .wordLen => s.stWordLen = 8 ∨ s.stWordLen = 9
  | .stopBits => s.stStop = 1 ∨ s.stStop = 2
  | .parity => s.stParity ≤ 4
  | .functionCode => ∀ i, i < s.stCount.toNat → isPollCode (s.staged i).fc = true

/-- The next port action, `rest` being those after it. -/
abbrev State.Pending (s : State) (inp : Input) (rest : List Input) : Prop := s.ports.inputs = inp :: rest

/-! The spec's code tables and address list, as claims cite them. -/

/-- The classifications by code (R120). -/
def classTable : List RespClass :=
  [.value, .noResponse, .invalidReceiveLength, .crcError, .invalidResponse, .unexpectedFunctionCode, .actorResponse]

/-- The worker states by code (R40). -/
def workerTable : List WorkerState :=
  [.wIdle, .wPass, .wScan, .wDue, .wDrain, .wRwait, .cStart, .cTx, .cRxwait, .cTurn, .cEnd]

/-- The device states by code (R39). -/
def deviceTable : List DevState := [.idle, .due, .polling]

/-- Byte address `a` belongs to a register or window that R75 lists. -/
def Listed (p : Params) (a : Nat) : Prop :=
  InRange 0x000 0x078 a ∨ InRange 0x080 0x014 a ∨
  (∃ i < p.nDev, InRange (0x100 + 16 * i) 12 a ∨ InRange (0x500 + 8 * i) 8 a ∨ InRange (0xC00 + 16 * i) 12 a) ∨
  InRange 0x700 p.nDev a ∨ InRange 0x800 p.cinBytes a ∨ InRange 0x900 p.maxFrame a ∨ InRange 0xA00 p.rxCap a ∨
  InRange 0xB00 p.maxFrame a

/-- Byte address `a` lies where R75 gives the class `RW`: `CTRL`, the arguments, the staging registers and table,
`CODEC_IN`. -/
def ListedRw (a : Nat) : Prop :=
  InRange 0x014 4 a ∨ InRange 0x024 12 a ∨ InRange 0x080 0x014 a ∨ InRange 0x100 0x400 a ∨ InRange 0x800 0x100 a

/-- Byte `k` of the window at `base` as the host reads it: its place in its word by R74. -/
def State.hostByte (s : State) (base k : Nat) : Byte :=
  (memRead s (BitVec.ofNat 12 (base + 4 * (k / 4)))).extractLsb' (8 * (k % 4)) 8

/-- A frame passes steps 1 to 4 of the validation (R177). -/
abbrev PassesValidation (f : List Byte) (a fc : Byte) : Prop :=
  5 ≤ f.length ∧ verify f = true ∧ f.getD 0 0 = a ∧ f.getD 1 0 = fc

/-! The invariant. -/

/-- Register fields: reserved fields read 0 and codes stay in their ranges (R20, R24, R26, R27, R31, R48, R301). -/
abbrev RegistersOk (s : State) : Prop :=
  s.ctrl &&& 0xFFFFFFF8 = 0 ∧
  s.host.err &&& 0xFFFF00F0 = 0 ∧ s.errCode.toNat ≤ 5 ∧
  s.host.cfgStatus &&& 0xFFFF00F0 = 0 ∧ (s.host.cfgStatus.extractLsb' 0 4).toNat ≤ 7 ∧
  (s.host.cfgStatus.extractLsb' 0 4 = 7 ∨ s.host.cfgStatus.extractLsb' 8 8 = 0) ∧
  s.host.clsResult &&& 0x7F0000F0 = 0 ∧ (s.host.clsResult.extractLsb' 0 4).toNat ≤ 6 ∧
  s.host.evtHead0 &&& 0x00FF00FC = 0 ∧ s.host.evtHead1.toNat ≤ 6 ∧
  s.host.outLen.toNat ≤ s.params.maxFrame ∧ (s.host.outLen = 0 ∨ 6 ≤ s.host.outLen.toNat)

/-- Byte address `a` is a mapped byte of one of the four buffer windows (R74, R75). -/
abbrev InWindow (p : Params) (a : Nat) : Prop :=
  InRange codecInBase p.cinBytes a ∨ InRange codecOutBase p.maxFrame a ∨ InRange rxBase p.rxCap a ∨
  InRange txBase p.maxFrame a

/-- The byte memory: canonical form, nothing outside the windows, buffers 0 past their contents, and a built frame carries
its CRC (R43, R44, R74, R124, R151). -/
abbrev MemoryOk (s : State) : Prop :=
  s.mem.wf = true ∧ (∀ c ∈ s.mem, InWindow s.params c.1) ∧
  (∀ k < s.params.maxFrame, s.host.outLen.toNat ≤ k → s.mem.read (codecOutBase + k) = 0) ∧
  (∀ k < s.params.rxCap, s.line.rxLen.toNat ≤ k → s.mem.read (rxBase + k) = 0) ∧
  (∀ k < s.params.maxFrame, s.worker.txLen.toNat ≤ k → s.mem.read (txBase + k) = 0) ∧
  (s.host.outLen = 0 ∨ verify s.codecOut = true)

/-- The configuration tables and timing values (R34, R36–R39, R116). -/
abbrev TablesOk (s : State) : Prop :=
  s.staging.devs.length = s.params.nDev ∧ s.active.devs.length = s.params.nDev ∧
  s.sched.deadlines.length = s.params.nDev ∧ s.sched.devStates.length = s.params.nDev ∧
  s.active.count.toNat ≤ s.params.nDev ∧
  (∀ i < s.active.count.toNat, isPollCode (s.device i).fc = true) ∧
  (s.cfgValid = true → (5 ≤ s.active.ifs.toNat ∧ s.active.ifs.toNat ≤ 10000) ∧
    (5 ≤ s.active.timeout.toNat ∧ s.active.timeout.toNat ≤ 10000)) ∧
  (s.cfgValid = false → s.active.count = 0 ∧ s.active.ifs = 0 ∧ s.active.timeout = 0)

/-- The queues: bounded, every queued frame whole with its CRC, every event consistent (R46, R47, R121, R122, R124). -/
abbrev QueuesOk (s : State) : Prop :=
  relayUsed s.relayQ ≤ s.params.relayQBytes ∧
  (∀ f ∈ s.relayQ, 6 ≤ f.length ∧ f.length ≤ s.params.maxFrame ∧ verify f = true) ∧
  s.evtQ.length ≤ s.params.evtDepth ∧
  (∀ e ∈ s.evtQ, e.kind = e.cls.eventKind ∧ e.subch = 0)

/-- The serial side: `ser_dir` is 1 exactly in `C_TX`, and a byte on offer is the next byte of the frame (R42, R44, R50,
R256, R274). -/
abbrev LineOk (s : State) : Prop :=
  s.line.rxLen.toNat ≤ s.params.rxCap ∧ (s.line.dir = true ↔ s.worker.ws = .cTx) ∧
  s.worker.txLen.toNat ≤ s.params.maxFrame ∧ (s.worker.ws = .cTx → s.worker.txIdx.toNat ≤ s.worker.txLen.toNat) ∧
  (s.line.txOffer = none ∨
    (s.worker.ws = .cTx ∧ s.worker.txIdx.toNat < s.worker.txLen.toNat ∧ s.line.txOffer = some s.nextTxByte))

/-- The worker: parked until a configuration is committed; in a transaction the transmit buffer holds a whole frame that
the context describes, a relay frame still being the head of its queue; at most the current device is not `Idle`
(R34, R39, R41, R46, R223, R234, R235). -/
abbrev WorkerOk (s : State) : Prop :=
  (s.cfgValid = true ∨ s.worker.ws = .wIdle) ∧
  s.worker.scanI.toNat ≤ s.params.nDev ∧ (s.worker.ws = .wDue → s.worker.scanI.toNat < s.params.nDev) ∧
  (s.worker.ws.inTransaction = true →
    verify s.txBytes = true ∧ 6 ≤ s.worker.txLen.toNat ∧ s.worker.ctx.reqAddr = s.mem.read txBase ∧
    s.worker.ctx.reqFc = s.mem.read (txBase + 1) ∧
    (s.worker.ctx.src = .relay → s.relayQ.head? = some s.txBytes) ∧
    (s.worker.ctx.src = .poll → s.worker.ctx.dev.toNat < s.params.nDev ∧ s.worker.txLen = 8)) ∧
  (s.worker.ctx.dev = 0xFF ∨ (s.worker.ws.inTransaction = true ∧ s.worker.ctx.src = .poll)) ∧
  (∀ i < s.params.nDev, s.devState i = .due → s.worker.ws = .wDue ∧ s.worker.scanI.toNat = i) ∧
  (∀ i < s.params.nDev, s.devState i = .polling →
    s.worker.ws.inTransaction = true ∧ s.worker.ctx.src = .poll ∧ s.worker.ctx.dev.toNat = i)

/-- The invariant of the block: what holds after reset and after every step. -/
structure StateInv (s : State) : Prop where
  legal : s.params.Legal
  registers : RegistersOk s
  memory : MemoryOk s
  tables : TablesOk s
  queues : QueuesOk s
  line : LineOk s
  worker : WorkerOk s

/-- `t` is reached from `s` by steps that all answer a next state, each of them taken in a state that meets `P`. -/
inductive ReachesWhile (P : State → Prop) : State → State → Prop where
  | refl (s : State) : ReachesWhile P s s
  | step {s t u : State} : ReachesWhile P s t → P t → Machine.step t = .next u → ReachesWhile P s u

end Sys2Proof.Machine
end

