-- ==== Sys2Proof/Certificates/Slice0/Obligations.lean ====
section
/-! DEFINITION. The statements for the provers. Each docstring names the rule of spec/ it formalises; a clause that rests on
a choice of the model names its log entry. -/

open Sys2Proof Sys2Proof.Machine

/-! Encoding (30_encoding.md section 1). -/

/-- R101, R102: decoding the encoding of a well-formed instruction gives it back, for every instruction and every `LEN`. -/
def Obligations.DecodeOfEncodeIsTheInstruction : Prop :=
  ∀ i : Instr, i.wellFormed = true → decode (encode i) = .command i

/-- R101, R102: a word has at most one meaning, and only the encoding of a well-formed instruction has one. -/
def Obligations.EncodeOfDecodeIsTheWord : Prop :=
  ∀ (w : Word) (i : Instr), decode w = .command i → i.wellFormed = true ∧ encode i = w

/-- R100: at most one row matches a word; if one does, its command executes with the operand of the word; if none does,
`ILLEGAL_CMD` is recorded with `ERR.OP = w[7:0]` and nothing else changes. -/
def Obligations.CommandWordRunsItsRowOrIsIllegal : Prop :=
  ∀ (w : Word) (s : State) (rest : List Input), s.Pending (.hostWrite cmdAddr 4 w) rest →
    (∀ o o' : Opcode, w &&& o.mask = o.value → w &&& o'.mask = o'.value → o = o') ∧
    (∀ o : Opcode, w &&& o.mask = o.value →
      step s = exec (o.instr (w.extractLsb' 16 8).toNat) (dropInput rest s)) ∧
    ((∀ o : Opcode, w &&& o.mask ≠ o.value) →
      (s.errCode = 0 → step s =
        .next { dropInput rest s with host.err := (w.extractLsb' 0 8).setWidth 32 <<< 8 ||| 1 }) ∧
      (s.errCode ≠ 0 → step s = .next (dropInput rest s)))

/-- R101, R103: the rejected words are exactly those with a reserved `OP` or a bit set outside the fields of their format. -/
def Obligations.RejectedWordsAreTheReservedOnes : Prop :=
  ∀ w : Word, (∃ why, decode w = .rejected why) ↔
    (0x0A ≤ (w.extractLsb' 0 8).toNat ∨ w.extractLsb' 24 8 ≠ 0 ∨ w.extractLsb' 9 7 ≠ 0 ∨
      (w.getLsbD 8 = true ∧ w.extractLsb' 0 8 ≠ 4) ∨
      (w.extractLsb' 16 8 ≠ 0 ∧ (w.extractLsb' 0 8).toNat ∈ [0, 3, 6, 7, 8, 9]))

/-- R102, and the words of 95_test_vectors.md: command words written out from the opcode map decode to their commands. -/
def Obligations.SpecWordsDecode : Prop :=
  decode 0x00000000 = .command .nop ∧ decode 0x00090001 = .command (.crcCalc 9) ∧
  decode 0x00080002 = .command (.crcVerify 8) ∧ decode 0x00000003 = .command .buildRead ∧
  decode 0x001A0004 = .command (.buildWriteS 26) ∧ decode 0x00040104 = .command (.buildWriteM 4) ∧
  decode 0x00090005 = .command (.classify 9) ∧ decode 0x00000006 = .command .relayPush ∧
  decode 0x00000007 = .command .cfgCommit ∧ decode 0x00000008 = .command .evtPop ∧
  decode 0x00000009 = .command .clrErr ∧ decode 0x00010000 = .rejected .strayBits ∧
  decode 0x0000000A = .rejected .reservedOpcode

/-- R29, R72: when the host's write of a word to `CMD` is the next port action and the word decodes to an instruction, the
step is that instruction's meaning in the state with the write taken off the list. -/
def Obligations.StepRunsTheDecodedCommand : Prop :=
  ∀ (s : State) (w : Word) (rest : List Input) (i : Instr), s.Pending (.hostWrite cmdAddr 4 w) rest →
    decode w = .command i → step s = exec i (dropInput rest s)

/-! Control commands (45_control.md) and the error register (60_exceptions.md section 1). -/

/-- R290: the all-zero word is the only `NOP`; it changes no state. Any other word with `OP = 0` is not `NOP` and raises
`ILLEGAL_CMD`. -/
def Obligations.NopChangesNothing : Prop :=
  (∀ w : Word, decode w = .command .nop ↔ w = 0x00000000) ∧ (∀ s : State, exec .nop s = .next s) ∧
  (∀ (w : Word) (s : State) (rest : List Input), s.Pending (.hostWrite cmdAddr 4 w) rest →
    w.extractLsb' 0 8 = 0 → w ≠ 0 → step s = .next (raise .illegalCmd 0x00 (dropInput rest s)))

/-- R300, R301: the codes are 1 to 5; recording an error sets `CODE` and `OP` (all other bits 0) while `ERR.CODE` is 0 and
does nothing otherwise; and over all steps, once an error is recorded `ERR` keeps it until `CLR_ERR` or reset. -/
def Obligations.FirstErrorWins : Prop :=
  ([.illegalCmd, .oversize, .badLen, .cfgReject, .badAccess].map ErrCode.number = [1, 2, 3, 4, 5]) ∧
  (∀ (c : ErrCode) (op : Byte) (s : State),
    (s.errCode = 0 → raise c op s = { s with host.err := (raise c op s).host.err } ∧
      (raise c op s).host.err.toNat = 256 * op.toNat + c.number.toNat ∧ (raise c op s).errCode ≠ 0) ∧
    (s.errCode ≠ 0 → raise c op s = s)) ∧
  (∀ s t : State, step s = .next t → s.errCode ≠ 0 →
    t.host.err = s.host.err ∨ (∃ rest, s.Pending (.hostWrite cmdAddr 4 0x00000009) rest) ∨
      (∃ rest, s.Pending .reset rest))

/-- R296: `CLR_ERR` clears `ERR` and `EVT_OVF` and nothing else. -/
def Obligations.ClrErrClearsErrAndOverflow : Prop :=
  (∀ w : Word, decode w = .command .clrErr ↔ w = 0x00000009) ∧
  (∀ s : State, exec .clrErr s = .next { s with host.err := 0, evtOvf := false })

/-- R294: `EVT_POP` moves the oldest event into the head registers, field by field (R48, with the kinds of R121 and the
class codes of R120), or zeroes them when there is none; nothing else changes, and it never fails. -/
def Obligations.EvtPopMovesTheOldestEvent : Prop :=
  (∀ w : Word, decode w = .command .evtPop ↔ w = 0x00000008) ∧
  (∀ s : State, s.evtQ = [] →
    exec .evtPop s = .next { s with host.evtHead0 := 0, host.evtHead1 := 0, host.evtHead2 := 0 }) ∧
  (∀ (s : State) (e : Event) (q : List Event), s.evtQ = e :: q →
    ∃ h0 h1 : Word,
      exec .evtPop s = .next { s with
        evtQ := q, host.evtHead0 := h0, host.evtHead1 := h1, host.evtHead2 := e.val } ∧
      h0.getLsbD 0 = true ∧ (h0.getLsbD 1 = true ↔ e.kind = .diagnostic) ∧ h0.extractLsb' 2 6 = 0 ∧
      h0.extractLsb' 8 8 = e.dev ∧ h0.extractLsb' 16 8 = e.subch ∧ h0.extractLsb' 24 8 = e.fc ∧
      classTable[h1.toNat]? = some e.cls)

/-! Frame codec (40_codec.md). -/

/-- R146: `CRC_CALC` stores the CRC of `CODEC_IN[0..LEN)` in `CRC_RESULT` (the upper half reads 0), `0xFFFF` for
`LEN = 0`, 0 over a whole valid frame; above `CIN_BYTES` it only raises `OVERSIZE`. -/
def Obligations.CrcCalcStoresTheCrc : Prop :=
  (∀ w : Word, w &&& 0xFF00FFFF = 0x00000001 → decode w = .command (.crcCalc (w.extractLsb' 16 8).toNat)) ∧
  (∀ (s : State) (len : Nat), len ≤ s.params.cinBytes → ∃ t, exec (.crcCalc len) s = .next t ∧
    t = { s with host.crcResult := crc16 (s.mem.readBytes codecInBase len) } ∧
    (memRead t 0x030).toNat = (crc16 (s.mem.readBytes codecInBase len)).toNat ∧
    (len = 0 → memRead t 0x030 = 0x0000FFFF) ∧
    (2 ≤ len → verify (s.mem.readBytes codecInBase len) = true → memRead t 0x030 = 0x00000000)) ∧
  (∀ (s : State) (len : Nat), s.params.cinBytes < len → exec (.crcCalc len) s = .next (raise .oversize 0x01 s))

/-- R148: `CRC_VERIFY` sets `CRC_OK` to whether the last two bytes, low then high, are the CRC of the bytes before them;
`OVERSIZE` is checked before `BAD_LEN`, and neither changes anything but `ERR`. -/
def Obligations.CrcVerifySetsCrcOk : Prop :=
  (∀ w : Word, w &&& 0xFF00FFFF = 0x00000002 → decode w = .command (.crcVerify (w.extractLsb' 16 8).toNat)) ∧
  (∀ (s : State) (len : Nat), 2 ≤ len → len ≤ s.params.cinBytes → ∃ t, exec (.crcVerify len) s = .next t ∧
    t = { s with host.crcOk := t.host.crcOk } ∧
    (t.host.crcOk = true ↔ (crc16 (s.mem.readBytes codecInBase (len - 2))).toNat =
      256 * (s.mem.read (codecInBase + (len - 1))).toNat + (s.mem.read (codecInBase + (len - 2))).toNat)) ∧
  (∀ (s : State) (len : Nat), s.params.cinBytes < len → exec (.crcVerify len) s = .next (raise .oversize 0x02 s)) ∧
  (∀ (s : State) (len : Nat), len ≤ s.params.cinBytes → len < 2 →
    exec (.crcVerify len) s = .next (raise .badLen 0x02 s))

/-- R150, R107, R151: `BUILD_READ` puts the 8-byte request frame in `CODEC_OUT`, zeros after it, 8 in `OUT_LEN`, and
changes nothing else. -/
def Obligations.BuildReadFramesTheRequest : Prop :=
  (∀ w : Word, decode w = .command .buildRead ↔ w = 0x00000003) ∧
  (∀ s : State, s.params.Legal → s.mem.wf = true → ∃ t, exec .buildRead s = .next t ∧
    t = { s with mem := t.mem, host.outLen := 8 } ∧
    HoldsBytes t.mem codecOutBase (frame [s.host.arg0.extractLsb' 0 8, s.host.arg0.extractLsb' 8 8,
      s.host.arg1.extractLsb' 8 8, s.host.arg1.extractLsb' 0 8, s.host.arg1.extractLsb' 24 8,
      s.host.arg1.extractLsb' 16 8]) ∧
    ZeroFrom t.mem codecOutBase 8 s.params.maxFrame ∧ SameOutside s.mem t.mem codecOutBase s.params.maxFrame)

/-- R153, R108, R151: `BUILD_WRITE_S` puts the single write frame in `CODEC_OUT`, or only raises `OVERSIZE`. -/
def Obligations.BuildWriteSFramesThePayload : Prop :=
  (∀ w : Word, w &&& 0xFF00FFFF = 0x00000004 → decode w = .command (.buildWriteS (w.extractLsb' 16 8).toNat)) ∧
  (∀ (s : State) (len : Nat), s.params.Legal → s.mem.wf = true → 6 + len ≤ s.params.maxFrame →
    ∃ t, exec (.buildWriteS len) s = .next t ∧
    t = { s with mem := t.mem, host.outLen := t.host.outLen } ∧ t.host.outLen.toNat = 6 + len ∧
    HoldsBytes t.mem codecOutBase (frame ([s.host.arg0.extractLsb' 0 8, s.host.arg0.extractLsb' 8 8,
      s.host.arg1.extractLsb' 8 8, s.host.arg1.extractLsb' 0 8] ++ s.mem.readBytes codecInBase len)) ∧
    ZeroFrom t.mem codecOutBase (6 + len) s.params.maxFrame ∧
    SameOutside s.mem t.mem codecOutBase s.params.maxFrame) ∧
  (∀ (s : State) (len : Nat), s.params.maxFrame < 6 + len →
    exec (.buildWriteS len) s = .next (raise .oversize 0x04 s))

/-- R156, R109, R151: `BUILD_WRITE_M` puts the multiple write frame, with count and byte count, in `CODEC_OUT`, or only
raises `OVERSIZE`. -/
def Obligations.BuildWriteMFramesThePayload : Prop :=
  (∀ w : Word, w &&& 0xFF00FFFF = 0x00000104 → decode w = .command (.buildWriteM (w.extractLsb' 16 8).toNat)) ∧
  (∀ (s : State) (len : Nat), s.params.Legal → s.mem.wf = true → 9 + len ≤ s.params.maxFrame →
    ∃ t, exec (.buildWriteM len) s = .next t ∧
    t = { s with mem := t.mem, host.outLen := t.host.outLen } ∧ t.host.outLen.toNat = 9 + len ∧
    HoldsBytes t.mem codecOutBase (frame ([s.host.arg0.extractLsb' 0 8, s.host.arg0.extractLsb' 8 8,
      s.host.arg1.extractLsb' 8 8, s.host.arg1.extractLsb' 0 8, s.host.arg1.extractLsb' 24 8,
      s.host.arg1.extractLsb' 16 8, BitVec.ofNat 8 len] ++ s.mem.readBytes codecInBase len)) ∧
    ZeroFrom t.mem codecOutBase (9 + len) s.params.maxFrame ∧
    SameOutside s.mem t.mem codecOutBase s.params.maxFrame) ∧
  (∀ (s : State) (len : Nat), s.params.maxFrame < 9 + len →
    exec (.buildWriteM len) s = .next (raise .oversize 0x04 s))

/-- R141 item 1: every framed byte sequence verifies. -/
def Obligations.EveryFrameVerifies : Prop :=
  ∀ s : List Byte, verify (frame s) = true

/-- R141 item 2: flipping any single bit of a frame that verifies, CRC bytes included, makes it not verify. -/
def Obligations.SingleBitFlipBreaksVerify : Prop :=
  ∀ (f : List Byte) (k bit : Nat), 2 ≤ f.length → verify f = true → k < f.length → bit < 8 →
    verify (f.set k (f.getD k 0 ^^^ (1#8 <<< bit))) = false

/-! Response classifier (41_classifier.md). -/

/-- R173, R174, R175, R176: the four validation steps, in order, with their raw values. -/
def Obligations.ClassifyValidatesInOrder : Prop :=
  ∀ (f : List Byte) (a fc : Byte) (flags : Word),
    let r := classify f a fc flags
    let c := (crc16 (f.take (f.length - 2))).toNat
    let rx := 256 * (f.getD (f.length - 1) 0).toNat + (f.getD (f.length - 2) 0).toNat
    (f.length = 0 → r = (.noResponse, 0)) ∧
    (1 ≤ f.length → f.length ≤ 4 → r.1 = .invalidReceiveLength ∧ r.2.toNat = f.length) ∧
    (5 ≤ f.length → c ≠ rx → r.1 = .crcError ∧ r.2.toNat = 65536 * c + rx) ∧
    (5 ≤ f.length → c = rx → (f.getD 0 0 ≠ a ∨ f.getD 1 0 ≠ fc) →
      r.1 = .invalidResponse ∧ r.2.toNat = 256 * (f.getD 0 0).toNat + (f.getD 1 0).toNat)

/-- R178: function codes 1 and 2 decode one status byte at offset 3; any other length is reported with the window at 3. -/
def Obligations.ClassifyDecodesBitReads : Prop :=
  ∀ (f : List Byte) (a fc : Byte) (flags : Word), PassesValidation f a fc → (fc = 1 ∨ fc = 2) →
    let r := classify f a fc flags
    (f.getD 2 0 = 1 → f.length = 6 → r.1 = .value ∧ r.2.toNat = (f.getD 3 0).toNat) ∧
    ((f.getD 2 0 ≠ 1 ∨ f.length ≠ 6) → r.1 = .invalidReceiveLength ∧
      r.2.toNat = 16777216 * (f.getD 3 0).toNat + 65536 * (f.getD 4 0).toNat + 256 * (f.getD 5 0).toNat +
        (f.getD 6 0).toNat)

/-- R179, R180, R181, R182, R183: function codes 3 and 4 under `COMBINE` (bit 13), `HWF` (bit 14) and `LE` (bit 15). -/
def Obligations.ClassifyDecodesRegisterReads : Prop :=
  ∀ (f : List Byte) (a fc : Byte) (flags : Word), PassesValidation f a fc → (fc = 3 ∨ fc = 4) →
    let r := classify f a fc flags
    let g := fun k => (f.getD k 0).toNat
    let e := if flags.getLsbD 13 then 4 else 2
    let w := fun k => if flags.getLsbD 15 then 256 * g (k + 1) + g k else 256 * g k + g (k + 1)
    ((g 2 ≠ e ∨ f.length ≠ 5 + e) → r.1 = .invalidReceiveLength ∧
      r.2.toNat = 16777216 * g 3 + 65536 * g 4 + 256 * g 5 + g 6) ∧
    (g 2 = e → f.length = 5 + e → r.1 = .value ∧
      (flags.getLsbD 13 = false → r.2.toNat = w 3) ∧
      (flags.getLsbD 13 = true → flags.getLsbD 14 = true → r.2.toNat = 65536 * w 3 + w 5) ∧
      (flags.getLsbD 13 = true → flags.getLsbD 14 = false → r.2.toNat = 65536 * w 5 + w 3))

/-- R185, R186, R187: function code 7 decodes its byte at offset 2; the write codes are actor echoes; any other code is
unexpected. -/
def Obligations.ClassifyDecodesOtherCodes : Prop :=
  ∀ (f : List Byte) (a fc : Byte) (flags : Word), PassesValidation f a fc →
    let r := classify f a fc flags
    let w2 := 16777216 * (f.getD 2 0).toNat + 65536 * (f.getD 3 0).toNat + 256 * (f.getD 4 0).toNat + (f.getD 5 0).toNat
    (fc = 7 → r.1 = .value ∧ r.2.toNat = (f.getD 2 0).toNat) ∧
    (fc.toNat ∈ [5, 6, 15, 16] → r.1 = .actorResponse ∧ r.2.toNat = w2) ∧
    (fc.toNat ∉ [1, 2, 3, 4, 5, 6, 7, 15, 16] → r.1 = .unexpectedFunctionCode ∧ r.2.toNat = w2)

/-- R170: of the flags word only bits 13, 14 and 15 are read. -/
def Obligations.ClassifyReadsOnlyThreeFlags : Prop :=
  ∀ (f : List Byte) (a fc : Byte) (flags flags' : Word), flags &&& 0x0000E000 = flags' &&& 0x0000E000 →
    classify f a fc flags = classify f a fc flags'

/-- R189 items 1 and 3: a correct frame whose function code is the request's with bit 7 set is an invalid response; a
request frame sent back passes the validation (step 2 included); and a frame that passes it is rejected by no later look at
its CRC, address or function code. -/
def Obligations.ExceptionResponsesAndEchoes : Prop :=
  (∀ (f : List Byte) (a fc : Byte) (flags : Word), 5 ≤ f.length → verify f = true → f.getD 0 0 = a →
    fc.toNat < 128 → f.getD 1 0 = fc ||| 0x80 →
    (classify f a fc flags).1 = .invalidResponse ∧ (classify f a fc flags).2.toNat = 256 * a.toNat + fc.toNat + 128) ∧
  (∀ (a fc : Byte) (r c : Half), PassesValidation (buildRequestFrame a fc r c) a fc) ∧
  (∀ (f : List Byte) (a fc : Byte) (flags : Word), PassesValidation f a fc →
    (classify f a fc flags).1 ∉ [.noResponse, .crcError, .invalidResponse])

/-- R190: `CLASSIFY` writes the result registers, field by field (R31, with the class codes 0 to 6 of R120), and nothing
else; above `CIN_BYTES` it only raises `OVERSIZE`. -/
def Obligations.ClassifyCommandWritesTheResult : Prop :=
  (∀ w : Word, w &&& 0xFF00FFFF = 0x00000005 → decode w = .command (.classify (w.extractLsb' 16 8).toNat)) ∧
  (∀ (s : State) (len : Nat), s.params.Legal → len ≤ s.params.cinBytes →
    let r := classify (s.mem.readBytes codecInBase len) (s.host.arg0.extractLsb' 0 8) (s.host.arg0.extractLsb' 8 8)
      s.host.arg2
    ∃ x : Word, exec (.classify len) s = .next { s with host.clsResult := x, host.clsValue := r.2 } ∧
      classTable[(x.extractLsb' 0 4).toNat]? = some r.1 ∧ x.extractLsb' 4 4 = 0 ∧ x.extractLsb' 8 8 = s.host.arg0.extractLsb' 8 8 ∧
      (x.extractLsb' 16 8).toNat = len ∧ x.extractLsb' 24 7 = 0 ∧ x.getLsbD 31 = true) ∧
  (∀ (s : State) (len : Nat), s.params.cinBytes < len → exec (.classify len) s = .next (raise .oversize 0x05 s))

/-! Configuration and scheduler (42_scheduler.md). -/

/-- R211, R213, R214, R215: a commit whose seven checks pass copies the staging configuration, zeroes every deadline, makes
every device `Idle`, computes the timing values, sets `restart` and `CFG_VALID`, clears `CFG_STATUS`, and changes nothing
else: not the queues, not the buffers, not the current frame's context. `n` is the least number of ms that covers 3.5
characters. Outside a commit the staging registers do not reach the worker. -/
def Obligations.AcceptedCommitActivatesTheStaging : Prop :=
  (∀ w : Word, decode w = .command .cfgCommit ↔ w = 0x00000007) ∧
  (∀ s : State, s.staging.devs.length = s.params.nDev → (∀ why, s.passes why) →
    ∃ t, exec .cfgCommit s = .next t ∧
    t = { s with
      cfgValid := true, active := t.active, sched := t.sched, worker.restart := true, host.cfgStatus := 0 } ∧
    t.active.count = s.staging.count.extractLsb' 0 8 ∧ t.active.devs.length = s.params.nDev ∧
    t.sched.deadlines.length = s.params.nDev ∧ t.sched.devStates.length = s.params.nDev ∧
    (∀ i, i < s.params.nDev →
      (t.device i).addr = (s.staged i).af.extractLsb' 0 8 ∧ (t.device i).fc = (s.staged i).af.extractLsb' 8 8 ∧
      (t.device i).reg = (s.staged i).reg.extractLsb' 0 16 ∧ (t.device i).cycle = (s.staged i).cyc ∧
      t.deadline i = 0 ∧ t.devState i = .idle) ∧
    (s.staging.timing.getLsbD 31 = true →
      t.active.ifs.toNat = min (max (s.staging.timing.extractLsb' 0 16).toNat 5) 10000 ∧
      t.active.timeout.toNat = min (max (s.staging.timing.extractLsb' 16 15).toNat 5) 10000) ∧
    (s.staging.timing.getLsbD 31 = false → t.active.timeout.toNat = 1000 ∧
      ∃ n : Nat, t.active.ifs.toNat = min (max n 5) 10000 ∧
        3500 * (1 + s.stWordLen + s.stStop + (if s.stParity = 0 then 0 else 1)) ≤ n * s.staging.baud.toNat ∧
        ∀ m, m < n → m * s.staging.baud.toNat < 3500 * (1 + s.stWordLen + s.stStop + (if s.stParity = 0 then 0 else 1)))) ∧
  (∀ (s : State) (d : Staging),
    workerStep { s with staging := d } = (workerStep s).map (fun t => { t with staging := d }))

/-- R210: if check `why` fails and the checks before it pass, the commit writes its number and, for a function code, the
least failing index to `CFG_STATUS`, raises `CFG_REJECT`, and changes nothing else; if all pass it is accepted. -/
def Obligations.CommitAcceptsOrReportsTheFirstFailure : Prop :=
  (∀ w : Word, decode w = .command .cfgCommit ↔ w = 0x00000007) ∧
  (∀ (s : State) (why : CfgReason), s.staging.devs.length = s.params.nDev → s.params.Legal → ¬ s.passes why →
    (∀ earlier : CfgReason, earlier.number.toNat < why.number.toNat → s.passes earlier) →
    ∃ idx : Nat, idx < 256 ∧ (why ≠ .functionCode → idx = 0) ∧
      (why = .functionCode → idx < s.stCount.toNat ∧ (s.staged idx).fc.toNat ∉ [1, 2, 3, 4, 7] ∧
        ∀ j, j < idx → (s.staged j).fc.toNat ∈ [1, 2, 3, 4, 7]) ∧
      exec .cfgCommit s = .next (raise .cfgReject 0x07
        { s with host.cfgStatus := BitVec.ofNat 32 (256 * idx + why.number.toNat) })) ∧
  (∀ s : State, s.staging.devs.length = s.params.nDev → (∀ why, s.passes why) →
    ∃ t, exec .cfgCommit s = .next t ∧ t.cfgValid = true ∧ t.host = { s.host with cfgStatus := 0 })

/-- R292 item 2, R245, R219: `W_IDLE` is left exactly when `RUN` and `CFG_VALID` are 1; the frame-boundary checks come
first in their states, `RUN` before `restart`, and the other states read neither; a pass samples the time once and starts
at device 0. -/
def Obligations.IdleBoundaryAndPassSteps : Prop :=
  ∀ s : State,
    (s.worker.ws = .wIdle → s.ctrl.getLsbD 0 = true → s.cfgValid = true →
      workerStep s = some { s with worker.ws := .wPass }) ∧
    (s.worker.ws = .wIdle → (s.ctrl.getLsbD 0 = false ∨ s.cfgValid = false) → workerStep s = none) ∧
    (s.worker.ws ∈ [.wPass, .wScan, .wDrain, .wRwait] → s.ctrl.getLsbD 0 = false →
      workerStep s = some { s with worker.ws := .wIdle }) ∧
    (s.worker.ws ∈ [.wScan, .wDrain, .wRwait] → s.ctrl.getLsbD 0 = true → s.worker.restart = true →
      workerStep s = some { s with worker.ws := .wPass }) ∧
    (s.worker.ws = .wPass → s.ctrl.getLsbD 0 = true →
      workerStep s = some { s with
        worker.restart := false, worker.passNow := s.now, worker.scanI := 0, worker.ws := .wScan }) ∧
    (s.worker.ws ∈ [.wDue, .cStart, .cTx, .cRxwait, .cTurn, .cEnd] → ∀ (c : Word) (r : Bool),
      workerStep { s with ctrl := c, worker.restart := r } =
        (workerStep s).map (fun t => { t with ctrl := c, worker.restart := r }))

/-- R220, R221, R114: the scan step, past the boundary checks. A due device's next deadline is `pass_now + period`
modulo 2^64; no other entry changes. -/
def Obligations.ScanStepArmsDueDevices : Prop :=
  ∀ s : State, s.worker.ws = .wScan → s.ctrl.getLsbD 0 = true → s.worker.restart = false → TablesOk s →
    let i := s.worker.scanI.toNat
    let mag := ((s.device i).cycle.extractLsb' 0 12).toNat
    let period := mag * (if (s.device i).cycle.getLsbD 12 then 1000 else 100)
    (s.active.count.toNat ≤ i → workerStep s = some { s with worker.ws := .wDrain }) ∧
    (i < s.active.count.toNat → (mag = 0 ∨ s.worker.passNow.toNat < (s.deadline i).toNat) →
      workerStep s = some { s with worker.scanI := s.worker.scanI + 1 }) ∧
    (i < s.active.count.toNat → mag ≠ 0 → (s.deadline i).toNat ≤ s.worker.passNow.toNat →
      period ≤ 4095000 ∧ ∃ t, workerStep s = some t ∧
      t = { s with worker.ws := .wDue, sched := t.sched } ∧
      t.devState i = .due ∧ (t.deadline i).toNat = (s.worker.passNow.toNat + period) % 2 ^ 64 ∧
      (∀ j, j ≠ i → t.devState j = s.devState j ∧ t.deadline j = s.deadline j))

/-- R224 item 1: no worker step makes a device with `MAG = 0` Due. -/
def Obligations.MagZeroNeverBecomesDue : Prop :=
  ∀ (s t : State) (i : Nat), workerStep s = some t → ((s.device i).cycle.extractLsb' 0 12).toNat = 0 →
    t.devState i = .due → s.devState i = .due

/-- R222, R115: the Due step loads the request frame of the device and its context; the count is 2 for a combined read of
function code 3 or 4 and 1 otherwise. -/
def Obligations.DueStepLoadsTheRequest : Prop :=
  ∀ s : State, s.worker.ws = .wDue → s.params.Legal → s.mem.wf = true → TablesOk s →
    s.worker.scanI.toNat < s.params.nDev →
    let i := s.worker.scanI.toNat
    let d := s.device i
    let count : Byte := if (d.fc = 3 ∨ d.fc = 4) ∧ d.cycle.getLsbD 13 = true then 2 else 1
    ∃ t, workerStep s = some t ∧
    t = { s with
      mem := t.mem, sched.devStates := t.sched.devStates, worker.ws := .cStart, worker.txLen := 8,
      worker.ctx :=
        { dev := s.worker.scanI, attempt := .first, src := .poll, reqAddr := d.addr, reqFc := d.fc,
          flags := d.cycle } } ∧
    t.devState i = .polling ∧ (∀ j, j ≠ i → t.devState j = s.devState j) ∧
    HoldsBytes t.mem txBase (frame [d.addr, d.fc, hi8 d.reg, lo8 d.reg, 0, count]) ∧
    ZeroFrom t.mem txBase 8 s.params.maxFrame ∧ SameOutside s.mem t.mem txBase s.params.maxFrame

/-- R38, R211, R221, R343: over all steps, a deadline changes only in the scan step that makes its device Due, by an
accepted `CFG_COMMIT`, which zeroes them all, or by reset. -/
def Obligations.DeadlinesChangeOnlyWhenDueOrCommitted : Prop :=
  ∀ s t : State, step s = .next t →
    t.sched.deadlines = s.sched.deadlines ∨
    (s.worker.ws = .wScan ∧ t.worker.ws = .wDue ∧
      ∀ j, j ≠ s.worker.scanI.toNat → t.deadline j = s.deadline j) ∨
    ((∃ rest, s.Pending (.hostWrite cmdAddr 4 0x00000007) rest) ∧ t.cfgValid = true ∧ ∀ j, t.deadline j = 0) ∨
    (∃ rest, s.Pending .reset rest)

/-! Relay queue (43_relay.md). -/

/-- R233, R231: `RELAY_PUSH` appends the whole frame in `CODEC_OUT` if it fits with its prefix, else only sets `ENQ_FAIL`;
with nothing built it only raises `BAD_LEN`. -/
def Obligations.RelayPushEnqueuesAllOrNothing : Prop :=
  (∀ w : Word, decode w = .command .relayPush ↔ w = 0x00000006) ∧
  (∀ s : State, s.host.outLen ≠ 0 → relayUsed s.relayQ + 1 + s.host.outLen.toNat ≤ s.params.relayQBytes →
    ∃ t f, exec .relayPush s = .next t ∧ t = { s with relayQ := s.relayQ ++ [f], host.enqFail := false } ∧
      f.length = s.host.outLen.toNat ∧ (∀ k, k < f.length → f.getD k 0 = s.mem.read (codecOutBase + k)) ∧
      relayUsed t.relayQ = relayUsed s.relayQ + 1 + f.length ∧ relayUsed t.relayQ ≤ s.params.relayQBytes) ∧
  (∀ s : State, s.host.outLen ≠ 0 → s.params.relayQBytes < relayUsed s.relayQ + 1 + s.host.outLen.toNat →
    exec .relayPush s = .next { s with host.enqFail := true }) ∧
  (∀ s : State, s.host.outLen = 0 → exec .relayPush s = .next (raise .badLen 0x06 s))

/-- R91, R234, R235, R266: over all steps, the relay queue changes only by a `RELAY_PUSH` appending the built frame at its
tail, by the end of a relay frame's transaction removing its head, or by reset. R92, R268: the event FIFO changes only by
the classification step appending the event of its attempt while there is room, by an `EVT_POP` removing its head, or by
reset. R25, R51, R345: `EVT_OVF` is set only by that step finding the FIFO full, which then keeps its events, and stays set
until `CLR_ERR` or reset. -/
def Obligations.QueuesAreFirstInFirstOut : Prop :=
  ∀ s t : State, step s = .next t →
    (t.relayQ = s.relayQ ∨
      ((∃ rest, s.Pending (.hostWrite cmdAddr 4 0x00000006) rest) ∧ t.relayQ = s.relayQ ++ [s.codecOut]) ∨
      (s.worker.ws = .cEnd ∧ s.worker.ctx.src = .relay ∧ t.worker.ws = .wDrain ∧ t.relayQ = s.relayQ.tail) ∨
      ((∃ rest, s.Pending .reset rest) ∧ t.relayQ = [])) ∧
    (t.evtQ = s.evtQ ∨
      (s.worker.ws = .cRxwait ∧ t.worker.ws = .cTurn ∧ s.evtQ.length < s.params.evtDepth ∧
        ∃ e : Event, t.evtQ = s.evtQ ++ [e] ∧ e.dev = s.worker.ctx.dev ∧ e.fc = s.worker.ctx.reqFc ∧
          e.cls = t.worker.cls ∧ e.val = t.worker.val) ∨
      ((∃ rest, s.Pending (.hostWrite cmdAddr 4 0x00000008) rest) ∧ t.evtQ = s.evtQ.tail) ∨
      ((∃ rest, s.Pending .reset rest) ∧ t.evtQ = [])) ∧
    (s.evtOvf = true → t.evtOvf = true ∨ (∃ rest, s.Pending (.hostWrite cmdAddr 4 0x00000009) rest) ∨
      (∃ rest, s.Pending .reset rest)) ∧
    (s.evtOvf = false → t.evtOvf = true → s.worker.ws = .cRxwait ∧ t.worker.ws = .cTurn ∧
      s.params.evtDepth ≤ s.evtQ.length ∧ t.evtQ = s.evtQ)

/-! Cycle controller (44_cycle_controller.md). -/

/-- R247, R248: past the boundary checks, `W_DRAIN` copies the head frame without removing it or starts the short wait, and
`W_RWAIT` is enabled by a queued frame or the wait's end. The time does not wrap (R225). -/
def Obligations.DrainAndShortWait : Prop :=
  ∀ s : State, s.ctrl.getLsbD 0 = true → s.worker.restart = false →
    (∀ f q, s.worker.ws = .wDrain → s.relayQ = f :: q → s.params.Legal → s.mem.wf = true → 2 ≤ f.length →
      f.length ≤ s.params.maxFrame → ∃ t, workerStep s = some t ∧
      t = { s with
        mem := t.mem, worker.ws := .cStart, worker.txLen := t.worker.txLen,
        worker.ctx :=
          { dev := 0xFF, attempt := .first, src := .relay, reqAddr := f.getD 0 0, reqFc := f.getD 1 0, flags := 0 } } ∧
      t.worker.txLen.toNat = f.length ∧ HoldsBytes t.mem txBase f ∧
      ZeroFrom t.mem txBase f.length s.params.maxFrame ∧ SameOutside s.mem t.mem txBase s.params.maxFrame) ∧
    (s.worker.ws = .wDrain → s.relayQ = [] → s.now.toNat + s.params.relayWaitMs < 2 ^ 64 →
      ∃ t, workerStep s = some t ∧ t = { s with worker.tEnd := t.worker.tEnd, worker.ws := .wRwait } ∧
      t.worker.tEnd.toNat = s.now.toNat + s.params.relayWaitMs) ∧
    (s.worker.ws = .wRwait → s.relayQ ≠ [] → workerStep s = some { s with worker.ws := .wDrain }) ∧
    (s.worker.ws = .wRwait → s.relayQ = [] → s.worker.tEnd.toNat ≤ s.now.toNat →
      workerStep s = some { s with worker.ws := .wPass }) ∧
    (s.worker.ws = .wRwait → s.relayQ = [] → s.now.toNat < s.worker.tEnd.toNat → workerStep s = none)

/-- R255, R256, R257: cycle steps 1 to 3. The start clears the receive buffer and turns the line to transmit; each offer
puts the next byte of the frame on the wire and waits for its answer; a failed answer is counted and still advances; after
the last answer the line turns to receive. -/
def Obligations.StartTransmitAndSwitch : Prop :=
  ∀ s : State,
    (s.worker.ws = .cStart → s.mem.wf = true → ∃ t, workerStep s = some t ∧
      t = { s with
        mem := t.mem, line.rxLen := 0, line.dir := true, worker.txIdx := 0, worker.ws := .cTx } ∧
      ZeroFrom t.mem rxBase 0 s.params.rxCap ∧ SameOutside s.mem t.mem rxBase s.params.rxCap) ∧
    (s.worker.ws = .cTx → s.line.txOffer = none → s.worker.txIdx.toNat < s.worker.txLen.toNat →
      workerStep s = some { s with
        line.txOffer := some (s.mem.read (txBase + s.worker.txIdx.toNat)),
        ports.wire := s.ports.wire ++ [s.mem.read (txBase + s.worker.txIdx.toNat)] }) ∧
    (s.worker.ws = .cTx → s.line.txOffer ≠ none → workerStep s = none) ∧
    (s.worker.ws = .cTx → s.line.txOffer = none → s.worker.txIdx = s.worker.txLen →
      workerStep s = some { s with
        line.dir := false, worker.t0 := s.now, worker.nextSample := s.now, worker.ws := .cRxwait }) ∧
    (∀ ok rest, s.Pending (.answer ok) rest → s.line.txOffer ≠ none →
      ∃ t, step s = .next t ∧
      t = { dropInput rest s with
        line.txFailCnt := t.line.txFailCnt, line.txOffer := none, worker.txIdx := s.worker.txIdx + 1 } ∧
      t.line.txFailCnt.toNat = (s.line.txFailCnt.toNat + (if ok then 0 else 1)) % 2 ^ 32)

/-- R258, R260, R268: cycle steps 4 and 5. Before the sample time the worker waits; a sample that finds nothing before the
timeout arms the next one, never past the timeout; otherwise the buffer is classified under the captured context, exactly
one event is published unless a first attempt failed, a full FIFO drops it and sets `EVT_OVF`, and the pause starts. The
times do not wrap (R225). -/
def Obligations.ResponseWaitAndClassification : Prop :=
  ∀ s : State, s.worker.ws = .cRxwait → s.worker.t0.toNat + s.active.timeout.toNat < 2 ^ 64 →
    s.worker.nextSample.toNat + s.params.rxPollMs < 2 ^ 64 → s.now.toNat + s.active.ifs.toNat < 2 ^ 64 →
    let stop := s.worker.t0.toNat + s.active.timeout.toNat
    let r := classify (s.mem.readBytes rxBase s.line.rxLen.toNat) s.worker.ctx.reqAddr s.worker.ctx.reqFc
      s.worker.ctx.flags
    let e : Event :=
      { kind := if r.1 = .value then .value else .diagnostic, dev := s.worker.ctx.dev, subch := 0,
        fc := s.worker.ctx.reqFc, cls := r.1, val := r.2 }
    let success := r.1 = .value ∨ r.1 = .actorResponse
    (s.now.toNat < s.worker.nextSample.toNat → workerStep s = none) ∧
    (s.worker.nextSample.toNat ≤ s.now.toNat → s.line.rxLen = 0 → s.now.toNat < stop →
      ∃ t, workerStep s = some t ∧ t = { s with worker.nextSample := t.worker.nextSample } ∧
        t.worker.nextSample.toNat = min (s.worker.nextSample.toNat + s.params.rxPollMs) stop) ∧
    (s.worker.nextSample.toNat ≤ s.now.toNat → (s.line.rxLen ≠ 0 ∨ stop ≤ s.now.toNat) →
      ∃ t, workerStep s = some t ∧
        t = { s with
          evtQ := t.evtQ, evtOvf := t.evtOvf, worker.cls := r.1, worker.val := r.2, worker.ws := .cTurn,
          worker.tEnd := t.worker.tEnd } ∧
        t.worker.tEnd.toNat = s.now.toNat + s.active.ifs.toNat ∧
        (¬ success → s.worker.ctx.attempt = .first → t.evtQ = s.evtQ ∧ t.evtOvf = s.evtOvf) ∧
        ((success ∨ s.worker.ctx.attempt = .retry) →
          (s.evtQ.length < s.params.evtDepth → t.evtQ = s.evtQ ++ [e] ∧ t.evtOvf = s.evtOvf) ∧
          (s.params.evtDepth ≤ s.evtQ.length → t.evtQ = s.evtQ ∧ t.evtOvf = true)))

/-- R262, R264, R265, R266, R223: cycle step 6 waits for the pause's end and clears the receive buffer; a failed first
attempt runs the cycle once more for the same frame; otherwise the transaction returns: a poll's device becomes `Idle` and
the scan goes on behind it, a relay frame leaves its queue. -/
def Obligations.TurnaroundRetryAndReturn : Prop :=
  ∀ s : State,
    (s.worker.ws = .cTurn → s.now.toNat < s.worker.tEnd.toNat → workerStep s = none) ∧
    (s.worker.ws = .cTurn → s.worker.tEnd.toNat ≤ s.now.toNat → s.mem.wf = true → ∃ t, workerStep s = some t ∧
      t = { s with mem := t.mem, line.rxLen := 0, worker.ws := .cEnd } ∧
      ZeroFrom t.mem rxBase 0 s.params.rxCap ∧ SameOutside s.mem t.mem rxBase s.params.rxCap) ∧
    (s.worker.ws = .cEnd → s.worker.cls ∉ [.value, .actorResponse] → s.worker.ctx.attempt = .first →
      workerStep s = some { s with worker.ctx.attempt := .retry, worker.ws := .cStart }) ∧
    (s.worker.ws = .cEnd → (s.worker.cls ∈ [.value, .actorResponse] ∨ s.worker.ctx.attempt = .retry) →
      s.worker.ctx.src = .relay → workerStep s = some { s with relayQ := s.relayQ.tail, worker.ws := .wDrain }) ∧
    (s.worker.ws = .cEnd → (s.worker.cls ∈ [.value, .actorResponse] ∨ s.worker.ctx.attempt = .retry) →
      s.worker.ctx.src = .poll → s.worker.ctx.dev.toNat < s.sched.devStates.length →
      ∃ t, workerStep s = some t ∧
      t = { s with
        sched.devStates := t.sched.devStates, worker.scanI := s.worker.ctx.dev + 1, worker.ctx.dev := 0xFF,
        worker.ws := .wScan } ∧
      t.devState s.worker.ctx.dev.toNat = .idle ∧
      (∀ j, j ≠ s.worker.ctx.dev.toNat → t.devState j = s.devState j))

/-- R249: the worker moves only along the edges of its loop. -/
def Obligations.WorkerFollowsItsLoop : Prop :=
  ∀ s t : State, workerStep s = some t →
    (s.worker.ws = .wIdle → t.worker.ws = .wPass) ∧
    (s.worker.ws = .wPass → t.worker.ws ∈ [.wScan, .wIdle]) ∧
    (s.worker.ws = .wScan → t.worker.ws ∈ [.wScan, .wDue, .wDrain, .wPass, .wIdle]) ∧
    (s.worker.ws = .wDue → t.worker.ws = .cStart) ∧
    (s.worker.ws = .wDrain → t.worker.ws ∈ [.cStart, .wRwait, .wPass, .wIdle]) ∧
    (s.worker.ws = .wRwait → t.worker.ws ∈ [.wDrain, .wPass, .wIdle]) ∧
    (s.worker.ws = .cStart → t.worker.ws = .cTx) ∧
    (s.worker.ws = .cTx → t.worker.ws ∈ [.cTx, .cRxwait]) ∧
    (s.worker.ws = .cRxwait → t.worker.ws ∈ [.cRxwait, .cTurn]) ∧
    (s.worker.ws = .cTurn → t.worker.ws = .cEnd) ∧
    (s.worker.ws = .cEnd → t.worker.ws ∈ [.cStart, .wScan, .wDrain])

/-- R251, R252: a received byte is appended whatever the direction and the worker's state, or dropped by a full buffer. -/
def Obligations.RxLineAppendsOrDrops : Prop :=
  ∀ (s : State) (b : Byte) (rest : List Input), s.Pending (.rx b) rest →
    (s.line.rxLen.toNat < s.params.rxCap → s.params.Legal → s.mem.wf = true →
      ∃ t, step s = .next t ∧
      t = { dropInput rest s with mem := t.mem, line.rxLen := t.line.rxLen } ∧
      t.line.rxLen.toNat = s.line.rxLen.toNat + 1 ∧ t.mem.read (rxBase + s.line.rxLen.toNat) = b ∧
      (∀ a, a ≠ rxBase + s.line.rxLen.toNat → t.mem.read a = s.mem.read a)) ∧
    (s.params.rxCap ≤ s.line.rxLen.toNat → step s = .next (dropInput rest s))

/-! Agents, time, ports (60_exceptions.md, 20_memory.md). -/

/-- R246, R310: the worker's turn is its enabled step; a due tick waits while the worker has one, and otherwise adds 1 to
`S.now` and changes nothing else. With no port action to come the model lets ticks pass (log entry 3). -/
def Obligations.WorkerAndClockTurns : Prop :=
  ∀ (s : State) (rest : List Input),
    (∀ t, s.Pending .worker rest → workerStep (dropInput rest s) = some t → step s = .next t) ∧
    (∀ t, s.Pending .tick rest → workerStep s = some t → step s = .next t) ∧
    (s.Pending .tick rest → workerStep s = none → step s = .next { dropInput rest s with now := s.now + 1 }) ∧
    (∀ t, s.ports.inputs = [] → workerStep s = some t → step s = .next t) ∧
    (s.ports.inputs = [] → workerStep s = none → step s = .next { s with now := s.now + 1 })

/-- R246, R310: over all steps, time changes only by a tick (or reset), by 1 modulo 2^64 with nothing else changed, and
only while the worker waits in one of the five ways R246 lists. -/
def Obligations.TimePassesOnlyWhileTheWorkerWaits : Prop :=
  ∀ s t : State, LineOk s → step s = .next t → t.now ≠ s.now →
    (∃ rest, s.Pending .reset rest) ∨
    (workerStep s = none ∧ t = { s with now := t.now, ports.inputs := t.ports.inputs } ∧
      t.now.toNat = (s.now.toNat + 1) % 2 ^ 64 ∧
      ((s.worker.ws = .wIdle ∧ ¬ (s.ctrl.getLsbD 0 = true ∧ s.cfgValid = true)) ∨
        (s.worker.ws = .wRwait ∧ s.relayQ = [] ∧ s.now.toNat < s.worker.tEnd.toNat) ∨
        (s.worker.ws = .cTx ∧ s.line.txOffer ≠ none) ∨
        (s.worker.ws = .cRxwait ∧ s.now.toNat < s.worker.nextSample.toNat) ∨
        (s.worker.ws = .cTurn ∧ s.now.toNat < s.worker.tEnd.toNat)))

/-- R158: a worker step changes no command result, no argument, no configuration and no byte of the codec windows. -/
def Obligations.WorkerLeavesTheHostSide : Prop :=
  ∀ s t : State, s.mem.wf = true → workerStep s = some t →
    t.host = s.host ∧ t.staging = s.staging ∧ t.active = s.active ∧ t.ctrl = s.ctrl ∧ t.cfgValid = s.cfgValid ∧
    t.params = s.params ∧ t.now = s.now ∧ t.ports.inputs = s.ports.inputs ∧
    (∀ a, a < rxBase → t.mem.read a = s.mem.read a)

/-- R158, R45: what stands in the command port (arguments, results, the error register) and in the `CODEC_IN` and
`CODEC_OUT` windows does not reach the worker: its step is the same whatever they hold, and leaves them as they are. -/
def Obligations.WorkerIgnoresTheCommandPort : Prop :=
  (∀ (s : State) (h : HostPort), workerStep { s with host := h } = (workerStep s).map (fun t => { t with host := h })) ∧
  (∀ (s : State) (h : HostPort) (m : Memory), s.mem.wf = true → m.wf = true →
    (∀ a, rxBase ≤ a → m.read a = s.mem.read a) →
    (workerStep s = none → workerStep { s with host := h, mem := m } = none) ∧
    (∀ t, workerStep s = some t → ∃ m' : Memory,
      workerStep { s with host := h, mem := m } = some { t with host := h, mem := m' } ∧
      ∀ a, m'.read a = if a < rxBase then m.read a else t.mem.read a))

/-- R158, R216, R190: a command changes nothing of the worker's frame, its line, its buffers or the time; only `CFG_COMMIT`
touches the active configuration and the restart flag, only `RELAY_PUSH` the relay queue, only `EVT_POP` the event FIFO. -/
def Obligations.CommandLeavesTheWorkerSide : Prop :=
  ∀ (i : Instr) (s t : State), s.params.Legal → s.mem.wf = true → exec i s = .next t →
    t.params = s.params ∧ t.line = s.line ∧ t.ctrl = s.ctrl ∧ t.now = s.now ∧ t.ports = s.ports ∧
    t.staging = s.staging ∧ t.host.arg0 = s.host.arg0 ∧ t.host.arg1 = s.host.arg1 ∧ t.host.arg2 = s.host.arg2 ∧
    t.worker = { s.worker with restart := t.worker.restart } ∧
    (∀ a, ¬ InRange codecOutBase s.params.maxFrame a → t.mem.read a = s.mem.read a) ∧
    (i ≠ .cfgCommit → t.worker = s.worker ∧ t.active = s.active ∧ t.sched = s.sched ∧ t.cfgValid = s.cfgValid) ∧
    (i ≠ .relayPush → t.relayQ = s.relayQ) ∧ (i ≠ .evtPop → t.evtQ = s.evtQ)

/-- R71, R79: a host read of 32 bits changes nothing but what stands on the read port; a misaligned, unmapped or write-only
word reads 0, any other its current value (which value, RegisterMapReadsTheState says). -/
def Obligations.ReadsHaveNoSideEffect : Prop :=
  (∀ (s : State) (addr : Addr) (rest : List Input), s.Pending (.hostRead addr 4) rest →
    ∃ t, step s = .next t ∧ t = { s with ports := t.ports } ∧ t.ports.inputs = rest ∧ t.ports.wire = s.ports.wire ∧
      t.ports.rdata = memRead s addr) ∧
  (∀ (s : State) (addr : Addr),
    (addr.toNat % 4 ≠ 0 → memRead s addr = 0) ∧ (addr = cmdAddr → memRead s addr = 0) ∧
    (mapped s.params addr = none → memRead s addr = 0) ∧
    (∀ r, mapped s.params addr = some r → r.access ≠ .wo → memRead s addr = s.regValue r))

/-- R73, R72, R77, R301: a write of another width than 32 bits, or to a misaligned, unmapped or read-only word, records
`BAD_ACCESS` with `OP = 0xFF` if no error is recorded yet, and changes nothing else. -/
def Obligations.BadWriteRecordsBadAccess : Prop :=
  ∀ (s : State) (addr : Addr) (size : Nat) (v : Word) (rest : List Input), s.Pending (.hostWrite addr size v) rest →
    (size ≠ 4 ∨ addr.toNat % 4 ≠ 0 ∨ mapped s.params addr = none ∨
      (∃ r, mapped s.params addr = some r ∧ r.access = .ro)) →
    (s.errCode = 0 → step s = .next { dropInput rest s with host.err := 0x0000FF05 }) ∧
    (s.errCode ≠ 0 → step s = .next (dropInput rest s))

/-- R20, R24, R30, R35, R36: a writable register reads back the value written; `CTRL` keeps its three fields and reads 0
in its reserved ones. R79: the write only stores: the word at every other address reads as before, and nothing but `CTRL`,
the arguments and the staging configuration, not even internal state, changes. -/
def Obligations.WritableRegistersReadBack : Prop :=
  ∀ (s : State) (addr : Addr) (v : Word) (r : Reg) (rest : List Input), TablesOk s →
    s.Pending (.hostWrite addr 4 v) rest → mapped s.params addr = some r → r.access = .rw → (∀ j, r ≠ .codecIn j) →
    ∃ t, step s = .next t ∧
      t = { dropInput rest s with
        ctrl := t.ctrl, staging := t.staging,
        host := { s.host with arg0 := t.host.arg0, arg1 := t.host.arg1, arg2 := t.host.arg2 } } ∧
      (addr ≠ 0x014 → memRead t addr = v) ∧ (addr = 0x014 → memRead t addr = v &&& 0x00000007) ∧
      (∀ a, a ≠ addr → memRead t a = memRead s a) ∧ t.staging.devs.length = s.staging.devs.length

/-- R74: a write to word `j` of the `CODEC_IN` window stores its bytes little-endian; bytes past the capacity are not
stored, and no other byte or register changes. -/
def Obligations.CodecInWritesAreLittleEndian : Prop :=
  ∀ (s : State) (j : Nat) (v : Word) (rest : List Input), s.params.Legal → s.mem.wf = true →
    4 * j < s.params.cinBytes → s.Pending (.hostWrite (BitVec.ofNat 12 (codecInBase + 4 * j)) 4 v) rest →
    ∃ t, step s = .next t ∧ t = { dropInput rest s with mem := t.mem } ∧
      (∀ k, k < 4 → 4 * j + k < s.params.cinBytes →
        t.mem.read (codecInBase + (4 * j + k)) = v.extractLsb' (8 * k) 8) ∧
      (∀ a, (∀ k, k < 4 → 4 * j + k < s.params.cinBytes → a ≠ codecInBase + (4 * j + k)) →
        t.mem.read a = s.mem.read a)

/-- R25: the fields of `STATUS`, with the codes 0 to 10 that R40 gives the worker states. -/
def Obligations.StatusShowsTheFlags : Prop :=
  ∀ s : State,
    let x := memRead s 0x018
    x.getLsbD 0 = s.host.crcOk ∧ x.getLsbD 1 = s.host.enqFail ∧ x.getLsbD 2 = s.evtOvf ∧ x.getLsbD 3 = s.cfgValid ∧
    (x.getLsbD 4 = true ↔ s.worker.ws ≠ .wIdle) ∧ x.getLsbD 5 = s.worker.restart ∧ x.extractLsb' 6 2 = 0 ∧
    (x.extractLsb' 8 8).toNat = s.evtQ.length % 256 ∧ x.extractLsb' 20 12 = 0 ∧
    workerTable[(x.extractLsb' 16 4).toNat]? = some s.worker.ws

/-- R306: `irq` is a level made of the enables and their causes; it falls when the last event is popped or the error
cleared, each with the other cause absent. -/
def Obligations.IrqFollowsItsCauses : Prop :=
  (∀ s : State, s.irq = true ↔
    ((s.ctrl.getLsbD 1 = true ∧ s.evtQ ≠ []) ∨ (s.ctrl.getLsbD 2 = true ∧ s.host.err.extractLsb' 0 4 ≠ 0))) ∧
  (∀ s t : State, s.evtQ.length ≤ 1 → s.errCode = 0 → exec .evtPop s = .next t → t.irq = false) ∧
  (∀ s t : State, s.evtQ = [] → exec .clrErr s = .next t → t.irq = false)

/-! Reset and the whole machine (70_reset_and_hazards.md). -/

/-- R330, R331: the reset step puts every piece of state at its reset value at once, whatever was going on, and keeps the
parameters. -/
def Obligations.ResetPutsEverythingBack : Prop :=
  ∀ (s : State) (rest : List Input), s.Pending .reset rest →
    ∃ t, step s = .next t ∧ t.params = s.params ∧ t.ctrl = 0 ∧ memRead t 0x018 = 0 ∧ t.host.err = 0 ∧ t.host.cfgStatus = 0 ∧
    (t.host.arg0 = 0 ∧ t.host.arg1 = 0 ∧ t.host.arg2 = 0) ∧
    (t.host.crcResult = 0 ∧ t.host.outLen = 0 ∧ t.host.clsResult = 0 ∧ t.host.clsValue = 0) ∧
    t.now = 0 ∧ t.active.ifs = 0 ∧ t.active.timeout = 0 ∧
    (t.staging.ver = 0 ∧ t.staging.baud = 0 ∧ t.staging.format = 0 ∧ t.staging.timing = 0 ∧ t.staging.count = 0) ∧
    t.staging.devs.length = s.params.nDev ∧ t.active.devs.length = s.params.nDev ∧
    t.sched.deadlines.length = s.params.nDev ∧ t.sched.devStates.length = s.params.nDev ∧
    (∀ i, t.staged i = StagedDevice.zero ∧ t.device i = Device.zero ∧ t.deadline i = 0 ∧ t.devState i = .idle) ∧
    t.active.count = 0 ∧ t.worker.ws = .wIdle ∧ t.worker.scanI = 0 ∧ t.worker.passNow = 0 ∧ t.worker.restart = false ∧
    memRead t 0x060 = 0x000000FF ∧ t.worker.ctx.flags = 0 ∧
    (t.worker.t0 = 0 ∧ t.worker.nextSample = 0 ∧ t.worker.tEnd = 0 ∧ t.worker.cls.code = 0 ∧ t.worker.val = 0) ∧
    (∀ a, t.mem.read a = 0) ∧ t.line.rxLen = 0 ∧ t.worker.txLen = 0 ∧ t.worker.txIdx = 0 ∧
    t.relayQ = [] ∧ t.evtQ = [] ∧ (t.host.evtHead0 = 0 ∧ t.host.evtHead1 = 0 ∧ t.host.evtHead2 = 0) ∧
    t.line.txFailCnt = 0 ∧ t.line.dir = false ∧ t.line.txOffer = none ∧ t.irq = false

/-- The invariant holds after reset, for the default parameters and for every legal instance. -/
def Obligations.ResetMeetsTheInvariant : Prop :=
  StateInv State.reset ∧ ∀ (p : Params) (ports : Ports), p.Legal → StateInv (State.resetWith p ports)

/-- Every step of every agent keeps the invariant: reserved fields read 0, buffers and queues stay in bounds and hold whole
frames, tables keep their sizes, the timing values stay clamped (R34), the direction is transmit exactly in `C_TX` (R274),
a relay frame in transmission is still the head of its queue (R234). -/
def Obligations.EveryStepKeepsTheInvariant : Prop :=
  ∀ s t : State, StateInv s → step s = .next t → StateInv t

/-- Every step keeps the byte memory in its canonical form, so that equal memories are equal data. -/
def Obligations.EveryStepKeepsTheMemoryCanonical : Prop :=
  (∀ s t : State, s.mem.wf = true → step s = .next t → t.mem.wf = true) ∧
  (∀ m m' : Memory, m.wf = true → m'.wf = true → (∀ a, m.read a = m'.read a) → m = m')

/-- R274: over all steps, if `ser_dir` is 1 exactly in `C_TX`, it still is after the step. -/
def Obligations.DirectionIsTransmitExactlyInCTx : Prop :=
  ∀ s t : State, (s.line.dir = true ↔ s.worker.ws = .cTx) → step s = .next t →
    (t.line.dir = true ↔ t.worker.ws = .cTx)

/-- R212, R51: `CFG_VALID` is set only by an accepted `CFG_COMMIT` and cleared only by reset; the parameters never change
(R33). -/
def Obligations.CfgValidIsSetByCommitAndClearedByReset : Prop :=
  (∀ s : State, s.staging.devs.length = s.params.nDev → (∀ why, s.passes why) →
    ∃ t, exec .cfgCommit s = .next t ∧ t.cfgValid = true) ∧
  (∀ s t : State, step s = .next t →
    t.params = s.params ∧
    (s.cfgValid = true → t.cfgValid = true ∨ ∃ rest, s.Pending .reset rest) ∧
    (s.cfgValid = false → t.cfgValid = true →
      (∃ rest, s.Pending (.hostWrite cmdAddr 4 0x00000007) rest) ∧
      (s.staging.devs.length = s.params.nDev → ∀ why, s.passes why)))

/-- R332, R292: while the worker is parked and `RUN` or `CFG_VALID` is 0, no step of any agent offers a byte, turns the
line to transmit or moves the worker. -/
def Obligations.NothingIsSentWhileParked : Prop :=
  ∀ s t : State, s.worker.ws = .wIdle → (s.ctrl.getLsbD 0 = false ∨ s.cfgValid = false) → step s = .next t →
    t.worker.ws = .wIdle ∧ t.ports.wire = s.ports.wire ∧ (t.line.dir = true → s.line.dir = true) ∧
    (t.line.txOffer = none ∨ t.line.txOffer = s.line.txOffer)

/-- R12, R300, R305: every command answers a next state, and a step stops only for a port action that is not enabled: a
worker turn with no enabled step, or an answer with no byte on offer (log entry 4). Three choices of the model on what stands
at the ports: a read of another width than 32 bits, for which the spec gives no word, completes with no effect but at the
read port (log entry 6), and reset goes on to the port actions that follow it and leaves what was seen there (log entries 2
and 5). -/
def Obligations.NothingStopsTheBlock : Prop :=
  (∀ (i : Instr) (s : State), ∃ t, exec i s = .next t) ∧
  (∀ s : State, (∃ t, step s = .next t) ∨
    (∃ rest, s.Pending .worker rest ∧ workerStep (dropInput rest s) = none ∧ step s = .fault .workerNotEnabled) ∨
    (∃ ok rest, s.Pending (.answer ok) rest ∧ s.line.txOffer = none ∧ step s = .fault .answerWithoutOffer)) ∧
  (∀ (s : State) (addr : Addr) (size : Nat) (rest : List Input), s.Pending (.hostRead addr size) rest →
    ∃ t, step s = .next t ∧ t = { s with ports := t.ports } ∧ t.ports.inputs = rest ∧ t.ports.wire = s.ports.wire) ∧
  (∀ (s : State) (rest : List Input), s.Pending .reset rest →
    ∃ t, step s = .next t ∧ t.ports = { s.ports with inputs := rest })

/-- R259, R271: if nothing is ever received, the worker stays in the response wait until exactly `t0 + timeout`, for every
sample interval, and there classifies `NoResponse`: the pause then ends `ifs` later, a first attempt publishes nothing, and
a retry one diagnostic event. Premise: the times do not wrap (R225). Only ticks and worker steps happen: no port action is
to come, and the model then lets ticks pass (log entry 3). -/
def Obligations.SilentWaitEndsExactlyAtTheTimeout : Prop :=
  ∀ s : State, s.worker.ws = .cRxwait → s.ports.inputs = [] → s.line.rxLen = 0 → s.params.Legal →
    let stop := s.worker.t0.toNat + s.active.timeout.toNat
    let e : Event :=
      { kind := .diagnostic, dev := s.worker.ctx.dev, subch := 0, fc := s.worker.ctx.reqFc, cls := .noResponse, val := 0 }
    stop + s.params.rxPollMs < 2 ^ 64 → stop + s.active.ifs.toNat < 2 ^ 64 →
    s.now.toNat ≤ s.worker.nextSample.toNat → s.worker.nextSample.toNat ≤ stop →
    ∃ t, ReachesWhile (fun u => u.worker.ws = .cRxwait) s t ∧ t.worker.ws = .cTurn ∧ t.now.toNat = stop ∧
      t.worker.tEnd.toNat = stop + s.active.ifs.toNat ∧ t.worker.cls = .noResponse ∧ t.worker.val = 0 ∧
      t.ports.wire = s.ports.wire ∧
      (s.worker.ctx.attempt = .first → t.evtQ = s.evtQ ∧ t.evtOvf = s.evtOvf) ∧
      (s.worker.ctx.attempt = .retry → s.evtQ.length < s.params.evtDepth → t.evtQ = s.evtQ ++ [e])

/-- R75: which addresses are mapped and with which access class, and what the word at each one reads, in terms of the state
(R23, R24, R26, R27, R30 to R38, R41, R42, R44 to R46, R48, R49), with the device state codes 0 to 2 of R39; the fields of
`STATUS` are in StatusShowsTheFlags. Windows are read byte by byte, little-endian, 0 past their capacity (R74). Premise: the relay queue is
within its capacity (R46). -/
def Obligations.RegisterMapReadsTheState : Prop :=
  ∀ s : State, s.params.Legal → relayUsed s.relayQ ≤ s.params.relayQBytes →
    let rd := fun a : Nat => memRead s (BitVec.ofNat 12 a)
    let p := s.params
    let x := s.worker.ctx
    (∀ a : Addr, ((mapped p a).isSome = true ↔ a.toNat % 4 = 0 ∧ Listed p a.toNat) ∧
      (∀ r, mapped p a = some r → (r.access = .wo ↔ a = 0x020) ∧ (r.access = .rw ↔ ListedRw a.toNat))) ∧
    (rd 0x000 = 0x4D525455 ∧ rd 0x004 = 0x00000001 ∧
      (rd 0x008).toNat = p.nDev + 256 * p.maxFrame + 65536 * p.rxCap + 16777216 * p.evtDepth ∧
      (rd 0x00C).toNat = p.relayQBytes + 65536 * p.rxPollMs ∧ (rd 0x010).toNat = p.relayWaitMs + 65536 * p.cfgVersion) ∧
    (rd 0x014 = s.ctrl ∧ rd 0x018 = s.status ∧ rd 0x01C = s.host.err ∧ rd 0x020 = 0 ∧ rd 0x024 = s.host.arg0 ∧ rd 0x028 = s.host.arg1 ∧
      rd 0x02C = s.host.arg2 ∧ (rd 0x030).toNat = s.host.crcResult.toNat ∧ (rd 0x034).toNat = s.host.outLen.toNat ∧
      rd 0x038 = s.host.clsResult ∧ rd 0x03C = s.host.clsValue) ∧
    ((rd 0x040).toNat + 2 ^ 32 * (rd 0x044).toNat = s.now.toNat ∧ (rd 0x048).toNat = s.active.ifs.toNat ∧
      (rd 0x04C).toNat = s.active.timeout.toNat ∧ rd 0x050 = s.line.txFailCnt ∧
      (rd 0x054).toNat = relayUsed s.relayQ + 65536 * s.relayQ.length ∧ (rd 0x058).toNat = s.line.rxLen.toNat ∧
      (rd 0x05C).toNat = s.worker.txLen.toNat ∧
      (rd 0x060).toNat = x.dev.toNat + (if x.attempt = .retry then 256 else 0) + (if x.src = .relay then 512 else 0) +
        65536 * x.reqAddr.toNat + 16777216 * x.reqFc.toNat) ∧
    (rd 0x064 = s.host.evtHead0 ∧ rd 0x068 = s.host.evtHead1 ∧ rd 0x06C = s.host.evtHead2 ∧
      (rd 0x070).toNat = s.active.count.toNat ∧ rd 0x074 = s.host.cfgStatus ∧ rd 0x080 = s.staging.ver ∧
      rd 0x084 = s.staging.baud ∧ rd 0x088 = s.staging.format ∧ rd 0x08C = s.staging.timing ∧
      rd 0x090 = s.staging.count) ∧
    (∀ i, i < p.nDev →
      rd (0x100 + 16 * i) = (s.staged i).af ∧ rd (0x104 + 16 * i) = (s.staged i).reg ∧
      rd (0x108 + 16 * i) = (s.staged i).cyc ∧
      (rd (0x500 + 8 * i)).toNat + 2 ^ 32 * (rd (0x504 + 8 * i)).toNat = (s.deadline i).toNat ∧
      deviceTable[(s.hostByte 0x700 i).toNat]? = some (s.devState i) ∧
      (rd (0xC00 + 16 * i)).toNat = 256 * (s.device i).fc.toNat + (s.device i).addr.toNat ∧
      (rd (0xC04 + 16 * i)).toNat = (s.device i).reg.toNat ∧ rd (0xC08 + 16 * i) = (s.device i).cycle) ∧
    (∀ k, k < 256 → ∀ w ∈ [(0x800, p.cinBytes), (0x900, p.maxFrame), (0xA00, p.rxCap), (0xB00, p.maxFrame)],
      s.hostByte w.1 k = if k < w.2 then s.mem.read (w.1 + k) else 0) ∧
    (∀ k, p.nDev ≤ k → k < 64 → s.hostByte 0x700 k = 0)
end

