-- ==== Sys2Proof/Laws/State.lean ====
section
/-! SUPPORT. One lemma per field per update of the shared operations, so that later proofs unfold none of them. -/

namespace Sys2Proof.Machine

/-! `goto`. -/

@[simp] theorem goto_params (w : WorkerState) (s : State) : (goto w s).params = s.params := rfl
@[simp] theorem goto_ctrl (w : WorkerState) (s : State) : (goto w s).ctrl = s.ctrl := rfl
@[simp] theorem goto_cfgValid (w : WorkerState) (s : State) : (goto w s).cfgValid = s.cfgValid := rfl
@[simp] theorem goto_evtOvf (w : WorkerState) (s : State) : (goto w s).evtOvf = s.evtOvf := rfl
@[simp] theorem goto_now (w : WorkerState) (s : State) : (goto w s).now = s.now := rfl
@[simp] theorem goto_host (w : WorkerState) (s : State) : (goto w s).host = s.host := rfl
@[simp] theorem goto_staging (w : WorkerState) (s : State) : (goto w s).staging = s.staging := rfl
@[simp] theorem goto_active (w : WorkerState) (s : State) : (goto w s).active = s.active := rfl
@[simp] theorem goto_sched (w : WorkerState) (s : State) : (goto w s).sched = s.sched := rfl
@[simp] theorem goto_worker (w : WorkerState) (s : State) : (goto w s).worker = { s.worker with ws := w } := rfl
@[simp] theorem goto_line (w : WorkerState) (s : State) : (goto w s).line = s.line := rfl
@[simp] theorem goto_mem (w : WorkerState) (s : State) : (goto w s).mem = s.mem := rfl
@[simp] theorem goto_relayQ (w : WorkerState) (s : State) : (goto w s).relayQ = s.relayQ := rfl
@[simp] theorem goto_evtQ (w : WorkerState) (s : State) : (goto w s).evtQ = s.evtQ := rfl
@[simp] theorem goto_ports (w : WorkerState) (s : State) : (goto w s).ports = s.ports := rfl

/-! `setDeadline`. -/

@[simp] theorem setDeadline_params (i : Nat) (t : DWord) (s : State) : (setDeadline i t s).params = s.params := rfl
@[simp] theorem setDeadline_ctrl (i : Nat) (t : DWord) (s : State) : (setDeadline i t s).ctrl = s.ctrl := rfl
@[simp] theorem setDeadline_cfgValid (i : Nat) (t : DWord) (s : State) :
    (setDeadline i t s).cfgValid = s.cfgValid := rfl
@[simp] theorem setDeadline_evtOvf (i : Nat) (t : DWord) (s : State) : (setDeadline i t s).evtOvf = s.evtOvf := rfl
@[simp] theorem setDeadline_now (i : Nat) (t : DWord) (s : State) : (setDeadline i t s).now = s.now := rfl
@[simp] theorem setDeadline_host (i : Nat) (t : DWord) (s : State) : (setDeadline i t s).host = s.host := rfl
@[simp] theorem setDeadline_staging (i : Nat) (t : DWord) (s : State) : (setDeadline i t s).staging = s.staging := rfl
@[simp] theorem setDeadline_active (i : Nat) (t : DWord) (s : State) : (setDeadline i t s).active = s.active := rfl
@[simp] theorem setDeadline_sched (i : Nat) (t : DWord) (s : State) :
    (setDeadline i t s).sched = { s.sched with deadlines := s.sched.deadlines.set i t } := rfl
@[simp] theorem setDeadline_worker (i : Nat) (t : DWord) (s : State) : (setDeadline i t s).worker = s.worker := rfl
@[simp] theorem setDeadline_line (i : Nat) (t : DWord) (s : State) : (setDeadline i t s).line = s.line := rfl
@[simp] theorem setDeadline_mem (i : Nat) (t : DWord) (s : State) : (setDeadline i t s).mem = s.mem := rfl
@[simp] theorem setDeadline_relayQ (i : Nat) (t : DWord) (s : State) : (setDeadline i t s).relayQ = s.relayQ := rfl
@[simp] theorem setDeadline_evtQ (i : Nat) (t : DWord) (s : State) : (setDeadline i t s).evtQ = s.evtQ := rfl
@[simp] theorem setDeadline_ports (i : Nat) (t : DWord) (s : State) : (setDeadline i t s).ports = s.ports := rfl

/-! `setDevState`. -/

@[simp] theorem setDevState_params (i : Nat) (d : DevState) (s : State) : (setDevState i d s).params = s.params := rfl
@[simp] theorem setDevState_ctrl (i : Nat) (d : DevState) (s : State) : (setDevState i d s).ctrl = s.ctrl := rfl
@[simp] theorem setDevState_cfgValid (i : Nat) (d : DevState) (s : State) :
    (setDevState i d s).cfgValid = s.cfgValid := rfl
@[simp] theorem setDevState_evtOvf (i : Nat) (d : DevState) (s : State) : (setDevState i d s).evtOvf = s.evtOvf := rfl
@[simp] theorem setDevState_now (i : Nat) (d : DevState) (s : State) : (setDevState i d s).now = s.now := rfl
@[simp] theorem setDevState_host (i : Nat) (d : DevState) (s : State) : (setDevState i d s).host = s.host := rfl
@[simp] theorem setDevState_staging (i : Nat) (d : DevState) (s : State) :
    (setDevState i d s).staging = s.staging := rfl
@[simp] theorem setDevState_active (i : Nat) (d : DevState) (s : State) : (setDevState i d s).active = s.active := rfl
@[simp] theorem setDevState_sched (i : Nat) (d : DevState) (s : State) :
    (setDevState i d s).sched = { s.sched with devStates := s.sched.devStates.set i d } := rfl
@[simp] theorem setDevState_worker (i : Nat) (d : DevState) (s : State) : (setDevState i d s).worker = s.worker := rfl
@[simp] theorem setDevState_line (i : Nat) (d : DevState) (s : State) : (setDevState i d s).line = s.line := rfl
@[simp] theorem setDevState_mem (i : Nat) (d : DevState) (s : State) : (setDevState i d s).mem = s.mem := rfl
@[simp] theorem setDevState_relayQ (i : Nat) (d : DevState) (s : State) : (setDevState i d s).relayQ = s.relayQ := rfl
@[simp] theorem setDevState_evtQ (i : Nat) (d : DevState) (s : State) : (setDevState i d s).evtQ = s.evtQ := rfl
@[simp] theorem setDevState_ports (i : Nat) (d : DevState) (s : State) : (setDevState i d s).ports = s.ports := rfl

/-! `setCodecOut`. -/

@[simp] theorem setCodecOut_params (f : List Byte) (s : State) : (setCodecOut f s).params = s.params := rfl
@[simp] theorem setCodecOut_ctrl (f : List Byte) (s : State) : (setCodecOut f s).ctrl = s.ctrl := rfl
@[simp] theorem setCodecOut_cfgValid (f : List Byte) (s : State) : (setCodecOut f s).cfgValid = s.cfgValid := rfl
@[simp] theorem setCodecOut_evtOvf (f : List Byte) (s : State) : (setCodecOut f s).evtOvf = s.evtOvf := rfl
@[simp] theorem setCodecOut_now (f : List Byte) (s : State) : (setCodecOut f s).now = s.now := rfl
@[simp] theorem setCodecOut_host (f : List Byte) (s : State) :
    (setCodecOut f s).host = { s.host with outLen := BitVec.ofNat 8 f.length } := rfl
@[simp] theorem setCodecOut_staging (f : List Byte) (s : State) : (setCodecOut f s).staging = s.staging := rfl
@[simp] theorem setCodecOut_active (f : List Byte) (s : State) : (setCodecOut f s).active = s.active := rfl
@[simp] theorem setCodecOut_sched (f : List Byte) (s : State) : (setCodecOut f s).sched = s.sched := rfl
@[simp] theorem setCodecOut_worker (f : List Byte) (s : State) : (setCodecOut f s).worker = s.worker := rfl
@[simp] theorem setCodecOut_line (f : List Byte) (s : State) : (setCodecOut f s).line = s.line := rfl
@[simp] theorem setCodecOut_mem (f : List Byte) (s : State) :
    (setCodecOut f s).mem = s.mem.setWindow codecOutBase s.params.maxFrame f := rfl
@[simp] theorem setCodecOut_relayQ (f : List Byte) (s : State) : (setCodecOut f s).relayQ = s.relayQ := rfl
@[simp] theorem setCodecOut_evtQ (f : List Byte) (s : State) : (setCodecOut f s).evtQ = s.evtQ := rfl
@[simp] theorem setCodecOut_ports (f : List Byte) (s : State) : (setCodecOut f s).ports = s.ports := rfl

/-! `loadTx`. -/

@[simp] theorem loadTx_params (f : List Byte) (s : State) : (loadTx f s).params = s.params := rfl
@[simp] theorem loadTx_ctrl (f : List Byte) (s : State) : (loadTx f s).ctrl = s.ctrl := rfl
@[simp] theorem loadTx_cfgValid (f : List Byte) (s : State) : (loadTx f s).cfgValid = s.cfgValid := rfl
@[simp] theorem loadTx_evtOvf (f : List Byte) (s : State) : (loadTx f s).evtOvf = s.evtOvf := rfl
@[simp] theorem loadTx_now (f : List Byte) (s : State) : (loadTx f s).now = s.now := rfl
@[simp] theorem loadTx_host (f : List Byte) (s : State) : (loadTx f s).host = s.host := rfl
@[simp] theorem loadTx_staging (f : List Byte) (s : State) : (loadTx f s).staging = s.staging := rfl
@[simp] theorem loadTx_active (f : List Byte) (s : State) : (loadTx f s).active = s.active := rfl
@[simp] theorem loadTx_sched (f : List Byte) (s : State) : (loadTx f s).sched = s.sched := rfl
@[simp] theorem loadTx_worker (f : List Byte) (s : State) :
    (loadTx f s).worker = { s.worker with txLen := BitVec.ofNat 8 f.length } := rfl
@[simp] theorem loadTx_line (f : List Byte) (s : State) : (loadTx f s).line = s.line := rfl
@[simp] theorem loadTx_mem (f : List Byte) (s : State) :
    (loadTx f s).mem = s.mem.setWindow txBase s.params.maxFrame f := rfl
@[simp] theorem loadTx_relayQ (f : List Byte) (s : State) : (loadTx f s).relayQ = s.relayQ := rfl
@[simp] theorem loadTx_evtQ (f : List Byte) (s : State) : (loadTx f s).evtQ = s.evtQ := rfl
@[simp] theorem loadTx_ports (f : List Byte) (s : State) : (loadTx f s).ports = s.ports := rfl

/-! `rxClear`. -/

@[simp] theorem rxClear_params (s : State) : (rxClear s).params = s.params := rfl
@[simp] theorem rxClear_ctrl (s : State) : (rxClear s).ctrl = s.ctrl := rfl
@[simp] theorem rxClear_cfgValid (s : State) : (rxClear s).cfgValid = s.cfgValid := rfl
@[simp] theorem rxClear_evtOvf (s : State) : (rxClear s).evtOvf = s.evtOvf := rfl
@[simp] theorem rxClear_now (s : State) : (rxClear s).now = s.now := rfl
@[simp] theorem rxClear_host (s : State) : (rxClear s).host = s.host := rfl
@[simp] theorem rxClear_staging (s : State) : (rxClear s).staging = s.staging := rfl
@[simp] theorem rxClear_active (s : State) : (rxClear s).active = s.active := rfl
@[simp] theorem rxClear_sched (s : State) : (rxClear s).sched = s.sched := rfl
@[simp] theorem rxClear_worker (s : State) : (rxClear s).worker = s.worker := rfl
@[simp] theorem rxClear_line (s : State) : (rxClear s).line = { s.line with rxLen := 0 } := rfl
@[simp] theorem rxClear_mem (s : State) : (rxClear s).mem = s.mem.setWindow rxBase s.params.rxCap [] := rfl
@[simp] theorem rxClear_relayQ (s : State) : (rxClear s).relayQ = s.relayQ := rfl
@[simp] theorem rxClear_evtQ (s : State) : (rxClear s).evtQ = s.evtQ := rfl
@[simp] theorem rxClear_ports (s : State) : (rxClear s).ports = s.ports := rfl

/-! `setStaged`. -/

@[simp] theorem setStaged_params (i : Nat) (d : StagedDevice) (s : State) : (setStaged i d s).params = s.params := rfl
@[simp] theorem setStaged_ctrl (i : Nat) (d : StagedDevice) (s : State) : (setStaged i d s).ctrl = s.ctrl := rfl
@[simp] theorem setStaged_cfgValid (i : Nat) (d : StagedDevice) (s : State) :
    (setStaged i d s).cfgValid = s.cfgValid := rfl
@[simp] theorem setStaged_evtOvf (i : Nat) (d : StagedDevice) (s : State) : (setStaged i d s).evtOvf = s.evtOvf := rfl
@[simp] theorem setStaged_now (i : Nat) (d : StagedDevice) (s : State) : (setStaged i d s).now = s.now := rfl
@[simp] theorem setStaged_host (i : Nat) (d : StagedDevice) (s : State) : (setStaged i d s).host = s.host := rfl
@[simp] theorem setStaged_staging (i : Nat) (d : StagedDevice) (s : State) :
    (setStaged i d s).staging = { s.staging with devs := s.staging.devs.set i d } := rfl
@[simp] theorem setStaged_active (i : Nat) (d : StagedDevice) (s : State) : (setStaged i d s).active = s.active := rfl
@[simp] theorem setStaged_sched (i : Nat) (d : StagedDevice) (s : State) : (setStaged i d s).sched = s.sched := rfl
@[simp] theorem setStaged_worker (i : Nat) (d : StagedDevice) (s : State) : (setStaged i d s).worker = s.worker := rfl
@[simp] theorem setStaged_line (i : Nat) (d : StagedDevice) (s : State) : (setStaged i d s).line = s.line := rfl
@[simp] theorem setStaged_mem (i : Nat) (d : StagedDevice) (s : State) : (setStaged i d s).mem = s.mem := rfl
@[simp] theorem setStaged_relayQ (i : Nat) (d : StagedDevice) (s : State) : (setStaged i d s).relayQ = s.relayQ := rfl
@[simp] theorem setStaged_evtQ (i : Nat) (d : StagedDevice) (s : State) : (setStaged i d s).evtQ = s.evtQ := rfl
@[simp] theorem setStaged_ports (i : Nat) (d : StagedDevice) (s : State) : (setStaged i d s).ports = s.ports := rfl

/-! `clockStep`. -/

@[simp] theorem clockStep_params (s : State) : (clockStep s).params = s.params := rfl
@[simp] theorem clockStep_ctrl (s : State) : (clockStep s).ctrl = s.ctrl := rfl
@[simp] theorem clockStep_cfgValid (s : State) : (clockStep s).cfgValid = s.cfgValid := rfl
@[simp] theorem clockStep_evtOvf (s : State) : (clockStep s).evtOvf = s.evtOvf := rfl
@[simp] theorem clockStep_now (s : State) : (clockStep s).now = s.now + 1 := rfl
@[simp] theorem clockStep_host (s : State) : (clockStep s).host = s.host := rfl
@[simp] theorem clockStep_staging (s : State) : (clockStep s).staging = s.staging := rfl
@[simp] theorem clockStep_active (s : State) : (clockStep s).active = s.active := rfl
@[simp] theorem clockStep_sched (s : State) : (clockStep s).sched = s.sched := rfl
@[simp] theorem clockStep_worker (s : State) : (clockStep s).worker = s.worker := rfl
@[simp] theorem clockStep_line (s : State) : (clockStep s).line = s.line := rfl
@[simp] theorem clockStep_mem (s : State) : (clockStep s).mem = s.mem := rfl
@[simp] theorem clockStep_relayQ (s : State) : (clockStep s).relayQ = s.relayQ := rfl
@[simp] theorem clockStep_evtQ (s : State) : (clockStep s).evtQ = s.evtQ := rfl
@[simp] theorem clockStep_ports (s : State) : (clockStep s).ports = s.ports := rfl

/-! `dropInput`. -/

@[simp] theorem dropInput_params (rest : List Input) (s : State) : (dropInput rest s).params = s.params := rfl
@[simp] theorem dropInput_ctrl (rest : List Input) (s : State) : (dropInput rest s).ctrl = s.ctrl := rfl
@[simp] theorem dropInput_cfgValid (rest : List Input) (s : State) : (dropInput rest s).cfgValid = s.cfgValid := rfl
@[simp] theorem dropInput_evtOvf (rest : List Input) (s : State) : (dropInput rest s).evtOvf = s.evtOvf := rfl
@[simp] theorem dropInput_now (rest : List Input) (s : State) : (dropInput rest s).now = s.now := rfl
@[simp] theorem dropInput_host (rest : List Input) (s : State) : (dropInput rest s).host = s.host := rfl
@[simp] theorem dropInput_staging (rest : List Input) (s : State) : (dropInput rest s).staging = s.staging := rfl
@[simp] theorem dropInput_active (rest : List Input) (s : State) : (dropInput rest s).active = s.active := rfl
@[simp] theorem dropInput_sched (rest : List Input) (s : State) : (dropInput rest s).sched = s.sched := rfl
@[simp] theorem dropInput_worker (rest : List Input) (s : State) : (dropInput rest s).worker = s.worker := rfl
@[simp] theorem dropInput_line (rest : List Input) (s : State) : (dropInput rest s).line = s.line := rfl
@[simp] theorem dropInput_mem (rest : List Input) (s : State) : (dropInput rest s).mem = s.mem := rfl
@[simp] theorem dropInput_relayQ (rest : List Input) (s : State) : (dropInput rest s).relayQ = s.relayQ := rfl
@[simp] theorem dropInput_evtQ (rest : List Input) (s : State) : (dropInput rest s).evtQ = s.evtQ := rfl
@[simp] theorem dropInput_ports (rest : List Input) (s : State) :
    (dropInput rest s).ports = { s.ports with inputs := rest } := rfl

/-! `raise`. -/

@[simp] theorem raise_params (c : ErrCode) (op : Byte) (s : State) :
    (raise c op s).params = s.params := by unfold raise; split <;> rfl
@[simp] theorem raise_ctrl (c : ErrCode) (op : Byte) (s : State) :
    (raise c op s).ctrl = s.ctrl := by unfold raise; split <;> rfl
@[simp] theorem raise_cfgValid (c : ErrCode) (op : Byte) (s : State) :
    (raise c op s).cfgValid = s.cfgValid := by unfold raise; split <;> rfl
@[simp] theorem raise_evtOvf (c : ErrCode) (op : Byte) (s : State) :
    (raise c op s).evtOvf = s.evtOvf := by unfold raise; split <;> rfl
@[simp] theorem raise_now (c : ErrCode) (op : Byte) (s : State) :
    (raise c op s).now = s.now := by unfold raise; split <;> rfl
@[simp] theorem raise_host (c : ErrCode) (op : Byte) (s : State) :
    (raise c op s).host = if s.errCode = 0 then { s.host with err := fieldAt 8 op ||| c.number } else s.host := by
  unfold raise; split <;> rfl
@[simp] theorem raise_staging (c : ErrCode) (op : Byte) (s : State) :
    (raise c op s).staging = s.staging := by unfold raise; split <;> rfl
@[simp] theorem raise_active (c : ErrCode) (op : Byte) (s : State) :
    (raise c op s).active = s.active := by unfold raise; split <;> rfl
@[simp] theorem raise_sched (c : ErrCode) (op : Byte) (s : State) :
    (raise c op s).sched = s.sched := by unfold raise; split <;> rfl
@[simp] theorem raise_worker (c : ErrCode) (op : Byte) (s : State) :
    (raise c op s).worker = s.worker := by unfold raise; split <;> rfl
@[simp] theorem raise_line (c : ErrCode) (op : Byte) (s : State) :
    (raise c op s).line = s.line := by unfold raise; split <;> rfl
@[simp] theorem raise_mem (c : ErrCode) (op : Byte) (s : State) :
    (raise c op s).mem = s.mem := by unfold raise; split <;> rfl
@[simp] theorem raise_relayQ (c : ErrCode) (op : Byte) (s : State) :
    (raise c op s).relayQ = s.relayQ := by unfold raise; split <;> rfl
@[simp] theorem raise_evtQ (c : ErrCode) (op : Byte) (s : State) :
    (raise c op s).evtQ = s.evtQ := by unfold raise; split <;> rfl
@[simp] theorem raise_ports (c : ErrCode) (op : Byte) (s : State) :
    (raise c op s).ports = s.ports := by unfold raise; split <;> rfl

/-! `emit`. -/

@[simp] theorem emit_params (e : Event) (s : State) : (emit e s).params = s.params := by unfold emit; split <;> rfl
@[simp] theorem emit_ctrl (e : Event) (s : State) : (emit e s).ctrl = s.ctrl := by unfold emit; split <;> rfl
@[simp] theorem emit_cfgValid (e : Event) (s : State) :
    (emit e s).cfgValid = s.cfgValid := by unfold emit; split <;> rfl
@[simp] theorem emit_evtOvf (e : Event) (s : State) :
    (emit e s).evtOvf = if s.evtQ.length < s.params.evtDepth then s.evtOvf else true := by unfold emit; split <;> rfl
@[simp] theorem emit_now (e : Event) (s : State) : (emit e s).now = s.now := by unfold emit; split <;> rfl
@[simp] theorem emit_host (e : Event) (s : State) : (emit e s).host = s.host := by unfold emit; split <;> rfl
@[simp] theorem emit_staging (e : Event) (s : State) : (emit e s).staging = s.staging := by unfold emit; split <;> rfl
@[simp] theorem emit_active (e : Event) (s : State) : (emit e s).active = s.active := by unfold emit; split <;> rfl
@[simp] theorem emit_sched (e : Event) (s : State) : (emit e s).sched = s.sched := by unfold emit; split <;> rfl
@[simp] theorem emit_worker (e : Event) (s : State) : (emit e s).worker = s.worker := by unfold emit; split <;> rfl
@[simp] theorem emit_line (e : Event) (s : State) : (emit e s).line = s.line := by unfold emit; split <;> rfl
@[simp] theorem emit_mem (e : Event) (s : State) : (emit e s).mem = s.mem := by unfold emit; split <;> rfl
@[simp] theorem emit_relayQ (e : Event) (s : State) : (emit e s).relayQ = s.relayQ := by unfold emit; split <;> rfl
@[simp] theorem emit_evtQ (e : Event) (s : State) :
    (emit e s).evtQ = if s.evtQ.length < s.params.evtDepth then s.evtQ ++ [e] else s.evtQ := by
  unfold emit; split <;> rfl
@[simp] theorem emit_ports (e : Event) (s : State) : (emit e s).ports = s.ports := by unfold emit; split <;> rfl

end Sys2Proof.Machine
end

