-- ==== Sys2Proof/Laws/Bus.lean ====
section
/-! SUPPORT. The address map (R75), said once: which word stands at which address, what it reads, and that a store reaches no
other word. Claims cite these and unfold neither the list of single registers nor the tables. -/

namespace Sys2Proof.Machine

/-- The byte offset of a word of the register space (R75). -/
def Reg.offset : Reg → Nat
  | .id => 0x000 | .specRev => 0x004 | .param0 => 0x008 | .param1 => 0x00C | .param2 => 0x010 | .ctrl => 0x014
  | .status => 0x018 | .err => 0x01C | .cmd => 0x020 | .arg0 => 0x024 | .arg1 => 0x028 | .arg2 => 0x02C
  | .crcResult => 0x030 | .outLen => 0x034 | .clsResult => 0x038 | .clsValue => 0x03C | .nowLo => 0x040
  | .nowHi => 0x044 | .ifsMs => 0x048 | .timeoutMs => 0x04C | .txFailCnt => 0x050 | .relayLevel => 0x054
  | .rxLen => 0x058 | .txLen => 0x05C | .curCtx => 0x060 | .evtHead0 => 0x064 | .evtHead1 => 0x068
  | .evtHead2 => 0x06C | .actCount => 0x070 | .cfgStatus => 0x074 | .cfgVer => 0x080 | .cfgBaud => 0x084
  | .cfgFormat => 0x088 | .cfgTiming => 0x08C | .cfgCount => 0x090
  | .devsAf i => 0x100 + 16 * i | .devsReg i => 0x104 + 16 * i | .devsCyc i => 0x108 + 16 * i
  | .dlLo i => 0x500 + 8 * i | .dlHi i => 0x504 + 8 * i | .devStateWord j => 0x700 + 4 * j
  | .codecIn j => 0x800 + 4 * j | .codecOut j => 0x900 + 4 * j | .rxBuf j => 0xA00 + 4 * j | .txBuf j => 0xB00 + 4 * j
  | .devaAf i => 0xC00 + 16 * i | .devaReg i => 0xC04 + 16 * i | .devaCyc i => 0xC08 + 16 * i

/-- The word exists in an instance with parameters `p` (R74, R75): tables have `N_DEV` entries, a window has the words that
hold a byte of its capacity. -/
def Reg.Present (p : Params) : Reg → Prop
  | .devsAf i | .devsReg i | .devsCyc i | .dlLo i | .dlHi i | .devaAf i | .devaReg i | .devaCyc i => i < p.nDev
  | .devStateWord j => 4 * j < p.nDev
  | .codecIn j => 4 * j < p.cinBytes
  | .codecOut j | .txBuf j => 4 * j < p.maxFrame
  | .rxBuf j => 4 * j < p.rxCap
  | _ => True

theorem fixedMap_offset : ∀ c ∈ fixedMap, c.1 = c.2.offset := by decide

theorem mem_of_lookup {l : List (Nat × Reg)} {a : Nat} {r : Reg} (h : l.lookup a = some r) : (a, r) ∈ l := by
  induction l with
  | nil => simp at h
  | cons c l ih =>
    obtain ⟨k, v⟩ := c
    rw [List.lookup_cons] at h
    split at h
    · rename_i hk
      simp only [beq_iff_eq] at hk
      simp_all
    · exact List.mem_cons_of_mem _ (ih h)

theorem windowMap_eq_some {cap j : Nat} {r r' : Reg} (h : windowMap cap j r = some r') : 4 * j < cap ∧ r' = r := by
  unfold windowMap at h
  split at h
  · exact ⟨‹_›, (Option.some.inj h).symm⟩
  · cases h

theorem deviceColumn_eq_some {o : Nat} {af reg cyc r : Reg} (h : deviceColumn o af reg cyc = some r) :
    (o = 0 ∧ r = af) ∨ (o = 4 ∧ r = reg) ∨ (o = 8 ∧ r = cyc) := by
  unfold deviceColumn at h
  split at h
  · exact .inl ⟨‹_›, (Option.some.inj h).symm⟩
  · split at h
    · exact .inr (.inl ⟨‹_›, (Option.some.inj h).symm⟩)
    · split at h
      · exact .inr (.inr ⟨‹_›, (Option.some.inj h).symm⟩)
      · cases h

theorem ite_eq_some {α : Type} {c : Prop} [Decidable c] {x y : Option α} {r : α}
    (h : (if c then x else y) = some r) : (c ∧ x = some r) ∨ (¬c ∧ y = some r) := by
  by_cases hc : c
  · exact .inl ⟨hc, by rwa [if_pos hc] at h⟩
  · exact .inr ⟨hc, by rwa [if_neg hc] at h⟩

/-- What the tables and windows of R75 hold, word by word. -/
theorem tableMap_cases {p : Params} {a : Nat} {r : Reg} (h4 : a % 4 = 0) (h : tableMap p a = some r) :
    (∃ i, i < p.nDev ∧ a < 0x500 ∧ ((a = 0x100 + 16 * i ∧ r = .devsAf i) ∨ (a = 0x104 + 16 * i ∧ r = .devsReg i) ∨
      (a = 0x108 + 16 * i ∧ r = .devsCyc i))) ∨
    (∃ i, i < p.nDev ∧ a < 0x700 ∧ ((a = 0x500 + 8 * i ∧ r = .dlLo i) ∨ (a = 0x504 + 8 * i ∧ r = .dlHi i))) ∨
    (∃ j, 4 * j < p.nDev ∧ a < 0x740 ∧ a = 0x700 + 4 * j ∧ r = .devStateWord j) ∨
    (∃ j, 4 * j < p.cinBytes ∧ a < 0x900 ∧ a = 0x800 + 4 * j ∧ r = .codecIn j) ∨
    (∃ j, 4 * j < p.maxFrame ∧ a < 0xA00 ∧ a = 0x900 + 4 * j ∧ r = .codecOut j) ∨
    (∃ j, 4 * j < p.rxCap ∧ a < 0xB00 ∧ a = 0xA00 + 4 * j ∧ r = .rxBuf j) ∨
    (∃ j, 4 * j < p.maxFrame ∧ a < 0xC00 ∧ a = 0xB00 + 4 * j ∧ r = .txBuf j) ∨
    (∃ i, i < p.nDev ∧ a < 0x1000 ∧ ((a = 0xC00 + 16 * i ∧ r = .devaAf i) ∨ (a = 0xC04 + 16 * i ∧ r = .devaReg i) ∨
      (a = 0xC08 + 16 * i ∧ r = .devaCyc i))) := by
  unfold tableMap at h
  obtain ⟨hr, h⟩ | ⟨-, h⟩ := ite_eq_some h
  · obtain ⟨hi, h⟩ | ⟨-, h⟩ := ite_eq_some h
    · refine .inl ⟨_, hi, hr.2, ?_⟩
      obtain ⟨ho, rfl⟩ | ⟨ho, rfl⟩ | ⟨ho, rfl⟩ := deviceColumn_eq_some h
      · exact .inl ⟨by omega, rfl⟩
      · exact .inr (.inl ⟨by omega, rfl⟩)
      · exact .inr (.inr ⟨by omega, rfl⟩)
    · cases h
  refine .inr ?_
  obtain ⟨hr, h⟩ | ⟨-, h⟩ := ite_eq_some h
  · obtain ⟨hi, h⟩ | ⟨-, h⟩ := ite_eq_some h
    · refine .inl ⟨_, hi, hr.2, ?_⟩
      by_cases ho : (a - 0x500) % 8 = 0
      · rw [if_pos ho] at h
        exact .inl ⟨by omega, (Option.some.inj h).symm⟩
      · rw [if_neg ho] at h
        exact .inr ⟨by omega, (Option.some.inj h).symm⟩
    · cases h
  refine .inr ?_
  iterate 5
    obtain ⟨hr, h⟩ | ⟨-, h⟩ := ite_eq_some h
    · obtain ⟨hj, rfl⟩ := windowMap_eq_some h
      exact .inl ⟨_, hj, hr.2, by omega, rfl⟩
    refine .inr ?_
  obtain ⟨hr, h⟩ | ⟨-, h⟩ := ite_eq_some h
  · obtain ⟨hi, h⟩ | ⟨-, h⟩ := ite_eq_some h
    · refine ⟨_, hi, hr.2, ?_⟩
      obtain ⟨ho, rfl⟩ | ⟨ho, rfl⟩ | ⟨ho, rfl⟩ := deviceColumn_eq_some h
      · exact .inl ⟨by omega, rfl⟩
      · exact .inr (.inl ⟨by omega, rfl⟩)
      · exact .inr (.inr ⟨by omega, rfl⟩)
    · cases h
  · cases h

theorem tableMap_offset {p : Params} {a : Nat} {r : Reg} (h4 : a % 4 = 0) (h : tableMap p a = some r) :
    r.Present p ∧ a = r.offset := by
  rcases tableMap_cases h4 h with ⟨i, hi, -, ⟨ha, rfl⟩ | ⟨ha, rfl⟩ | ⟨ha, rfl⟩⟩ | ⟨i, hi, -, ⟨ha, rfl⟩ | ⟨ha, rfl⟩⟩ |
    ⟨j, hi, -, ha, rfl⟩ | ⟨j, hi, -, ha, rfl⟩ | ⟨j, hi, -, ha, rfl⟩ | ⟨j, hi, -, ha, rfl⟩ | ⟨j, hi, -, ha, rfl⟩ |
    ⟨i, hi, -, ⟨ha, rfl⟩ | ⟨ha, rfl⟩ | ⟨ha, rfl⟩⟩ <;> exact ⟨hi, ha⟩

theorem fixedMap_present : ∀ c ∈ fixedMap, ∀ p, c.2.Present p := by
  simp [fixedMap, Reg.Present]

/-- What is mapped at an address exists, has that offset, and the address is aligned (R71, R75). -/
theorem mapped_eq_some {p : Params} {a : Addr} {r : Reg} (h : mapped p a = some r) :
    r.Present p ∧ a.toNat = r.offset ∧ a.toNat % 4 = 0 := by
  unfold mapped at h
  split at h
  · cases h
  · rename_i h4
    split at h
    · rename_i _ hr
      cases h
      have := mem_of_lookup hr
      exact ⟨fixedMap_present _ this p, fixedMap_offset _ this, by omega⟩
    · have := tableMap_offset (by omega) h
      exact ⟨this.1, this.2, by omega⟩

/-- No word stands at two addresses (R75). -/
theorem mapped_inj {p : Params} {a b : Addr} {r : Reg} (ha : mapped p a = some r) (hb : mapped p b = some r) : a = b :=
  BitVec.eq_of_toNat_eq ((mapped_eq_some ha).2.1.trans (mapped_eq_some hb).2.1.symm)

theorem lookup_fixedMap {a : Nat} (h : 0x100 ≤ a) : fixedMap.lookup a = none := by
  rw [List.lookup_eq_none_iff]
  intro c hc
  have : c.1 < 0x100 := (by decide : ∀ c ∈ fixedMap, c.1 < 0x100) c hc
  simp; omega

/-- Above the single registers an aligned address is looked up in the tables. -/
theorem mapped_table (p : Params) {a : Nat} (h4 : a % 4 = 0) (ha : 0x100 ≤ a) (hb : a < 0x1000) :
    mapped p (BitVec.ofNat 12 a) = tableMap p a := by
  have : (BitVec.ofNat 12 a).toNat = a := by simp; omega
  simp [mapped, this, h4, lookup_fixedMap ha]

theorem windowMap_pos {cap j : Nat} {r : Reg} (h : 4 * j < cap) : windowMap cap j r = some r := if_pos h

/-- Every word that exists is mapped at its offset (R75). -/
theorem mapped_offset {p : Params} (hp : p.Legal) {r : Reg} (h : r.Present p) :
    mapped p (BitVec.ofNat 12 r.offset) = some r := by
  obtain ⟨hd, hm, hx, -⟩ := hp
  have hc : p.cinBytes ≤ 255 := by unfold Params.cinBytes; omega
  cases r
  case devsAf i | devsReg i | devsCyc i | devaAf i | devaReg i | devaCyc i =>
    simp only [Reg.Present, Reg.offset] at h ⊢
    rw [mapped_table p (by omega) (by omega) (by omega)]
    unfold tableMap
    simp only [deviceColumn]
    repeat' first
      | rw [if_pos (by omega)]
      | rw [if_neg (by omega)]
    congr 2
    omega
  case dlLo i | dlHi i =>
    simp only [Reg.Present, Reg.offset] at h ⊢
    rw [mapped_table p (by omega) (by omega) (by omega)]
    unfold tableMap
    repeat' first
      | rw [if_pos (by omega)]
      | rw [if_neg (by omega)]
    congr 2
    omega
  case devStateWord j | codecIn j | codecOut j | rxBuf j | txBuf j =>
    simp only [Reg.Present, Reg.offset] at h ⊢
    rw [mapped_table p (by omega) (by omega) (by omega)]
    unfold tableMap
    repeat' first
      | rw [if_pos (by omega)]
      | rw [if_neg (by omega)]
    rw [windowMap_pos (by omega)]
    congr 2
    omega
  all_goals rfl

/-- Where nothing is mapped, 0 is read (R71). -/
theorem memRead_unmapped {s : State} {a : Addr} (h : mapped s.params a = none) : memRead s a = 0 := by simp [memRead, h]

/-- Where a word is mapped, its current value is read; `CMD` reads 0 (R71). -/
theorem memRead_mapped {s : State} {a : Addr} {r : Reg} (h : mapped s.params a = some r) : memRead s a = s.regValue r := by
  rw [memRead, h]
  cases r <;> rfl

/-- A word that exists reads its current value at its offset (R71). -/
theorem memRead_offset {s : State} (hp : s.params.Legal) {r : Reg} (h : r.Present s.params) :
    memRead s (BitVec.ofNat 12 r.offset) = s.regValue r := memRead_mapped (mapped_offset hp h)

@[simp] theorem mapped_cmd (p : Params) : mapped p cmdAddr = some .cmd := rfl

/-- `CMD` stands at one address only (R75). -/
theorem mapped_eq_cmd {p : Params} {a : Addr} (h : mapped p a = some .cmd) : a = cmdAddr := mapped_inj h (mapped_cmd p)

/-- Only `CMD` is write-only (R75). -/
theorem eq_cmd_of_access {r : Reg} (h : r.access = .wo) : r = .cmd := by cases r <;> simp [Reg.access] at h ⊢

theorem staged_setStaged {s : State} {i : Nat} (d : StagedDevice) (h : i < s.staging.devs.length) (j : Nat) :
    (setStaged i d s).staged j = if j = i then d else s.staged j := by
  simp only [State.staged, setStaged, List.getD_eq_getElem?_getD, List.getElem?_set]
  by_cases hj : j = i
  · subst hj
    simp [h]
  · have hi : i ≠ j := fun e => hj e.symm
    simp [hj, hi]

/-- A store in a register that is no window word changes what no other word reads (R79). -/
theorem regValue_storeReg_of_ne {s : State} (hl : s.staging.devs.length = s.params.nDev) {r r' : Reg} (v : Word)
    (ha : r.access = .rw) (hc : ∀ j, r ≠ .codecIn j) (hp : r.Present s.params) (hne : r' ≠ r) :
    (storeReg r v s).regValue r' = s.regValue r' := by
  cases r <;> simp only [Reg.access, reduceCtorEq] at ha <;> simp only [storeReg]
  case devsAf i | devsReg i | devsCyc i =>
    cases r' <;> try rfl
    all_goals
      simp only [State.regValue, staged_setStaged _ (by rw [hl]; exact hp)]
      split
      · simp_all
      · rfl
  case codecIn j => exact absurd rfl (hc j)
  all_goals cases r' <;> first | rfl | exact absurd rfl hne

end Sys2Proof.Machine
end

