-- ==== Sys2Proof/Laws/Codec.lean ====
section
/-! SUPPORT. Lengths and parts of frames. -/

namespace Sys2Proof.Machine

/-- The CRC runs over a sequence from left to right. -/
theorem crc16_append (s t : List Byte) : crc16 (s ++ t) = t.foldl crcByte (crc16 s) := by
  simp [crc16, List.foldl_append]

@[simp] theorem length_frame (s : List Byte) : (frame s).length = s.length + 2 := by simp [frame]

@[simp] theorem length_buildRequestFrame (a f : Byte) (r c : Half) : (buildRequestFrame a f r c).length = 8 := rfl

@[simp] theorem length_buildWriteSingle (a f : Byte) (r : Half) (p : List Byte) :
    (buildWriteSingle a f r p).length = 6 + p.length := by
  simp [buildWriteSingle]
  omega

@[simp] theorem length_buildWriteMultiple (a f : Byte) (r c : Half) (p : List Byte) :
    (buildWriteMultiple a f r c p).length = 9 + p.length := by
  simp [buildWriteMultiple]
  omega

/-- The body of a frame. -/
theorem take_frame (s : List Byte) : (frame s).take ((frame s).length - 2) = s := by simp [frame]

/-- A byte of a frame's body. -/
theorem getD_frame {s : List Byte} {k : Nat} (h : k < s.length) : (frame s).getD k 0 = s.getD k 0 := by
  simp [frame, List.getD_eq_getElem?_getD, List.getElem?_append_left h]

end Sys2Proof.Machine
end

