-- ==== Sys2Proof/Laws/Memory.lean ====
section
/-! SUPPORT. The laws of the byte memory: what a read gives after a write, and that every operation keeps the canonical
form. -/

namespace Sys2Proof.Machine.Memory

theorem wfAbove_cons (lo k : Nat) (v : Byte) (m : Memory) :
    wfAbove lo ((k, v) :: m) = true ↔ lo ≤ k ∧ v ≠ 0 ∧ wfAbove (k + 1) m = true := by
  simp [wfAbove, and_assoc]

theorem wfAbove_mono {lo lo' : Nat} (h : lo ≤ lo') : {m : Memory} → wfAbove lo' m = true → wfAbove lo m = true
  | [], _ => rfl
  | (k, v) :: m, hm => by
    rw [wfAbove_cons] at hm ⊢
    exact ⟨h.trans hm.1, hm.2⟩

/-- Below its lower bound a canonical memory reads 0. -/
theorem read_below {lo a : Nat} (h : a < lo) : {m : Memory} → wfAbove lo m = true → m.read a = 0
  | [], _ => rfl
  | (k, v) :: m, hm => by
    rw [wfAbove_cons] at hm
    have hk : k ≠ a := by omega
    simp [read, hk, read_below (lo := k + 1) (a := a) (by omega) hm.2.2]

theorem wfAbove_write (a : Nat) (b : Byte) : {m : Memory} → {lo : Nat} → lo ≤ a → wfAbove lo m = true →
    wfAbove lo (m.write a b) = true
  | [], lo, hlo, _ => by
    unfold write
    split
    · rfl
    · rename_i hb
      exact (wfAbove_cons ..).2 ⟨hlo, hb, rfl⟩
  | (k, v) :: m, lo, hlo, hm => by
    rw [wfAbove_cons] at hm
    obtain ⟨h1, h2, h3⟩ := hm
    unfold write
    split
    · split
      · exact (wfAbove_cons ..).2 ⟨h1, h2, h3⟩
      · rename_i hak hb
        exact (wfAbove_cons ..).2 ⟨hlo, hb, (wfAbove_cons ..).2 ⟨hak, h2, h3⟩⟩
    · split
      · rename_i hak
        subst hak
        split
        · exact wfAbove_mono (by omega) h3
        · rename_i hb
          exact (wfAbove_cons ..).2 ⟨hlo, hb, h3⟩
      · exact (wfAbove_cons ..).2 ⟨h1, h2, wfAbove_write a b (by omega) h3⟩

/-- A write keeps the canonical form. -/
theorem wf_write {m : Memory} (h : m.wf = true) (a : Nat) (b : Byte) : (m.write a b).wf = true :=
  wfAbove_write a b (Nat.zero_le a) h

theorem read_write_above (a c : Nat) (b : Byte) : {m : Memory} → {lo : Nat} → wfAbove lo m = true →
    (m.write a b).read c = if c = a then b else m.read c
  | [], _, _ => by
    unfold write
    split
    · rename_i hb
      simp [read, hb]
    · simp [read, eq_comm (a := a) (b := c)]
  | (k, v) :: m, lo, hm => by
    rw [wfAbove_cons] at hm
    obtain ⟨-, -, h3⟩ := hm
    unfold write
    split
    · rename_i hak
      split
      · rename_i hb
        by_cases hc : c = a
        · subst hc
          have hk : k ≠ c := by omega
          simp [read, hk, hb, read_below (lo := k + 1) (a := c) (by omega) h3]
        · simp [hc]
      · by_cases hc : c = a
        · simp [read, hc]
        · have hc' : a ≠ c := fun h => hc h.symm
          simp [read, hc, hc']
    · split
      · rename_i hak
        subst hak
        split
        · rename_i hb
          by_cases hc : c = a
          · simp [hc, hb, read_below (lo := a + 1) (a := a) (by omega) h3]
          · have hc' : a ≠ c := fun h => hc h.symm
            simp [read, hc, hc']
        · by_cases hc : c = a
          · simp [read, hc]
          · have hc' : a ≠ c := fun h => hc h.symm
            simp [read, hc, hc']
      · rename_i h1 h2
        by_cases hkc : k = c
        · have hc : c ≠ a := by omega
          simp [read, hkc, hc]
        · simp [read, hkc, read_write_above a c b h3]

/-- A byte read after a write to the canonical memory. -/
theorem read_write {m : Memory} (h : m.wf = true) (a c : Nat) (b : Byte) :
    (m.write a b).read c = if c = a then b else m.read c := read_write_above a c b h

/-! Byte sequences. -/

@[simp] theorem length_readBytes (m : Memory) (a n : Nat) : (m.readBytes a n).length = n := by
  induction n generalizing a with
  | zero => rfl
  | succ n ih => simp [readBytes, ih]

theorem getD_readBytes (m : Memory) (a n k : Nat) : (m.readBytes a n).getD k 0 = if k < n then m.read (a + k) else 0 := by
  induction n generalizing a k with
  | zero => simp [readBytes]
  | succ n ih =>
    cases k with
    | zero => simp [readBytes]
    | succ k =>
      have h := ih (a + 1) k
      simp only [readBytes, List.getD_cons_succ, h, Nat.succ_lt_succ_iff]
      congr 2
      omega

/-- What a byte sequence of memory is depends only on its bytes. -/
theorem readBytes_congr {m m' : Memory} {a n : Nat} (h : ∀ k, k < n → m'.read (a + k) = m.read (a + k)) :
    m'.readBytes a n = m.readBytes a n := by
  induction n generalizing a with
  | zero => rfl
  | succ n ih =>
    have h0 := h 0 (by omega)
    have hs : ∀ k, k < n → m'.read (a + 1 + k) = m.read (a + 1 + k) := fun k hk => by
      have := h (k + 1) (by omega)
      rwa [show a + (k + 1) = a + 1 + k by omega] at this
    simp only [readBytes, ih hs]
    simpa using h0

theorem wf_writeBytes {m : Memory} (h : m.wf = true) (a : Nat) (bs : List Byte) : (m.writeBytes a bs).wf = true := by
  induction bs generalizing m a with
  | nil => exact h
  | cons b bs ih => exact ih (wf_write h a b) (a + 1)

theorem read_writeBytes {m : Memory} (h : m.wf = true) (a c : Nat) (bs : List Byte) :
    (m.writeBytes a bs).read c = if a ≤ c ∧ c < a + bs.length then bs.getD (c - a) 0 else m.read c := by
  induction bs generalizing m a with
  | nil =>
    have : ¬ (a ≤ c ∧ c < a + ([] : List Byte).length) := by simp
    rw [if_neg this]
    rfl
  | cons b bs ih =>
    simp only [writeBytes, ih (wf_write h a b) (a + 1), read_write h, List.length_cons]
    rcases Nat.lt_trichotomy c a with hc | hc | hc
    · rw [if_neg (by omega), if_neg (by omega), if_neg (by omega)]
    · subst hc
      rw [if_neg (by omega), if_pos rfl, if_pos (by omega)]
      simp
    · have hs : c - a = (c - (a + 1)) + 1 := by omega
      by_cases hin : c < a + (bs.length + 1)
      · rw [if_pos (by omega), if_pos (by omega), hs, List.getD_cons_succ]
      · rw [if_neg (by omega), if_neg (by omega), if_neg (by omega)]

@[simp] theorem length_padTo (cap : Nat) (f : List Byte) : (padTo cap f).length = cap := by
  induction cap generalizing f with
  | zero => cases f <;> rfl
  | succ n ih => cases f <;> simp [padTo, ih]

theorem getD_padTo (cap : Nat) (f : List Byte) (k : Nat) : (padTo cap f).getD k 0 = if k < cap then f.getD k 0 else 0 := by
  induction cap generalizing f k with
  | zero => cases f <;> simp [padTo]
  | succ n ih =>
    cases f <;> cases k <;> simp only [padTo, List.getD_cons_zero, List.getD_cons_succ, ih] <;> simp

/-- Filling a window keeps the canonical form. -/
theorem wf_setWindow {m : Memory} (h : m.wf = true) (base cap : Nat) (f : List Byte) :
    (m.setWindow base cap f).wf = true := wf_writeBytes h base _

/-- Filling a window: byte `k` of it is byte `k` of the sequence, 0 past its end; every other byte is as before. -/
theorem read_setWindow {m : Memory} (h : m.wf = true) (base cap c : Nat) (f : List Byte) :
    (m.setWindow base cap f).read c = if base ≤ c ∧ c < base + cap then f.getD (c - base) 0 else m.read c := by
  rw [setWindow, read_writeBytes h, length_padTo]
  split
  · rename_i hc
    rw [getD_padTo, if_pos (by omega)]
  · rfl

/-- The bytes of a window that was filled with a sequence which fits. -/
theorem readBytes_setWindow {m : Memory} (h : m.wf = true) (base cap : Nat) (f : List Byte) (hf : f.length ≤ cap) :
    (m.setWindow base cap f).readBytes base f.length = f := by
  apply List.ext_getElem (by simp)
  intro k h1 h2
  have := getD_readBytes (m.setWindow base cap f) base f.length k
  rw [if_pos h2, read_setWindow h, if_pos (by omega), Nat.add_sub_cancel_left] at this
  simpa [List.getD_eq_getElem?_getD, h1, h2] using this

theorem wf_setWindowByte {m : Memory} (h : m.wf = true) (base cap k : Nat) (b : Byte) :
    (m.setWindowByte base cap k b).wf = true := by
  unfold setWindowByte
  split
  · exact wf_write h _ _
  · exact h

/-- Storing a word in a window keeps the canonical form. -/
theorem wf_setWindowWord {m : Memory} (h : m.wf = true) (base cap j : Nat) (v : Word) :
    (m.setWindowWord base cap j v).wf = true := by
  unfold setWindowWord
  exact wf_setWindowByte (wf_setWindowByte (wf_setWindowByte (wf_setWindowByte h _ _ _ _) _ _ _ _) _ _ _ _) _ _ _ _

theorem read_setWindowByte {m : Memory} (h : m.wf = true) (base cap k c : Nat) (b : Byte) :
    (m.setWindowByte base cap k b).read c = if k < cap ∧ c = base + k then b else m.read c := by
  unfold setWindowByte
  split
  · rename_i hk
    rw [read_write h]
    simp [hk]
  · rename_i hk
    simp [hk]

end Sys2Proof.Machine.Memory
end

