-- ==== Sys2Proof/Laws/Ops.lean ====
section
/-! SUPPORT. One lemma for each shared operation that says everything it can do, and the equations of `workerStep` and
`step`, which later proofs cite instead of unfolding them. -/

namespace Sys2Proof.Machine

/-! Fields packed into a register. -/

/-- A field above the bits of `x`: the register is their sum. -/
theorem toNat_fieldAt_or {n : Nat} (k : Nat) (v : BitVec n) (x : Word) (hx : x.toNat < 2 ^ k) (hn : n + k ≤ 32) :
    (fieldAt k v ||| x).toNat = v.toNat * 2 ^ k + x.toNat := by
  have hm : v.toNat * 2 ^ k < 2 ^ 32 := calc
    _ < 2 ^ n * 2 ^ k := Nat.mul_lt_mul_of_pos_right v.isLt (by positivity)
    _ = 2 ^ (n + k) := (pow_add ..).symm
    _ ≤ 2 ^ 32 := Nat.pow_le_pow_right (by decide) hn
  have hv : v.toNat < 2 ^ 32 := lt_of_le_of_lt (Nat.le_mul_of_pos_right _ (by positivity)) hm
  simp only [fieldAt, BitVec.toNat_or, BitVec.toNat_shiftLeft, BitVec.toNat_setWidth, Nat.shiftLeft_eq,
    Nat.mod_eq_of_lt hv, Nat.mod_eq_of_lt hm]
  rw [← Nat.shiftLeft_eq, Nat.shiftLeft_add_eq_or_of_lt hx]

theorem toNat_or_fieldAt {n : Nat} (k : Nat) (v : BitVec n) (x : Word) (hx : x.toNat < 2 ^ k) (hn : n + k ≤ 32) :
    (x ||| fieldAt k v).toNat = v.toNat * 2 ^ k + x.toNat := by
  rw [BitVec.or_comm]
  exact toNat_fieldAt_or k v x hx hn

theorem toNat_fieldAt_zero {n : Nat} (v : BitVec n) (h : n ≤ 32) : (fieldAt 0 v).toNat = v.toNat := by
  simpa [fieldAt] using BitVec.toNat_setWidth_of_le (b := v) h

theorem bitAt_eq_fieldAt (k : Nat) (b : Bool) : bitAt k b = fieldAt k (BitVec.ofBool b) := by
  cases b <;> simp [bitAt, fieldAt]

/-- Byte `k` of a packed word (R74). -/
theorem byte_packWord (b0 b1 b2 b3 : Byte) {k : Nat} (hk : k < 4) :
    (packWord b0 b1 b2 b3).extractLsb' (8 * k) 8 = [b0, b1, b2, b3].getD k 0 := by
  have hc : k = 0 ∨ k = 1 ∨ k = 2 ∨ k = 3 := by omega
  obtain rfl | rfl | rfl | rfl := hc <;>
    simp only [packWord, fieldAt, List.getD_cons_zero, List.getD_cons_succ] <;>
    (ext i hi; interval_cases i <;> simp)

/-! Errors, events, queues. -/

/-- Recording an error does nothing, or sets `ERR` while it held none (R300). -/
theorem raise_cases (c : ErrCode) (op : Byte) (s : State) :
    (s.errCode ≠ 0 ∧ raise c op s = s) ∨
    (s.errCode = 0 ∧ raise c op s = { s with host.err := fieldAt 8 op ||| c.number }) := by
  unfold raise
  split
  · rename_i h
    exact .inr ⟨h, rfl⟩
  · rename_i h
    exact .inl ⟨h, rfl⟩

/-- `emit` appends to a FIFO with room, or sets `EVT_OVF` (R268). -/
theorem emit_cases (e : Event) (s : State) :
    (s.evtQ.length < s.params.evtDepth ∧ emit e s = { s with evtQ := s.evtQ ++ [e] }) ∨
    (s.params.evtDepth ≤ s.evtQ.length ∧ emit e s = { s with evtOvf := true }) := by
  unfold emit
  split
  · rename_i h
    exact .inl ⟨h, rfl⟩
  · rename_i h
    exact .inr ⟨Nat.le_of_not_lt h, rfl⟩

/-- An attempt publishes nothing, or emits its event (R258). -/
theorem publish_cases (s : State) :
    (s.worker.cls.isFailure = true ∧ s.worker.ctx.attempt = .first ∧ publish s = s) ∨
    ((s.worker.cls.isFailure = false ∨ s.worker.ctx.attempt = .retry) ∧ publish s = emit s.attemptEvent s) := by
  unfold publish
  split
  · rename_i h
    exact .inr ⟨h, rfl⟩
  · rename_i h
    refine .inl ⟨by simpa using fun hf => h (.inl hf), ?_, rfl⟩
    cases ha : s.worker.ctx.attempt with
    | first => rfl
    | retry => exact absurd (.inr ha) h

/-- A received byte is stored, or dropped by a full buffer (R251). -/
theorem rxStep_cases (b : Byte) (s : State) :
    (s.line.rxLen.toNat < s.params.rxCap ∧
      rxStep b s = { s with mem := s.mem.write (rxBase + s.line.rxLen.toNat) b, line.rxLen := s.line.rxLen + 1 }) ∨
    (s.params.rxCap ≤ s.line.rxLen.toNat ∧ rxStep b s = s) := by
  unfold rxStep
  split
  · rename_i h
    exact .inl ⟨h, rfl⟩
  · rename_i h
    exact .inr ⟨Nat.le_of_not_lt h, rfl⟩

/-- The frame-boundary checks: parked, restarted, or the state's own rule (R245). -/
theorem atBoundary_cases (c : Bool) (own : State → Option State) (s : State) :
    (s.run = false ∧ atBoundary c own s = some (goto .wIdle s)) ∨
    (s.run = true ∧ c = true ∧ s.worker.restart = true ∧ atBoundary c own s = some (goto .wPass s)) ∨
    (s.run = true ∧ (c = false ∨ s.worker.restart = false) ∧ atBoundary c own s = own s) := by
  unfold atBoundary
  cases hr : s.run <;> cases c <;> cases hs : s.worker.restart <;> simp

@[simp] theorem relayUsed_append (q : List (List Byte)) (f : List Byte) :
    relayUsed (q ++ [f]) = relayUsed q + (1 + f.length) := by
  induction q with
  | nil => simp [relayUsed]
  | cons g q ih => simp [relayUsed, ih, Nat.add_assoc]

/-! `workerStep` in each control state. -/

theorem workerStep_wIdle {s : State} (h : s.worker.ws = .wIdle) : workerStep s = idleStep s := by simp [workerStep, h]
theorem workerStep_wPass {s : State} (h : s.worker.ws = .wPass) :
    workerStep s = atBoundary false (fun s => some (passStep s)) s := by simp [workerStep, h]
theorem workerStep_wScan {s : State} (h : s.worker.ws = .wScan) :
    workerStep s = atBoundary true (fun s => some (scanStep s)) s := by simp [workerStep, h]
theorem workerStep_wDue {s : State} (h : s.worker.ws = .wDue) : workerStep s = some (dueStep s) := by
  simp [workerStep, h]
theorem workerStep_wDrain {s : State} (h : s.worker.ws = .wDrain) :
    workerStep s = atBoundary true (fun s => some (drainStep s)) s := by simp [workerStep, h]
theorem workerStep_wRwait {s : State} (h : s.worker.ws = .wRwait) : workerStep s = atBoundary true rwaitStep s := by
  simp [workerStep, h]
theorem workerStep_cStart {s : State} (h : s.worker.ws = .cStart) : workerStep s = some (startStep s) := by
  simp [workerStep, h]
theorem workerStep_cTx {s : State} (h : s.worker.ws = .cTx) : workerStep s = txStep s := by simp [workerStep, h]
theorem workerStep_cRxwait {s : State} (h : s.worker.ws = .cRxwait) : workerStep s = rxwaitStep s := by
  simp [workerStep, h]
theorem workerStep_cTurn {s : State} (h : s.worker.ws = .cTurn) : workerStep s = turnStep s := by simp [workerStep, h]
theorem workerStep_cEnd {s : State} (h : s.worker.ws = .cEnd) : workerStep s = some (endStep s) := by
  simp [workerStep, h]

/-! `step`. -/

theorem step_nil {s : State} (h : s.ports.inputs = []) : step s = .next (tickTurn s s) := by simp [step, h, takeTurn]

theorem step_cons {s : State} {inp : Input} {rest : List Input} (h : s.ports.inputs = inp :: rest) :
    step s = takeInput inp rest s := by simp [step, h]

/-- A due tick: the worker's step if it has one, else time passes (R246). -/
theorem tickTurn_cases (taken s : State) :
    (∃ t, workerStep s = some t ∧ tickTurn taken s = t) ∨
    (workerStep s = none ∧ tickTurn taken s = clockStep taken) := by
  unfold tickTurn
  cases h : workerStep s with
  | none => exact .inr ⟨rfl, rfl⟩
  | some t => exact .inl ⟨t, rfl, rfl⟩

end Sys2Proof.Machine
end

