-- ==== Sys2Proof/Laws/PerInstr.lean ====
section
/-! SUPPORT. Facts about every instruction as syntax, one lemma per constructor: its encoding matches its own row of the
opcode map (R100, R102), carries `LEN` in bits 23:16 and `OP` in bits 7:0 (R101). -/

namespace Sys2Proof.Laws

/-- The encoding matches the instruction's row. -/
def RowMatch.Statement (i : Instr) : Prop := i.wellFormed = true → i.opcode.matchesWord (encode i) = true

/-- The encoding carries the operand. -/
def LenField.Statement (i : Instr) : Prop := i.wellFormed = true → lenField (encode i) = i.len

/-- The encoding carries the row's `OP`. -/
def OpField.Statement (i : Instr) : Prop := i.wellFormed = true → opField (encode i) = opField i.opcode.value

theorem lt_of_lenFits {n : Nat} (h : lenFits n = true) : n < 256 := by simpa [lenFits] using h

/-! Rows of format `L` and `W`: every length. -/

theorem rowMatch_at : ∀ o ∈ [Opcode.crcCalc, .crcVerify, .buildWriteS, .buildWriteM, .classify], ∀ n < 256,
    o.matchesWord (o.value ||| (BitVec.ofNat 32 n <<< 16)) = true := by decide +kernel

theorem lenField_at : ∀ o ∈ [Opcode.crcCalc, .crcVerify, .buildWriteS, .buildWriteM, .classify], ∀ n < 256,
    lenField (o.value ||| (BitVec.ofNat 32 n <<< 16)) = n := by decide +kernel

theorem opField_at : ∀ o ∈ [Opcode.crcCalc, .crcVerify, .buildWriteS, .buildWriteM, .classify], ∀ n < 256,
    opField (o.value ||| (BitVec.ofNat 32 n <<< 16)) = opField o.value := by decide +kernel

theorem RowMatch.nop : RowMatch.Statement .nop := fun _ => by decide
theorem RowMatch.crcCalc (n : Nat) : RowMatch.Statement (.crcCalc n) :=
  fun h => rowMatch_at .crcCalc (by decide) n (lt_of_lenFits h)
theorem RowMatch.crcVerify (n : Nat) : RowMatch.Statement (.crcVerify n) :=
  fun h => rowMatch_at .crcVerify (by decide) n (lt_of_lenFits h)
theorem RowMatch.buildRead : RowMatch.Statement .buildRead := fun _ => by decide
theorem RowMatch.buildWriteS (n : Nat) : RowMatch.Statement (.buildWriteS n) :=
  fun h => rowMatch_at .buildWriteS (by decide) n (lt_of_lenFits h)
theorem RowMatch.buildWriteM (n : Nat) : RowMatch.Statement (.buildWriteM n) :=
  fun h => rowMatch_at .buildWriteM (by decide) n (lt_of_lenFits h)
theorem RowMatch.classify (n : Nat) : RowMatch.Statement (.classify n) :=
  fun h => rowMatch_at .classify (by decide) n (lt_of_lenFits h)
theorem RowMatch.relayPush : RowMatch.Statement .relayPush := fun _ => by decide
theorem RowMatch.cfgCommit : RowMatch.Statement .cfgCommit := fun _ => by decide
theorem RowMatch.evtPop : RowMatch.Statement .evtPop := fun _ => by decide
theorem RowMatch.clrErr : RowMatch.Statement .clrErr := fun _ => by decide

theorem LenField.nop : LenField.Statement .nop := fun _ => by decide
theorem LenField.crcCalc (n : Nat) : LenField.Statement (.crcCalc n) :=
  fun h => lenField_at .crcCalc (by decide) n (lt_of_lenFits h)
theorem LenField.crcVerify (n : Nat) : LenField.Statement (.crcVerify n) :=
  fun h => lenField_at .crcVerify (by decide) n (lt_of_lenFits h)
theorem LenField.buildRead : LenField.Statement .buildRead := fun _ => by decide
theorem LenField.buildWriteS (n : Nat) : LenField.Statement (.buildWriteS n) :=
  fun h => lenField_at .buildWriteS (by decide) n (lt_of_lenFits h)
theorem LenField.buildWriteM (n : Nat) : LenField.Statement (.buildWriteM n) :=
  fun h => lenField_at .buildWriteM (by decide) n (lt_of_lenFits h)
theorem LenField.classify (n : Nat) : LenField.Statement (.classify n) :=
  fun h => lenField_at .classify (by decide) n (lt_of_lenFits h)
theorem LenField.relayPush : LenField.Statement .relayPush := fun _ => by decide
theorem LenField.cfgCommit : LenField.Statement .cfgCommit := fun _ => by decide
theorem LenField.evtPop : LenField.Statement .evtPop := fun _ => by decide
theorem LenField.clrErr : LenField.Statement .clrErr := fun _ => by decide

theorem OpField.nop : OpField.Statement .nop := fun _ => by decide
theorem OpField.crcCalc (n : Nat) : OpField.Statement (.crcCalc n) :=
  fun h => opField_at .crcCalc (by decide) n (lt_of_lenFits h)
theorem OpField.crcVerify (n : Nat) : OpField.Statement (.crcVerify n) :=
  fun h => opField_at .crcVerify (by decide) n (lt_of_lenFits h)
theorem OpField.buildRead : OpField.Statement .buildRead := fun _ => by decide
theorem OpField.buildWriteS (n : Nat) : OpField.Statement (.buildWriteS n) :=
  fun h => opField_at .buildWriteS (by decide) n (lt_of_lenFits h)
theorem OpField.buildWriteM (n : Nat) : OpField.Statement (.buildWriteM n) :=
  fun h => opField_at .buildWriteM (by decide) n (lt_of_lenFits h)
theorem OpField.classify (n : Nat) : OpField.Statement (.classify n) :=
  fun h => opField_at .classify (by decide) n (lt_of_lenFits h)
theorem OpField.relayPush : OpField.Statement .relayPush := fun _ => by decide
theorem OpField.cfgCommit : OpField.Statement .cfgCommit := fun _ => by decide
theorem OpField.evtPop : OpField.Statement .evtPop := fun _ => by decide
theorem OpField.clrErr : OpField.Statement .clrErr := fun _ => by decide

end Sys2Proof.Laws
end

