-- ==== Sys2Proof/Laws/Step.lean ====
section
/-! SUPPORT. What a step can do, said once: the host's write by where it lands, and every way a step answers a next state.
Claims over all steps cite these and unfold neither `step` nor the bus. -/

namespace Sys2Proof.Machine

/-! A host write (R72, R73). -/

/-- A host write: a bus access error, a stored value, or a command word. -/
theorem hostWrite_cases (addr : Addr) (size : Nat) (v : Word) (s : State) :
    ((size ≠ 4 ∨ mapped s.params addr = none ∨ ∃ r, mapped s.params addr = some r ∧ r.access = .ro) ∧
      hostWrite addr size v s = .next (busError s)) ∨
    (∃ r, size = 4 ∧ mapped s.params addr = some r ∧ r.access = .rw ∧ hostWrite addr size v s = .next (storeReg r v s)) ∨
    (size = 4 ∧ addr = cmdAddr ∧ hostWrite addr size v s = command v s) := by
  by_cases h4 : size = 4
  · cases hm : mapped s.params addr with
    | none => exact .inl ⟨.inr (.inl rfl), by simp [hostWrite, h4, hm]⟩
    | some r =>
      cases ha : r.access with
      | ro => exact .inl ⟨.inr (.inr ⟨r, rfl, ha⟩), by simp [hostWrite, h4, hm, writeReg, ha]⟩
      | rw => exact .inr (.inl ⟨r, h4, rfl, ha, by simp [hostWrite, h4, hm, writeReg, ha]⟩)
      | wo =>
        have hr := eq_cmd_of_access ha
        subst hr
        exact .inr (.inr ⟨h4, mapped_eq_cmd hm, by simp [hostWrite, h4, hm, writeReg, ha]⟩)
  · exact .inl ⟨.inl h4, by simp [hostWrite, h4]⟩

/-- A command word: its command, or `ILLEGAL_CMD` (R29, R100). -/
theorem command_cases (w : Word) (s : State) :
    (∃ i, decode w = .command i ∧ command w s = exec i s) ∨
    (∃ why, decode w = .rejected why ∧ command w s = .next (raise .illegalCmd (opField w) s)) := by
  unfold command
  cases h : decode w with
  | command i => exact .inl ⟨i, rfl, rfl⟩
  | rejected why => exact .inr ⟨why, rfl, rfl⟩

/-- Every command answers a next state (R12): it records an error, or it has its own effect. -/
theorem exec_cases {i : Instr} {s t : State} (h : exec i s = .next t) :
    (∃ c op, t = raise c op s) ∨ (i = .nop ∧ t = s) ∨
    (∃ n, i = .crcCalc n ∧ n ≤ s.params.cinBytes ∧ t = { s with host.crcResult := crc16 (s.codecIn n) }) ∨
    (∃ n, i = .crcVerify n ∧ n ≤ s.params.cinBytes ∧ t = { s with host.crcOk := verify (s.codecIn n) }) ∨
    (∃ body, (i = .buildRead ∨ ∃ n, i = .buildWriteS n ∨ i = .buildWriteM n) ∧ 4 ≤ body.length ∧
      (body.length + 2 ≤ s.params.maxFrame ∨ body.length = 6) ∧ t = setCodecOut (frame body) s) ∨
    (∃ n x v, i = .classify n ∧ t = { s with host.clsResult := x, host.clsValue := v } ∧
      ∃ c : RespClass, x = clsResultWord n s.argFc c) ∨
    (i = .relayPush ∧ s.host.outLen ≠ 0 ∧ relayUsed s.relayQ + 1 + s.host.outLen.toNat ≤ s.params.relayQBytes ∧
      t = { s with relayQ := s.relayQ ++ [s.codecOut], host.enqFail := false }) ∨
    (i = .relayPush ∧ t = { s with host.enqFail := true }) ∨
    (i = .cfgCommit ∧ s.commitCheck = none ∧ t = acceptCommit s) ∨
    (∃ why idx, i = .cfgCommit ∧ s.commitCheck = some (why, idx) ∧ t = rejectCommit why idx s) ∨
    (i = .evtPop ∧ s.evtQ = [] ∧ t = { s with host.evtHead0 := 0, host.evtHead1 := 0, host.evtHead2 := 0 }) ∨
    (∃ e q, i = .evtPop ∧ s.evtQ = e :: q ∧
      t = { s with evtQ := q, host.evtHead0 := e.head0, host.evtHead1 := e.head1, host.evtHead2 := e.val }) ∨
    (i = .clrErr ∧ t = { s with host.err := 0, evtOvf := false }) := by
  cases i with
  | nop => cases h; simp
  | crcCalc n =>
    simp only [exec, execCrcCalc] at h
    split at h <;> cases h
    · exact .inl ⟨_, _, rfl⟩
    · rename_i hn
      exact .inr (.inr (.inl ⟨n, rfl, Nat.le_of_not_lt hn, rfl⟩))
  | crcVerify n =>
    simp only [exec, execCrcVerify] at h
    split at h
    · cases h
      exact .inl ⟨_, _, rfl⟩
    · rename_i hn
      split at h <;> cases h
      · exact .inl ⟨_, _, rfl⟩
      · exact .inr (.inr (.inr (.inl ⟨n, rfl, Nat.le_of_not_lt hn, rfl⟩)))
  | buildRead =>
    cases h
    exact .inr (.inr (.inr (.inr (.inl ⟨_, .inl rfl, by simp, .inr rfl, rfl⟩))))
  | buildWriteS n =>
    simp only [exec, execBuildWriteS] at h
    split at h <;> cases h
    · exact .inl ⟨_, _, rfl⟩
    · rename_i hn
      refine .inr (.inr (.inr (.inr (.inl ⟨_, .inr ⟨n, .inl rfl⟩, ?_, .inl ?_, rfl⟩)))) <;> simp [State.codecIn]
      omega
  | buildWriteM n =>
    simp only [exec, execBuildWriteM] at h
    split at h <;> cases h
    · exact .inl ⟨_, _, rfl⟩
    · rename_i hn
      refine .inr (.inr (.inr (.inr (.inl ⟨_, .inr ⟨n, .inr rfl⟩, ?_, .inl ?_, rfl⟩)))) <;> simp [State.codecIn]
      omega
  | classify n =>
    simp only [exec, execClassify] at h
    split at h <;> cases h
    · exact .inl ⟨_, _, rfl⟩
    · exact .inr (.inr (.inr (.inr (.inr (.inl ⟨n, _, _, rfl, rfl, _, rfl⟩)))))
  | relayPush =>
    simp only [exec, execRelayPush, State.relayHasRoom, decide_eq_true_eq] at h
    split at h
    · cases h
      exact .inl ⟨_, _, rfl⟩
    · rename_i h0
      split at h <;> cases h
      · rename_i hr
        exact .inr (.inr (.inr (.inr (.inr (.inr (.inl ⟨rfl, h0, hr, rfl⟩))))))
      · exact .inr (.inr (.inr (.inr (.inr (.inr (.inr (.inl ⟨rfl, rfl⟩)))))))
  | cfgCommit =>
    simp only [exec, execCfgCommit] at h
    split at h <;> cases h
    · rename_i why idx hc
      exact .inr (.inr (.inr (.inr (.inr (.inr (.inr (.inr (.inr (.inl ⟨why, idx, rfl, hc, rfl⟩)))))))))
    · rename_i hc
      exact .inr (.inr (.inr (.inr (.inr (.inr (.inr (.inr (.inl ⟨rfl, hc, rfl⟩))))))))
  | evtPop =>
    simp only [exec, execEvtPop] at h
    split at h <;> cases h
    · rename_i hq
      exact .inr (.inr (.inr (.inr (.inr (.inr (.inr (.inr (.inr (.inr (.inl ⟨rfl, hq, rfl⟩))))))))))
    · rename_i e q hq
      exact .inr (.inr (.inr (.inr (.inr (.inr (.inr (.inr (.inr (.inr (.inr (.inl ⟨e, q, rfl, hq, rfl⟩)))))))))))
  | clrErr =>
    cases h
    exact .inr (.inr (.inr (.inr (.inr (.inr (.inr (.inr (.inr (.inr (.inr (.inr ⟨rfl, rfl⟩)))))))))))

/-- Every way the worker steps, with what enables it (R246). -/
theorem workerStep_cases {s t : State} (h : workerStep s = some t) :
    (s.worker.ws = .wIdle ∧ s.run = true ∧ s.cfgValid = true ∧ t = goto .wPass s) ∨
    (s.worker.ws ∈ [.wPass, .wScan, .wDrain, .wRwait] ∧ s.run = false ∧ t = goto .wIdle s) ∨
    (s.worker.ws ∈ [.wScan, .wDrain, .wRwait] ∧ s.run = true ∧ s.worker.restart = true ∧ t = goto .wPass s) ∨
    (s.worker.ws = .wPass ∧ s.run = true ∧ t = passStep s) ∨
    (s.worker.ws = .wScan ∧ s.run = true ∧ s.worker.restart = false ∧ t = scanStep s) ∨
    (s.worker.ws = .wDue ∧ t = dueStep s) ∨
    (s.worker.ws = .wDrain ∧ s.run = true ∧ s.worker.restart = false ∧ t = drainStep s) ∨
    (s.worker.ws = .wRwait ∧ s.run = true ∧ s.worker.restart = false ∧ s.relayQ ≠ [] ∧ t = goto .wDrain s) ∨
    (s.worker.ws = .wRwait ∧ s.run = true ∧ s.worker.restart = false ∧ s.relayQ = [] ∧ s.worker.tEnd ≤ s.now ∧
      t = goto .wPass s) ∨
    (s.worker.ws = .cStart ∧ t = startStep s) ∨
    (s.worker.ws = .cTx ∧ s.line.txOffer = none ∧ s.worker.txIdx < s.worker.txLen ∧ t = offerStep s) ∨
    (s.worker.ws = .cTx ∧ s.line.txOffer = none ∧ s.worker.txIdx = s.worker.txLen ∧ t = switchStep s) ∨
    (s.worker.ws = .cRxwait ∧ s.worker.nextSample ≤ s.now ∧ (0 < s.line.rxLen ∨ s.waitEnd ≤ s.now) ∧
      t = classifyStep s) ∨
    (s.worker.ws = .cRxwait ∧ s.worker.nextSample ≤ s.now ∧ s.line.rxLen = 0 ∧ s.now < s.waitEnd ∧
      t = { s with
        worker.nextSample := minTime (s.worker.nextSample + BitVec.ofNat 64 s.params.rxPollMs) s.waitEnd }) ∨
    (s.worker.ws = .cTurn ∧ s.worker.tEnd ≤ s.now ∧ t = goto .cEnd (rxClear s)) ∨
    (s.worker.ws = .cEnd ∧ s.worker.cls.isFailure = true ∧ s.worker.ctx.attempt = .first ∧
      t = goto .cStart { s with worker.ctx.attempt := .retry }) ∨
    (s.worker.ws = .cEnd ∧ (s.worker.cls.isFailure = false ∨ s.worker.ctx.attempt = .retry) ∧
      s.worker.ctx.src = .poll ∧ t = pollReturn s) ∨
    (s.worker.ws = .cEnd ∧ (s.worker.cls.isFailure = false ∨ s.worker.ctx.attempt = .retry) ∧
      s.worker.ctx.src = .relay ∧ t = relayReturn s) := by
  cases hw : s.worker.ws with
  | wIdle =>
    rw [workerStep_wIdle hw, idleStep] at h
    split at h
    · rename_i hc
      simp only [Bool.and_eq_true] at hc
      simp_all
    · cases h
  | wPass =>
    rw [workerStep_wPass hw] at h
    obtain ⟨hr, he⟩ | ⟨-, hc, -⟩ | ⟨hr, -, he⟩ := atBoundary_cases false (fun s => some (passStep s)) s
    · rw [he] at h
      simp_all
    · cases hc
    · rw [he] at h
      simp_all
  | wScan =>
    rw [workerStep_wScan hw] at h
    obtain ⟨hr, he⟩ | ⟨hr, -, hs, he⟩ | ⟨hr, hs, he⟩ := atBoundary_cases true (fun s => some (scanStep s)) s
    all_goals
      rw [he] at h
      simp_all
  | wDue =>
    rw [workerStep_wDue hw] at h
    simp_all
  | wDrain =>
    rw [workerStep_wDrain hw] at h
    obtain ⟨hr, he⟩ | ⟨hr, -, hs, he⟩ | ⟨hr, hs, he⟩ := atBoundary_cases true (fun s => some (drainStep s)) s
    all_goals
      rw [he] at h
      simp_all
  | wRwait =>
    rw [workerStep_wRwait hw] at h
    obtain ⟨hr, he⟩ | ⟨hr, -, hs, he⟩ | ⟨hr, hs, he⟩ := atBoundary_cases true rwaitStep s
    · rw [he] at h
      simp_all
    · rw [he] at h
      simp_all
    · rw [he, rwaitStep] at h
      split at h
      · simp_all
      · split at h <;> simp_all
  | cStart =>
    rw [workerStep_cStart hw] at h
    simp_all
  | cTx =>
    rw [workerStep_cTx hw, txStep] at h
    split at h
    · cases h
    · split at h
      · simp_all
      · split at h <;> simp_all
  | cRxwait =>
    rw [workerStep_cRxwait hw, rxwaitStep] at h
    split at h
    · cases h
    · rename_i hn
      have hn' : s.worker.nextSample ≤ s.now := by bv_omega
      split at h
      · simp_all
      · rename_i hc
        have h0 : s.line.rxLen = 0 := by bv_omega
        have hs : s.now < s.waitEnd := by bv_omega
        simp_all
  | cTurn =>
    rw [workerStep_cTurn hw, turnStep] at h
    split at h
    · cases h
    · rename_i hn
      have hn' : s.worker.tEnd ≤ s.now := by bv_omega
      simp_all
  | cEnd =>
    rw [workerStep_cEnd hw, endStep] at h
    split at h
    · simp_all
    · rename_i hc
      have hc' : s.worker.cls.isFailure = false ∨ s.worker.ctx.attempt = .retry := by
        cases hf : s.worker.cls.isFailure
        · exact .inl rfl
        · cases ha : s.worker.ctx.attempt
          · exact absurd ⟨hf, ha⟩ hc
          · exact .inr rfl
      rw [returnStep] at h
      split at h <;> simp_all

/-! The step. -/

/-- A write to `CMD` runs the word as a command (R29). -/
theorem step_command {s : State} {w : Word} {rest : List Input} (h : s.ports.inputs = .hostWrite cmdAddr 4 w :: rest) :
    step s = command w (dropInput rest s) := by
  rw [step_cons h]
  simp [takeInput, hostWrite, writeReg, Reg.access]

/-- Every way a step answers a next state. `s'` is the state with the port action taken off the list. -/
theorem step_cases {s t : State} (h : step s = .next t) :
    (∃ s', (s' = s ∨ ∃ rest, s' = dropInput rest s) ∧ workerStep s' = some t) ∨
    (∃ s', (s' = s ∨ ∃ rest, s.ports.inputs = .tick :: rest ∧ s' = dropInput rest s) ∧ workerStep s = none ∧
      t = clockStep s') ∨
    (∃ addr size rest, s.ports.inputs = .hostRead addr size :: rest ∧ t = hostRead addr size (dropInput rest s)) ∨
    (∃ rest, t = busError (dropInput rest s)) ∨
    (∃ addr r v rest, s.ports.inputs = .hostWrite addr 4 v :: rest ∧ mapped s.params addr = some r ∧ r.access = .rw ∧
      t = storeReg r v (dropInput rest s)) ∨
    (∃ w i rest, s.ports.inputs = .hostWrite cmdAddr 4 w :: rest ∧ decode w = .command i ∧
      exec i (dropInput rest s) = .next t) ∨
    (∃ w rest, s.ports.inputs = .hostWrite cmdAddr 4 w :: rest ∧ t = raise .illegalCmd (opField w) (dropInput rest s)) ∨
    (∃ b rest, s.ports.inputs = .rx b :: rest ∧ t = rxStep b (dropInput rest s)) ∨
    (∃ ok rest, s.ports.inputs = .answer ok :: rest ∧ s.line.txOffer ≠ none ∧ t = answerStep ok (dropInput rest s)) ∨
    (∃ rest, s.ports.inputs = .reset :: rest ∧ t = resetStep (dropInput rest s)) := by
  cases hin : s.ports.inputs with
  | nil =>
    rw [step_nil hin] at h
    cases h
    obtain ⟨t, ht, he⟩ | ⟨hn, he⟩ := tickTurn_cases s s
    · exact .inl ⟨s, .inl rfl, he ▸ ht⟩
    · exact .inr (.inl ⟨s, .inl rfl, hn, he⟩)
  | cons inp rest =>
    rw [step_cons hin] at h
    cases inp with
    | hostRead addr size =>
      cases h
      exact .inr (.inr (.inl ⟨addr, size, rest, rfl, rfl⟩))
    | hostWrite addr size v =>
      obtain ⟨-, he⟩ | ⟨r, h4, hm, ha, he⟩ | ⟨h4, haddr, he⟩ := hostWrite_cases addr size v (dropInput rest s)
      · simp only [takeInput, he] at h
        cases h
        exact .inr (.inr (.inr (.inl ⟨rest, rfl⟩)))
      · simp only [takeInput, he] at h
        cases h
        subst h4
        exact .inr (.inr (.inr (.inr (.inl ⟨addr, r, v, rest, rfl, hm, ha, rfl⟩))))
      · simp only [takeInput, he] at h
        subst h4 haddr
        obtain ⟨i, hd, hc⟩ | ⟨why, hd, hc⟩ := command_cases v (dropInput rest s)
        · rw [hc] at h
          exact .inr (.inr (.inr (.inr (.inr (.inl ⟨v, i, rest, rfl, hd, h⟩)))))
        · rw [hc] at h
          cases h
          exact .inr (.inr (.inr (.inr (.inr (.inr (.inl ⟨v, rest, rfl, rfl⟩))))))
    | worker =>
      simp only [takeInput] at h
      split at h
      · rename_i u hu
        cases h
        exact .inl ⟨_, .inr ⟨rest, rfl⟩, hu⟩
      · cases h
    | tick =>
      cases h
      obtain ⟨t, ht, he⟩ | ⟨hn, he⟩ := tickTurn_cases (dropInput rest s) s
      · exact .inl ⟨s, .inl rfl, he ▸ ht⟩
      · exact .inr (.inl ⟨_, .inr ⟨rest, rfl, rfl⟩, hn, he⟩)
    | rx b =>
      cases h
      exact .inr (.inr (.inr (.inr (.inr (.inr (.inr (.inl ⟨b, rest, rfl, rfl⟩)))))))
    | answer ok =>
      simp only [takeInput] at h
      split at h
      · cases h
      · rename_i ho
        cases h
        exact .inr (.inr (.inr (.inr (.inr (.inr (.inr (.inr (.inl ⟨ok, rest, rfl, ho, rfl⟩))))))))
    | reset =>
      cases h
      exact .inr (.inr (.inr (.inr (.inr (.inr (.inr (.inr (.inr ⟨rest, rfl, rfl⟩))))))))

/-- A run can be lengthened at its front. -/
theorem reachesWhile_head {P : State → Prop} {s u t : State} (h : ReachesWhile P u t) (hp : P s) (hs : step s = .next u) :
    ReachesWhile P s t := by
  induction h with
  | refl => exact .step (.refl _) hp hs
  | step _ hq hst ih => exact .step ih hq hst

end Sys2Proof.Machine
end

