-- ==== Sys2Proof/Tests/Slice0.lean ====
section
/-! SUPPORT. Small checks with expected results from the spec (95_test_vectors.md unless another file is named), and for
every statement of Certificates/Slice0/Obligations.lean that has hypotheses a concrete state and operands that meet them. -/

namespace Sys2Proof.Machine

-- Many kernel evaluations stand here: one after another, or each waits in a thread of its own.
set_option Elab.async false

/-! Helpers: small states. -/

/-- The block with the host about to write `w` to `CMD`. -/
def hostWrites (w : Word) (s : State) : State := s.withFetchWord 32 w.toNat

/-- The block with one port action to come. -/
def withInput (i : Input) (s : State) : State := { s with ports.inputs := [i] }

/-- The outcome as an option. -/
def next? : Host.Outcome State Fault Refusal → Option State
  | .next s => some s
  | .fault _ => none
  | .refused _ => none

/-- Some quantity of the state after the step, none if the block stops. -/
def after {α : Type} (f : State → α) (s : State) : Option α := (next? (step s)).map f

/-- After reset, with `CODEC_IN` and the arguments set. -/
def loaded (input : List Byte) (a0 a1 a2 : Word) : State :=
  { State.reset with
    mem := Memory.writeBytes [] codecInBase input, host.arg0 := a0, host.arg1 := a1, host.arg2 := a2 }

/-- The frame of section 1.1. -/
def requestBytes : List Byte := [0x01, 0x03, 0x00, 0x00, 0x00, 0x01, 0x84, 0x0A]

/-- A response of section 2.5. -/
def responseBytes : List Byte := [0x01, 0x03, 0x02, 0x12, 0x34, 0xB5, 0x33]

/-- The combined response of section 1.5. -/
def combinedBytes : List Byte := [0x01, 0x03, 0x04, 0x01, 0x02, 0x03, 0x04, 0x5B, 0x3C]

/-- The staging configuration of section 2.7. -/
def goodStaging : Staging :=
  { ver := 1, baud := 9600, format := 0x18, timing := 0, count := 1
    devs := { af := 0x0301, reg := 0, cyc := 0x0A } :: List.replicate 15 StagedDevice.zero }

def stagedState : State := { State.reset with staging := goodStaging }

/-- A configured, running block with its worker in `w`, one polled device, time 50. -/
def running (w : WorkerState) : State :=
  { State.reset with
    ctrl := 1, cfgValid := true, now := 50, worker.ws := w, worker.passNow := 50
    active :=
      { count := 1, ifs := 5, timeout := 1000
        devs := { addr := 1, fc := 3, reg := 0, cycle := 0x0A } :: List.replicate 15 Device.zero } }

/-- A poll transaction of device 0 with its request loaded, in worker state `w`. -/
def polling (w : WorkerState) : State :=
  { running w with
    mem := Memory.writeBytes [] txBase requestBytes, worker.txLen := 8
    worker.ctx := { dev := 0, attempt := .first, src := .poll, reqAddr := 1, reqFc := 3, flags := 0x0A }
    sched.devStates := .polling :: List.replicate 15 .idle
    line.dir := decide (w = .cTx) }

/-- A relay transaction. -/
def relaying (w : WorkerState) : State :=
  { polling w with
    relayQ := [requestBytes], sched.devStates := List.replicate 16 .idle
    worker.ctx := { dev := 0xFF, attempt := .first, src := .relay, reqAddr := 1, reqFc := 3, flags := 0 } }

/-- The event of section 2.8. -/
def sampleEvent : Event := { kind := .value, dev := 2, subch := 0, fc := 3, cls := .value, val := 0x1234 }

/-! WellFormed: each check with a term it refuses and the largest it takes (R101). -/

theorem test_wf_crcCalc : (Instr.crcCalc 256).wellFormed = false ∧ (Instr.crcCalc 255).wellFormed = true := by decide
theorem test_wf_crcVerify : (Instr.crcVerify 256).wellFormed = false ∧ (Instr.crcVerify 255).wellFormed = true := by decide
theorem test_wf_buildWriteS : (Instr.buildWriteS 256).wellFormed = false ∧ (Instr.buildWriteS 255).wellFormed = true := by
  decide
theorem test_wf_buildWriteM : (Instr.buildWriteM 256).wellFormed = false ∧ (Instr.buildWriteM 255).wellFormed = true := by
  decide
theorem test_wf_classify : (Instr.classify 256).wellFormed = false ∧ (Instr.classify 255).wellFormed = true := by decide
theorem test_wf_no_operand : [Instr.nop, .buildRead, .relayPush, .cfgCommit, .evtPop, .clrErr].all Instr.wellFormed = true := by
  decide

/-! Decode: words written out from R101 and R102 as `0x00 ++ LEN ++ 0b0000000 ++ MULT ++ OP`. -/

theorem test_decode_nop : decode (0x00#8 ++ 0x00#8 ++ 0#7 ++ 0#1 ++ 0x00#8) = .command .nop := by decide
theorem test_decode_crcCalc : decode (0x00#8 ++ 0x09#8 ++ 0#7 ++ 0#1 ++ 0x01#8) = .command (.crcCalc 9) := by decide
theorem test_decode_crcVerify : decode (0x00#8 ++ 0x08#8 ++ 0#7 ++ 0#1 ++ 0x02#8) = .command (.crcVerify 8) := by decide
theorem test_decode_buildRead : decode (0x00#8 ++ 0x00#8 ++ 0#7 ++ 0#1 ++ 0x03#8) = .command .buildRead := by decide
theorem test_decode_buildWriteS : decode (0x00#8 ++ 0x1A#8 ++ 0#7 ++ 0#1 ++ 0x04#8) = .command (.buildWriteS 26) := by
  decide
theorem test_decode_buildWriteM : decode (0x00#8 ++ 0xFF#8 ++ 0#7 ++ 1#1 ++ 0x04#8) = .command (.buildWriteM 255) := by
  decide
theorem test_decode_classify : decode (0x00#8 ++ 0x20#8 ++ 0#7 ++ 0#1 ++ 0x05#8) = .command (.classify 32) := by decide
theorem test_decode_relayPush : decode (0x00#8 ++ 0x00#8 ++ 0#7 ++ 0#1 ++ 0x06#8) = .command .relayPush := by decide
theorem test_decode_cfgCommit : decode (0x00#8 ++ 0x00#8 ++ 0#7 ++ 0#1 ++ 0x07#8) = .command .cfgCommit := by decide
theorem test_decode_evtPop : decode (0x00#8 ++ 0x00#8 ++ 0#7 ++ 0#1 ++ 0x08#8) = .command .evtPop := by decide
theorem test_decode_clrErr : decode (0x00#8 ++ 0x00#8 ++ 0#7 ++ 0#1 ++ 0x09#8) = .command .clrErr := by decide

/-- Section 2.9: words that are no command. -/
theorem test_decode_rejects :
    [0x0000000A, 0x000000FF, 0x00010000, 0x00010003, 0x00000105, 0x80000001, 0x00040304, 0x01040104].map
      (fun w => decodeTableWord 32 w) = [none, none, none, none, none, none, none, none] := by decide

theorem test_decodeTableWord : decodeTableWord 32 0x00040104 = some (.buildWriteM 4) := by decide

/-! One step for each instruction. -/

/-- 45_control.md R290. -/
theorem test_nop : after (fun t => decide (t = State.reset)) (hostWrites 0x00000000 State.reset) = some true := by
  decide +kernel

/-- Section 2.1. -/
theorem test_crcCalc_check_value :
    after (fun t => memRead t 0x030)
      (hostWrites 0x00090001 (loaded [0x31, 0x32, 0x33, 0x34, 0x35, 0x36, 0x37, 0x38, 0x39] 0 0 0)) = some 0x00004B37 := by
  decide +kernel
theorem test_crcCalc_oversize : after (fun t => t.host.err) (hostWrites 0x00210001 State.reset) = some 0x00000102 := by
  decide +kernel

/-- Section 2.2. -/
theorem test_crcVerify_true : after (fun t => t.host.crcOk) (hostWrites 0x00080002 (loaded requestBytes 0 0 0)) = some true := by
  decide +kernel
theorem test_crcVerify_badLen : after (fun t => t.host.err) (hostWrites 0x00010002 State.reset) = some 0x00000203 := by
  decide +kernel

/-- Section 2.3. -/
theorem test_buildRead :
    after (fun t => (t.codecOut, t.host.outLen)) (hostWrites 0x00000003 (loaded [] 0x00000311 0x0003006B 0)) =
      some ([0x11, 0x03, 0x00, 0x6B, 0x00, 0x03, 0x76, 0x87], 8) := by decide +kernel
theorem test_buildRead_window :
    after (fun t => (memRead t 0x900, memRead t 0x904, memRead t 0x908))
      (hostWrites 0x00000003 (loaded [] 0x00000301 0x00010000 0)) = some (0x00000301, 0x0A840100, 0) := by decide +kernel

/-- Section 2.4. -/
theorem test_buildWriteS :
    after (fun t => t.codecOut) (hostWrites 0x00020004 (loaded [0xFF, 0x00] 0x00000501 0x000000AC 0)) =
      some [0x01, 0x05, 0x00, 0xAC, 0xFF, 0x00, 0x4C, 0x1B] := by decide +kernel
theorem test_buildWriteS_oversize : after (fun t => t.host.err) (hostWrites 0x001B0004 State.reset) = some 0x00000402 := by
  decide +kernel
theorem test_buildWriteM :
    after (fun t => t.codecOut) (hostWrites 0x00020104 (loaded [0xCD, 0x01] 0x00000F01 0x000A0013 0)) =
      some [0x01, 0x0F, 0x00, 0x13, 0x00, 0x0A, 0x02, 0xCD, 0x01, 0x72, 0xCB] := by decide +kernel
theorem test_buildWriteM_oversize : after (fun t => t.host.err) (hostWrites 0x00180104 State.reset) = some 0x00000402 := by
  decide +kernel

/-- Section 2.5: the two flags both set, and the first five bytes only. -/
theorem test_classify_flags :
    after (fun t => (t.host.clsResult, t.host.clsValue)) (hostWrites 0x00090005 (loaded combinedBytes 0x00000301 0 0xE000)) =
      some (0x80090300, 0x02010403) := by decide +kernel
theorem test_classify_crcError :
    after (fun t => (t.host.clsResult, t.host.clsValue)) (hostWrites 0x00050005 (loaded combinedBytes 0x00000301 0 0x6000)) =
      some (0x80050303, 0x33210201) := by decide +kernel

/-- Section 2.6: the fifth push of a 13-byte frame does not fit. -/
theorem test_relayPush_full :
    after (fun t => (memRead t 0x054, t.host.enqFail))
      (hostWrites 0x00000006
        { State.reset with host.outLen := 13, relayQ := List.replicate 4 (List.replicate 13 0x01) }) =
      some (0x00040038, true) := by decide +kernel
theorem test_relayPush_badLen : after (fun t => t.host.err) (hostWrites 0x00000006 State.reset) = some 0x00000603 := by
  decide +kernel

/-- Section 2.7: 300 baud, 9E2; a function code that may not be polled, at device 2. -/
theorem test_cfgCommit_timing :
    after (fun t => (t.active.ifs, t.active.timeout, t.cfgValid))
      (hostWrites 0x00000007 { stagedState with staging.baud := 300, staging.format := 0x129 }) =
      some (152, 1000, true) := by decide +kernel
theorem test_cfgCommit_rejects :
    after (fun t => (t.host.err, t.host.cfgStatus))
      (hostWrites 0x00000007 { stagedState with
        staging.count := 3
        staging.devs := [⟨0x0301, 0, 0⟩, ⟨0x0302, 0, 0⟩, ⟨0x0603, 0, 0⟩] ++ List.replicate 13 StagedDevice.zero }) =
      some (0x00000704, 0x00000207) := by decide +kernel

/-- Section 2.8. -/
theorem test_evtPop :
    after (fun t => (t.host.evtHead0, t.host.evtHead1, t.host.evtHead2, t.evtQ))
      (hostWrites 0x00000008 { State.reset with evtQ := [sampleEvent] }) =
      some (0x03000201, 0, 0x00001234, []) := by decide +kernel
theorem test_clrErr :
    after (fun t => (t.host.err, t.evtOvf, t.host.enqFail, t.host.crcOk))
      (hostWrites 0x00000009
        { State.reset with host.err := 0x00000401, evtOvf := true, host.enqFail := true, host.crcOk := true }) =
      some (0, false, true, true) := by decide +kernel

/-! The bus (section 2.9; 10_state.md R33 for the parameter words). -/

theorem test_illegal_word : after (fun t => t.host.err) (hostWrites 0x00010003 State.reset) = some 0x00000301 := by
  decide +kernel
theorem test_bad_writes :
    [(0x000, 4), (0x026, 4), (0x078, 4), (0x200, 4), (0x900, 4), (0x024, 2)].map
      (fun c => after (fun t => t.host.err) (withInput (.hostWrite (BitVec.ofNat 12 c.1) c.2 1) State.reset)) =
      List.replicate 6 (some 0x0000FF05) := by decide +kernel
theorem test_parameter_words :
    (memRead State.reset 0x000, memRead State.reset 0x008, memRead State.reset 0x00C, memRead State.reset 0x010) =
      (0x4D525455, 0x08202010, 0x00640040, 0x0001000A) := by decide +kernel
theorem test_ctrl_keeps_three_bits :
    after (fun t => t.ctrl) (withInput (.hostWrite 0x014 4 0xFFFFFFFF) State.reset) = some 7 := by decide +kernel

/-! The worker: section 1.6 and 1.7 (42_scheduler.md R221, 44_cycle_controller.md R258, R264). -/

theorem test_due_deadline :
    after (fun t => (t.deadline 0, t.devState 0)) { running .wScan with now := 1003, worker.passNow := 1003 } =
      some (2003, .due) := by decide +kernel
theorem test_first_timeout_publishes_nothing :
    after (fun t => (t.worker.cls, t.evtQ)) { polling .cRxwait with now := 1050, worker.t0 := 50, worker.nextSample := 1050 } =
      some (.noResponse, []) := by decide +kernel
theorem test_second_timeout_publishes_one :
    after (fun t => t.evtQ)
      { polling .cRxwait with
        now := 1050, worker.t0 := 50, worker.nextSample := 1050, worker.ctx.attempt := .retry } =
      some [{ kind := .diagnostic, dev := 0, subch := 0, fc := 3, cls := .noResponse, val := 0 }] := by decide +kernel
theorem test_received_response :
    after (fun t => (t.worker.cls, t.worker.val, t.worker.tEnd))
      { polling .cRxwait with mem := Memory.writeBytes [] rxBase responseBytes, line.rxLen := 7 } =
      some (.value, 0x1234, 55) := by decide +kernel

/-! Witnesses: the hypotheses of the statements can be met. The name says the statement. -/

theorem witness_DecodeOfEncodeIsTheInstruction :
    (∀ n ∈ [0, 255], (Instr.crcCalc n).wellFormed = true ∧ (Instr.buildWriteM n).wellFormed = true) ∧
    Instr.evtPop.wellFormed = true := by decide
theorem witness_EncodeOfDecodeIsTheWord : decode 0x00FF0104 = .command (.buildWriteM 255) := by decide

theorem witness_CommandWordRunsItsRowOrIsIllegal :
    (hostWrites 0x00FF0001 State.reset).Pending (.hostWrite cmdAddr 4 0x00FF0001) [] ∧
    (0x00FF0001 : Word) &&& Opcode.mask .crcCalc = Opcode.value .crcCalc := by decide
theorem witness_CommandWordRunsItsRowOrIsIllegal_noRow :
    (hostWrites 0x0000000A State.reset).Pending (.hostWrite cmdAddr 4 0x0000000A) [] ∧
    (∀ o ∈ Opcode.all, (0x0000000A : Word) &&& o.mask ≠ o.value) ∧ State.reset.errCode = 0 ∧
    { State.reset with host.err := 0x0000FF05 }.errCode ≠ 0 := by decide

theorem witness_StepRunsTheDecodedCommand :
    (hostWrites 0x00040104 State.reset).Pending (.hostWrite cmdAddr 4 0x00040104) [] ∧
    decode 0x00040104 = .command (.buildWriteM 4) := by decide

theorem witness_FirstErrorWins :
    State.reset.errCode = 0 ∧ { State.reset with host.err := 0x00000102 }.errCode ≠ 0 ∧
    (after (fun t => t.host.err) (hostWrites 0x0000000A { State.reset with host.err := 0x00000102 }) =
      some 0x00000102) := by decide +kernel

theorem witness_EvtPopMovesTheOldestEvent :
    State.reset.evtQ = [] ∧ { State.reset with evtQ := [sampleEvent] }.evtQ = sampleEvent :: [] := by decide

theorem witness_CrcCalcStoresTheCrc :
    (0x00200001 : Word) &&& 0xFF00FFFF = 0x00000001 ∧ 0 ≤ State.reset.params.cinBytes ∧
    32 ≤ State.reset.params.cinBytes ∧ State.reset.params.cinBytes < 33 := by decide
theorem witness_CrcVerifySetsCrcOk :
    (0x00200002 : Word) &&& 0xFF00FFFF = 0x00000002 ∧ 2 ≤ State.reset.params.cinBytes ∧
    32 ≤ State.reset.params.cinBytes ∧ State.reset.params.cinBytes < 33 ∧ (1 ≤ State.reset.params.cinBytes ∧ 1 < 2) := by
  decide
theorem witness_BuildReadFramesTheRequest : State.reset.params.Legal ∧ (loaded responseBytes 0 0 0).mem.wf = true := by decide
theorem witness_BuildWriteSFramesThePayload :
    (0x001A0004 : Word) &&& 0xFF00FFFF = 0x00000004 ∧ State.reset.params.Legal ∧ State.reset.mem.wf = true ∧
    6 + 26 ≤ State.reset.params.maxFrame ∧ State.reset.params.maxFrame < 6 + 27 := by decide
theorem witness_BuildWriteMFramesThePayload :
    (0x00170104 : Word) &&& 0xFF00FFFF = 0x00000104 ∧ State.reset.params.Legal ∧ State.reset.mem.wf = true ∧
    9 + 23 ≤ State.reset.params.maxFrame ∧ State.reset.params.maxFrame < 9 + 24 := by decide

/-- Section 1.1, bit 7 of byte 0 and bit 0 of the last byte; and the shortest frame `FF FF` of section 2.2. -/
theorem witness_SingleBitFlipBreaksVerify :
    2 ≤ requestBytes.length ∧ verify requestBytes = true ∧ 7 < requestBytes.length ∧ verify [0xFF, 0xFF] = true := by
  decide +kernel

theorem witness_ClassifyValidatesInOrder :
    [0x01, 0x03, 0x02, 0x00].length ≤ 4 ∧
    crc16 [0x01, 0x03, 0x02, 0x12, 0x34] ≠ 0x0000 ∧ crc16 ([0x02, 0x03, 0x02, 0x12, 0x34] : List Byte) = 0x33F1 ∧
    ([0x02, 0x03, 0x02, 0x12, 0x34, 0xF1, 0x33] : List Byte).getD 0 0 ≠ 0x01 := by decide +kernel

theorem witness_ClassifyDecodesBitReads :
    PassesValidation [0x01, 0x01, 0x01, 0x05, 0x91, 0x8B] 1 1 ∧
    PassesValidation [0x01, 0x01, 0x02, 0x05, 0x01, 0x7B, 0x6C] 1 1 := by decide +kernel
theorem witness_ClassifyDecodesRegisterReads :
    PassesValidation responseBytes 1 3 ∧ PassesValidation combinedBytes 1 3 ∧
    (0xE000 : Word).getLsbD 13 = true ∧ (0xE000 : Word).getLsbD 14 = true := by decide +kernel
theorem witness_ClassifyDecodesOtherCodes :
    PassesValidation [0x01, 0x07, 0x6D, 0xE3, 0xDD] 1 7 ∧
    PassesValidation [0x01, 0x05, 0x00, 0xAC, 0xFF, 0x00, 0x4C, 0x1B] 1 5 ∧
    PassesValidation [0x01, 0x08, 0x00, 0x00, 0x12, 0x34, 0xED, 0x7C] 1 8 := by decide +kernel
theorem witness_ClassifyReadsOnlyThreeFlags :
    (0x00006005 : Word) &&& 0x0000E000 = 0xFFFF7FFF &&& 0x0000E000 := by decide
theorem witness_ExceptionResponsesAndEchoes :
    5 ≤ ([0x01, 0x83, 0x02, 0xC0, 0xF1] : List Byte).length ∧ verify [0x01, 0x83, 0x02, 0xC0, 0xF1] = true ∧
    (0x83 : Byte) = 0x03 ||| 0x80 ∧ PassesValidation responseBytes 1 3 := by decide +kernel
theorem witness_ClassifyCommandWritesTheResult :
    (0x00200005 : Word) &&& 0xFF00FFFF = 0x00000005 ∧ State.reset.params.Legal ∧ 32 ≤ State.reset.params.cinBytes ∧
    State.reset.params.cinBytes < 33 := by decide

/-- A check of R210, computed. -/
theorem witness_AcceptedCommitActivatesTheStaging :
    stagedState.staging.devs.length = stagedState.params.nDev ∧ ∀ why, stagedState.passes why := by
  refine ⟨by decide, fun why => ?_⟩
  cases why <;> unfold State.passes <;> decide

/-- The word length check is the first to fail. -/
theorem witness_CommitAcceptsOrReportsTheFirstFailure :
    ¬ { stagedState with staging.format := 0x17 }.passes .wordLen ∧
    ∀ earlier : CfgReason, earlier.number.toNat < CfgReason.wordLen.number.toNat →
      { stagedState with staging.format := 0x17 }.passes earlier := by
  refine ⟨by unfold State.passes; decide, fun earlier h => ?_⟩
  cases earlier <;> first | (unfold State.passes; decide) | (exact absurd h (by decide))

/-- The first check fails; the function code check fails, at the last device checked. An accepted commit is witnessed
above. -/
theorem witness_CommitAcceptsOrReportsTheFirstFailure_ends :
    ¬ { stagedState with staging.ver := 2 }.passes .version ∧
    ¬ { stagedState with staging.count := 2 }.passes .functionCode ∧
    ∀ earlier : CfgReason, earlier ≠ .functionCode → { stagedState with staging.count := 2 }.passes earlier := by
  refine ⟨by unfold State.passes; decide, by unfold State.passes; decide, fun earlier h => ?_⟩
  cases earlier <;> first | (unfold State.passes; decide) | (exact absurd rfl h)

theorem witness_AcceptedCommitActivatesTheStaging_timing :
    (∀ why, { stagedState with staging.timing := 0x812C0032 }.passes why) ∧
    (0x812C0032 : Word).getLsbD 31 = true ∧ stagedState.staging.timing.getLsbD 31 = false := by
  refine ⟨fun why => ?_, by decide, by decide⟩
  cases why <;> unfold State.passes <;> decide

theorem witness_IdleBoundaryAndPassSteps :
    ((running .wIdle).ctrl.getLsbD 0 = true ∧ (running .wIdle).cfgValid = true) ∧ State.reset.ctrl.getLsbD 0 = false ∧
    (∀ w ∈ [WorkerState.wPass, .wScan, .wDrain, .wRwait], { running w with ctrl := 6 }.ctrl.getLsbD 0 = false) ∧
    { running .wRwait with worker.restart := true }.worker.restart = true := by decide

theorem witness_ScanStepArmsDueDevices :
    TablesOk (running .wScan) ∧
    (running .wScan).active.count.toNat ≤ { running .wScan with worker.scanI := 1 }.worker.scanI.toNat ∧
    (running .wScan).worker.passNow.toNat <
      ({ running .wScan with sched.deadlines := 51 :: List.replicate 15 0 }.deadline 0).toNat ∧
    ((running .wScan).deadline 0).toNat ≤ (running .wScan).worker.passNow.toNat ∧
    (((running .wScan).device 0).cycle.extractLsb' 0 12).toNat ≠ 0 := by decide +kernel

/-- A device with `MAG = 0` that is Due all along (no run reaches this state). -/
theorem witness_MagZeroNeverBecomesDue :
    (workerStep { State.reset with ctrl := 1, worker.ws := .wPass, sched.devStates := [.due] }).map (fun t => t.devState 0) =
      some .due ∧ ((State.reset.device 0).cycle.extractLsb' 0 12).toNat = 0 := by decide +kernel

theorem witness_DueStepLoadsTheRequest :
    (running .wDue).params.Legal ∧ (running .wDue).mem.wf = true ∧ TablesOk (running .wDue) ∧
    (running .wDue).worker.scanI.toNat < (running .wDue).params.nDev := by decide +kernel

/-- One witness for every kind of change. -/
theorem witness_DeadlinesChangeOnlyWhenDueOrCommitted :
    after (fun t => t.deadline 0) (running .wScan) = some 1050 ∧
    after (fun t => (t.deadline 0, t.cfgValid))
      (hostWrites 7 { stagedState with sched.deadlines := 9 :: List.replicate 15 0 }) = some (0, true) := by decide +kernel

theorem witness_RelayPushEnqueuesAllOrNothing :
    relayUsed [List.replicate 50 (0x01 : Byte)] + 1 + 12 ≤ State.reset.params.relayQBytes ∧
    State.reset.params.relayQBytes < relayUsed [List.replicate 50 (0x01 : Byte)] + 1 + 13 ∧
    State.reset.host.outLen = 0 := by decide

/-- One witness for every kind of change: both queues grow and shrink, the full FIFO overflows, `CLR_ERR` and reset clear. -/
theorem witness_QueuesAreFirstInFirstOut :
    after (fun t => t.relayQ) { relaying .cEnd with worker.cls := .value } = some [] ∧
    after (fun t => t.relayQ.length) (hostWrites 6 { State.reset with host.outLen := 8 }) = some 1 ∧
    after (fun t => (t.evtQ.length, t.evtOvf))
      { polling .cRxwait with now := 1050, worker.t0 := 50, worker.ctx.attempt := .retry, evtQ := List.replicate 7 sampleEvent } =
      some (8, false) ∧
    after (fun t => (t.evtQ.length, t.evtOvf))
      { polling .cRxwait with now := 1050, worker.t0 := 50, worker.ctx.attempt := .retry, evtQ := List.replicate 8 sampleEvent } =
      some (8, true) ∧
    after (fun t => (t.evtQ, t.evtOvf)) (hostWrites 8 { State.reset with evtOvf := true, evtQ := [sampleEvent] }) =
      some ([], true) ∧
    after (fun t => t.evtOvf) (hostWrites 9 { State.reset with evtOvf := true }) = some false ∧
    after (fun t => (t.evtQ, t.evtOvf)) (withInput .reset { State.reset with evtOvf := true, evtQ := [sampleEvent] }) =
      some ([], false) := by decide +kernel

theorem witness_DrainAndShortWait :
    (running .wDrain).ctrl.getLsbD 0 = true ∧ (running .wDrain).worker.restart = false ∧
    (running .wDrain).params.Legal ∧ { running .wDrain with relayQ := [requestBytes] }.relayQ = requestBytes :: [] ∧
    requestBytes.length ≤ (running .wDrain).params.maxFrame ∧
    (running .wDrain).now.toNat + (running .wDrain).params.relayWaitMs < 2 ^ 64 ∧
    (workerStep { running .wRwait with worker.tEnd := 51 }).isNone = true ∧
    (workerStep { running .wRwait with worker.tEnd := 50 }).isSome = true := by decide +kernel

theorem witness_StartTransmitAndSwitch :
    (polling .cStart).mem.wf = true ∧
    ((polling .cTx).line.txOffer = none ∧ (polling .cTx).worker.txIdx.toNat < (polling .cTx).worker.txLen.toNat) ∧
    { polling .cTx with worker.txIdx := 8 }.worker.txIdx = (polling .cTx).worker.txLen ∧
    (withInput (.answer false) { polling .cTx with line.txOffer := some 0x01 }).Pending (.answer false) [] := by
  decide +kernel

theorem witness_ResponseWaitAndClassification :
    ((polling .cRxwait).worker.t0.toNat + (polling .cRxwait).active.timeout.toNat < 2 ^ 64 ∧
      51 + (polling .cRxwait).params.rxPollMs < 2 ^ 64 ∧
      (polling .cRxwait).now.toNat + (polling .cRxwait).active.ifs.toNat < 2 ^ 64) ∧
    (polling .cRxwait).now.toNat < { polling .cRxwait with worker.nextSample := 51 }.worker.nextSample.toNat ∧
    ((polling .cRxwait).worker.nextSample.toNat ≤ (polling .cRxwait).now.toNat ∧
      (polling .cRxwait).now.toNat < (polling .cRxwait).worker.t0.toNat + (polling .cRxwait).active.timeout.toNat) ∧
    (polling .cRxwait).evtQ.length < (polling .cRxwait).params.evtDepth ∧
    (polling .cRxwait).params.evtDepth ≤ { polling .cRxwait with evtQ := List.replicate 8 sampleEvent }.evtQ.length := by
  decide +kernel

theorem witness_TurnaroundRetryAndReturn :
    (workerStep { polling .cTurn with worker.tEnd := 51 }).isNone = true ∧
    ((polling .cTurn).worker.tEnd.toNat ≤ (polling .cTurn).now.toNat ∧ (polling .cTurn).mem.wf = true) ∧
    ({ polling .cEnd with worker.cls := .crcError }.worker.cls ∉ [RespClass.value, .actorResponse] ∧
      (polling .cEnd).worker.ctx.attempt = .first) ∧
    (relaying .cEnd).worker.ctx.src = .relay ∧
    (polling .cEnd).worker.ctx.dev.toNat < (polling .cEnd).sched.devStates.length := by decide +kernel

/-- A step from every worker state. -/
theorem witness_WorkerFollowsItsLoop :
    [running .wIdle, running .wPass, running .wScan, running .wDue, running .wDrain, running .wRwait, polling .cStart,
      polling .cTx, polling .cRxwait, polling .cTurn, polling .cEnd].map (fun s => (workerStep s).map (fun t => t.worker.ws)) =
    [some .wPass, some .wScan, some .wDue, some .cStart, some .wRwait, some .wPass, some .cTx, some .cTx, some .cRxwait,
      some .cEnd, some .wScan] := by decide +kernel

theorem witness_RxLineAppendsOrDrops :
    (withInput (.rx 0xA5) { State.reset with line.rxLen := 31 }).Pending (.rx 0xA5) [] ∧
    { State.reset with line.rxLen := 31 }.line.rxLen.toNat < State.reset.params.rxCap ∧
    State.reset.params.rxCap ≤ { State.reset with line.rxLen := 32 }.line.rxLen.toNat ∧ State.reset.params.Legal := by
  decide

theorem witness_WorkerAndClockTurns :
    (withInput .worker (running .wPass)).Pending .worker [] ∧ (workerStep (running .wPass)).isSome = true ∧
    (withInput .tick State.reset).Pending .tick [] ∧ workerStep (withInput .tick State.reset) = none ∧
    State.reset.ports.inputs = [] := by decide +kernel

/-- The last tick before the wrap. -/
theorem witness_TimePassesOnlyWhileTheWorkerWaits :
    LineOk State.reset ∧ after (fun t => t.now) (withInput .tick { State.reset with now := 0xFFFFFFFFFFFFFFFF }) = some 0 := by
  decide +kernel

theorem witness_WorkerLeavesTheHostSide :
    (polling .cStart).mem.wf = true ∧ (workerStep (polling .cStart)).isSome = true := by decide +kernel

/-- The lowest byte the worker may read, and one it may not. -/
theorem witness_WorkerIgnoresTheCommandPort :
    Memory.wf [(0x800, 7), (0x9FF, 9), (0xA00, 1)] = true ∧ Memory.wf [(0xA00, 1)] = true ∧
    Memory.read [(0x800, 7), (0x9FF, 9), (0xA00, 1)] 0xA00 = Memory.read [(0xA00, 1)] 0xA00 ∧
    Memory.read [(0x800, 7), (0x9FF, 9), (0xA00, 1)] 0x9FF ≠ Memory.read [(0xA00, 1)] 0x9FF ∧ rxBase = 0xA00 ∧
    workerStep (running .wIdle) ≠ none ∧ workerStep State.reset = none := by decide +kernel
theorem witness_NopChangesNothing :
    (hostWrites 0x00010000 State.reset).Pending (.hostWrite cmdAddr 4 0x00010000) [] ∧
    (0x00010000 : Word).extractLsb' 0 8 = 0 := by decide

theorem witness_CommandLeavesTheWorkerSide :
    (polling .cTx).params.Legal ∧ (polling .cTx).mem.wf = true ∧ (next? (exec .buildRead (polling .cTx))).isSome = true := by
  decide +kernel

theorem witness_ReadsHaveNoSideEffect :
    (withInput (.hostRead 0x018 4) State.reset).Pending (.hostRead 0x018 4) [] ∧
    mapped State.reset.params 0x018 = some .status ∧ Reg.access .status ≠ .wo ∧
    mapped State.reset.params 0x078 = none ∧ (0x026 : Addr).toNat % 4 ≠ 0 := by decide +kernel

/-- The last entry of a table is mapped, the one after it is not; the last word of a window, and the one after it. -/
theorem witness_BadWriteRecordsBadAccess :
    (withInput (.hostWrite 0x900 4 1) State.reset).Pending (.hostWrite 0x900 4 1) [] ∧
    mapped State.reset.params 0x900 = some (.codecOut 0) ∧ Reg.access (.codecOut 0) = .ro ∧
    mapped State.reset.params 0x1F0 = some (.devsAf 15) ∧ mapped State.reset.params 0x200 = none ∧
    mapped State.reset.params 0x91C = some (.codecOut 7) ∧ mapped State.reset.params 0x920 = none := by decide +kernel

theorem witness_WritableRegistersReadBack :
    TablesOk State.reset ∧ mapped State.reset.params 0x1F8 = some (.devsCyc 15) ∧ Reg.access (.devsCyc 15) = .rw ∧
    mapped State.reset.params 0x014 = some .ctrl ∧ Reg.access .ctrl = .rw ∧
    (withInput (.hostWrite 0x1F8 4 5) State.reset).Pending (.hostWrite 0x1F8 4 5) [] := by decide +kernel

/-- The last device and the last byte of every window, for capacities that are and are not multiples of 4. -/
theorem witness_RegisterMapReadsTheState :
    State.reset.params.Legal ∧ relayUsed State.reset.relayQ ≤ State.reset.params.relayQBytes ∧ 15 < State.reset.params.nDev ∧
    31 < State.reset.params.cinBytes ∧ { Params.standard with nDev := 64, rxCap := 255 }.Legal ∧
    { Params.standard with nDev := 1, rxCap := 9 }.Legal := by decide

/-- The last word of `CODEC_IN`, also for a capacity that is no multiple of 4. -/
theorem witness_CodecInWritesAreLittleEndian :
    State.reset.params.Legal ∧ State.reset.mem.wf = true ∧ 4 * 7 < State.reset.params.cinBytes ∧
    { Params.standard with maxFrame := 33 }.Legal ∧ 4 * 8 < { Params.standard with maxFrame := 33 }.cinBytes ∧
    { Params.standard with maxFrame := 33 }.cinBytes < 4 * 8 + 2 := by decide

theorem witness_IrqFollowsItsCauses :
    { State.reset with ctrl := 2, evtQ := [sampleEvent] }.irq = true ∧
    after (fun t => t.irq) (hostWrites 8 { State.reset with ctrl := 2, evtQ := [sampleEvent] }) = some false ∧
    after (fun t => t.irq) (hostWrites 9 { State.reset with ctrl := 4, host.err := 0x102 }) = some false := by decide +kernel

theorem witness_ResetPutsEverythingBack :
    (withInput .reset (polling .cTx)).Pending .reset [] ∧
    after (fun t => (t.worker.ws, t.line.dir, t.mem)) (withInput .reset (polling .cTx)) = some (.wIdle, false, []) := by
  decide +kernel

theorem witness_ResetMeetsTheInvariant :
    Params.standard.Legal ∧ { Params.standard with nDev := 64, maxFrame := 255, relayQBytes := 256 }.Legal := by decide

/-- The invariant in the middle of a transmission, and in a relay transaction. -/
theorem witness_EveryStepKeepsTheInvariant : StateInv { polling .cTx with line.txOffer := some 0x01 } :=
  ⟨by decide, by decide +kernel, by decide +kernel, by decide +kernel, by decide +kernel, by decide +kernel,
    by decide +kernel⟩
theorem witness_EveryStepKeepsTheInvariant_relay : StateInv (relaying .cTurn) :=
  ⟨by decide, by decide +kernel, by decide +kernel, by decide +kernel, by decide +kernel, by decide +kernel,
    by decide +kernel⟩
theorem witness_EveryStepKeepsTheInvariant_steps :
    (next? (step (relaying .cTurn))).isSome = true ∧ (next? (step (polling .cTx))).isSome = true := by decide +kernel

theorem witness_EveryStepKeepsTheMemoryCanonical :
    Memory.wf [(0x800, 1), (0x801, 0xFF)] = true ∧ Memory.wf [(0x801, 1), (0x800, 1)] = false ∧
    Memory.wf [(0x800, 0)] = false ∧ (next? (step (polling .cStart))).isSome = true := by decide +kernel

theorem witness_DirectionIsTransmitExactlyInCTx :
    ((polling .cTx).line.dir = true ↔ (polling .cTx).worker.ws = .cTx) ∧
    after (fun t => (t.line.dir, t.worker.ws)) (polling .cStart) = some (true, .cTx) := by decide +kernel

theorem witness_CfgValidIsSetByCommitAndClearedByReset :
    after (fun t => t.cfgValid) (hostWrites 7 stagedState) = some true ∧ stagedState.cfgValid = false ∧
    after (fun t => t.cfgValid) (withInput .reset (running .wIdle)) = some false := by decide +kernel

theorem witness_NothingIsSentWhileParked :
    State.reset.worker.ws = .wIdle ∧ State.reset.cfgValid = false ∧ { running .wIdle with ctrl := 6 }.ctrl.getLsbD 0 = false ∧
    (next? (step (hostWrites 7 stagedState))).isSome = true := by decide +kernel

/-- The two stops, on port actions the spec says are not enabled; a narrow read and a reset, which complete. -/
theorem witness_NothingStopsTheBlock :
    step (withInput .worker State.reset) = .fault .workerNotEnabled ∧
    step (withInput (.answer true) State.reset) = .fault .answerWithoutOffer ∧
    (withInput (.hostRead 0x000 2) State.reset).Pending (.hostRead 0x000 2) [] ∧
    (withInput .reset State.reset).Pending .reset [] := ⟨rfl, rfl, rfl, rfl⟩

/-- A wait of 1000 ms from time 50, before its first sample. -/
theorem witness_SilentWaitEndsExactlyAtTheTimeout :
    let s : State := { polling .cRxwait with worker.t0 := 50, worker.nextSample := 50 }
    s.worker.ws = .cRxwait ∧ s.ports.inputs = [] ∧ s.line.rxLen = 0 ∧ s.params.Legal ∧
    s.worker.t0.toNat + s.active.timeout.toNat + s.params.rxPollMs < 2 ^ 64 ∧
    s.worker.t0.toNat + s.active.timeout.toNat + s.active.ifs.toNat < 2 ^ 64 ∧
    s.now.toNat ≤ s.worker.nextSample.toNat ∧
    s.worker.nextSample.toNat ≤ s.worker.t0.toNat + s.active.timeout.toNat := by decide +kernel

end Sys2Proof.Machine
end

section
/-! The host bus (20_memory.md): reads, refused writes, and what the map of R75 shows. -/

namespace Sys2Proof.Machine

/-! Host reads and refused writes (R71 to R73). -/

/-- Nothing is mapped at a misaligned address (R71). -/
theorem mapped_misaligned {p : Params} {a : Addr} (h : a.toNat % 4 ≠ 0) : mapped p a = none := if_pos h

/-- Settles O45: a read is `hostRead`, and the map of R75 says what it returns. -/
theorem readsHaveNoSideEffect : Obligations.ReadsHaveNoSideEffect := by
  refine ⟨fun s addr rest h => ⟨_, step_cons h, rfl, rfl, rfl, rfl⟩, fun s addr => ⟨?_, ?_, ?_, ?_⟩⟩
  · exact fun h => memRead_unmapped (mapped_misaligned h)
  · rintro rfl
    exact memRead_mapped (mapped_cmd s.params)
  · exact memRead_unmapped
  · exact fun r h _ => memRead_mapped h

/-- A write that R72, R73 and R77 refuse is a bus access error. -/
theorem hostWrite_refused {addr : Addr} {size : Nat} (v : Word) {s : State}
    (h : size ≠ 4 ∨ addr.toNat % 4 ≠ 0 ∨ mapped s.params addr = none ∨
      ∃ r, mapped s.params addr = some r ∧ r.access = .ro) : hostWrite addr size v s = .next (busError s) := by
  have hrefused : size ≠ 4 ∨ mapped s.params addr = none ∨ ∃ r, mapped s.params addr = some r ∧ r.access = .ro :=
    h.imp_right fun h => h.elim (fun ha => .inl (mapped_misaligned ha)) id
  obtain ⟨-, he⟩ | ⟨r, h4, hm, ha, -⟩ | ⟨h4, rfl, -⟩ := hostWrite_cases addr size v s
  · exact he
  · simp [h4, hm, ha] at hrefused
  · simp [h4, Reg.access] at hrefused

/-- Settles O46: every such write is a bus access error, which the first recorded error hides. -/
theorem badWriteRecordsBadAccess : Obligations.BadWriteRecordsBadAccess := by
  intro s addr size v rest hpend hbad
  have hstep : step s = .next (busError (dropInput rest s)) := (step_cons hpend).trans (hostWrite_refused v hbad)
  rw [hstep]
  obtain ⟨herr, he⟩ | ⟨herr, he⟩ := raise_cases .badAccess 0xFF (dropInput rest s)
  · exact ⟨fun h0 => absurd h0 herr, fun _ => congrArg _ he⟩
  · exact ⟨fun _ => congrArg _ he, fun h0 => absurd herr h0⟩

/-! The number a register of several fields holds (R9, R31, R33, R41, R46). -/

theorem toNat_halfFields (lo hi : Half) : (fieldAt 0 lo ||| fieldAt 16 hi).toNat = lo.toNat + 65536 * hi.toNat := by
  have hlo := toNat_fieldAt_zero lo (by decide)
  rw [toNat_or_fieldAt 16 hi _ (by omega) (by decide), hlo]
  omega

theorem toNat_byteFields (b0 b1 b2 b3 : Byte) :
    (fieldAt 0 b0 ||| fieldAt 8 b1 ||| fieldAt 16 b2 ||| fieldAt 24 b3).toNat =
      b0.toNat + 256 * b1.toNat + 65536 * b2.toNat + 16777216 * b3.toNat := by
  have h0 := toNat_fieldAt_zero b0 (by decide)
  have h1 := toNat_or_fieldAt 8 b1 (fieldAt 0 b0) (by omega) (by decide)
  have h2 := toNat_or_fieldAt 16 b2 (fieldAt 0 b0 ||| fieldAt 8 b1) (by omega) (by decide)
  rw [toNat_or_fieldAt 24 b3 _ (by omega) (by decide)]
  omega

theorem toNat_paramWord0 {p : Params} (hp : p.Legal) :
    (paramWord0 p).toNat = p.nDev + 256 * p.maxFrame + 65536 * p.rxCap + 16777216 * p.evtDepth := by
  obtain ⟨hdev, hframe, hrx, -, hevt, -⟩ := hp
  rw [paramWord0, toNat_byteFields]
  simp only [BitVec.toNat_ofNat]
  omega

theorem toNat_paramWord1 {p : Params} (hp : p.Legal) : (paramWord1 p).toNat = p.relayQBytes + 65536 * p.rxPollMs := by
  obtain ⟨-, -, -, hrelay, -, hpoll, -⟩ := hp
  rw [paramWord1, toNat_halfFields]
  simp only [BitVec.toNat_ofNat]
  omega

theorem toNat_paramWord2 {p : Params} (hp : p.Legal) : (paramWord2 p).toNat = p.relayWaitMs + 65536 * p.cfgVersion := by
  obtain ⟨-, -, -, -, -, -, hwait, hver⟩ := hp
  rw [paramWord2, toNat_halfFields]
  simp only [BitVec.toNat_ofNat]
  omega

theorem length_le_relayUsed (q : List (List Byte)) : q.length ≤ relayUsed q := by
  induction q with
  | nil => exact Nat.zero_le _
  | cons f q ih => simp only [List.length_cons, relayUsed]; omega

/-- Both counts of `RELAY_LEVEL` fit their fields while the queue is within its capacity (R46). -/
theorem toNat_relayLevel {s : State} (hp : s.params.Legal) (hq : relayUsed s.relayQ ≤ s.params.relayQBytes) :
    s.relayLevel.toNat = relayUsed s.relayQ + 65536 * s.relayQ.length := by
  obtain ⟨-, -, -, hrelay, -⟩ := hp
  have hlen := length_le_relayUsed s.relayQ
  rw [State.relayLevel, toNat_halfFields]
  simp only [BitVec.toNat_ofNat]
  omega

/-- The layout of `CUR_CTX`: two one-bit fields between bytes 0 and 2 (R41). -/
theorem toNat_contextFields (dev addr fc : Byte) (attempt src : BitVec 1) :
    (fieldAt 0 dev ||| fieldAt 8 attempt ||| fieldAt 9 src ||| fieldAt 16 addr ||| fieldAt 24 fc).toNat =
      dev.toNat + 256 * attempt.toNat + 512 * src.toNat + 65536 * addr.toNat + 16777216 * fc.toNat := by
  have h0 := toNat_fieldAt_zero dev (by decide)
  have h8 := toNat_or_fieldAt 8 attempt (fieldAt 0 dev) (by omega) (by decide)
  have h9 := toNat_or_fieldAt 9 src (fieldAt 0 dev ||| fieldAt 8 attempt) (by omega) (by decide)
  have h16 := toNat_or_fieldAt 16 addr (fieldAt 0 dev ||| fieldAt 8 attempt ||| fieldAt 9 src) (by omega) (by decide)
  rw [toNat_or_fieldAt 24 fc _ (by omega) (by decide)]
  omega

theorem toNat_curCtx (s : State) :
    s.curCtx.toNat = s.worker.ctx.dev.toNat + (if s.worker.ctx.attempt = .retry then 256 else 0) +
      (if s.worker.ctx.src = .relay then 512 else 0) + 65536 * s.worker.ctx.reqAddr.toNat +
      16777216 * s.worker.ctx.reqFc.toNat := by
  rw [State.curCtx, bitAt_eq_fieldAt, bitAt_eq_fieldAt, toNat_contextFields]
  cases s.worker.ctx.attempt <;> cases s.worker.ctx.src <;> rfl

/-- The two registers of a 64-bit time (R32, R38). -/
theorem toNat_loWord_hiWord (t : DWord) :
    (t.extractLsb' 0 32).toNat + 2 ^ 32 * (t.extractLsb' 32 32).toNat = t.toNat := by
  simp only [BitVec.extractLsb'_toNat, Nat.shiftRight_eq_div_pow]
  omega

theorem toNat_devaAf (d : Device) : (fieldAt 8 d.fc ||| fieldAt 0 d.addr).toNat = 256 * d.fc.toNat + d.addr.toNat := by
  have haddr := toNat_fieldAt_zero d.addr (by decide)
  rw [toNat_fieldAt_or 8 d.fc _ (by omega) (by decide), haddr]
  omega

/-! The windows as the host reads them (R74, R75). -/

/-- The four buffer windows: base, capacity, and the register of each word (R75). -/
def bufferWindows (p : Params) : List (Nat × Nat × (Nat → Reg)) :=
  [(0x800, p.cinBytes, .codecIn), (0x900, p.maxFrame, .codecOut), (0xA00, p.rxCap, .rxBuf), (0xB00, p.maxFrame, .txBuf)]

theorem mapped_bufferWindow {p : Params} {w : Nat × Nat × (Nat → Reg)} (hw : w ∈ bufferWindows p) {j : Nat} (hj : j < 64) :
    mapped p (BitVec.ofNat 12 (w.1 + 4 * j)) = windowMap w.2.1 j (w.2.2 j) := by
  simp only [bufferWindows, List.mem_cons, List.not_mem_nil, or_false] at hw
  obtain rfl | rfl | rfl | rfl := hw <;> dsimp only
  all_goals
    rw [mapped_table p (by omega) (by omega) (by omega)]
    simp (disch := omega) only [tableMap, if_pos, if_neg]
    congr 2 <;> omega

theorem regValue_bufferWindow {s : State} {w : Nat × Nat × (Nat → Reg)} (hw : w ∈ bufferWindows s.params) (j : Nat) :
    s.regValue (w.2.2 j) = s.mem.windowWord w.1 w.2.1 j := by
  simp only [bufferWindows, List.mem_cons, List.not_mem_nil, or_false] at hw
  obtain rfl | rfl | rfl | rfl := hw <;> rfl

theorem mapped_devStateWord (p : Params) {j : Nat} (hj : j < 16) :
    mapped p (BitVec.ofNat 12 (0x700 + 4 * j)) = windowMap p.nDev j (.devStateWord j) := by
  rw [mapped_table p (by omega) (by omega) (by omega)]
  simp (disch := omega) only [tableMap, if_pos, if_neg]
  congr 2 <;> omega

/-- A window whose words are made of the bytes `f`, 0 past its capacity, reads as `f` byte by byte (R74). -/
theorem hostByte_windowMap {s : State} {base cap k : Nat} {r : Reg} {f : Nat → Byte}
    (hm : mapped s.params (BitVec.ofNat 12 (base + 4 * (k / 4))) = windowMap cap (k / 4) r)
    (hr : s.regValue r =
      packWord (f (4 * (k / 4))) (f (4 * (k / 4) + 1)) (f (4 * (k / 4) + 2)) (f (4 * (k / 4) + 3)))
    (hf : ∀ i, cap ≤ i → f i = 0) : s.hostByte base k = f k := by
  unfold State.hostByte
  by_cases hcap : 4 * (k / 4) < cap
  · rw [windowMap_pos hcap] at hm
    rw [memRead_mapped hm, hr, byte_packWord _ _ _ _ (Nat.mod_lt k (by decide))]
    have hk : f (4 * (k / 4) + k % 4) = f k := by rw [Nat.div_add_mod]
    have hc : k % 4 = 0 ∨ k % 4 = 1 ∨ k % 4 = 2 ∨ k % 4 = 3 := by omega
    obtain h | h | h | h := hc <;> (rw [h] at hk ⊢; exact hk)
  · rw [memRead_unmapped (hm.trans (if_neg hcap)), hf k (by omega)]
    exact BitVec.extractLsb'_zero

theorem hostByte_bufferWindow {s : State} {w : Nat × Nat × (Nat → Reg)} (hw : w ∈ bufferWindows s.params) {k : Nat}
    (hk : k < 256) : s.hostByte w.1 k = s.mem.windowByte w.1 w.2.1 k :=
  hostByte_windowMap (mapped_bufferWindow hw (by omega)) (regValue_bufferWindow hw _)
    fun _ h => if_neg (Nat.not_lt.mpr h)

theorem hostByte_devState (s : State) {k : Nat} (hk : k < 64) : s.hostByte 0x700 k = s.devStateByte k :=
  hostByte_windowMap (mapped_devStateWord s.params (by omega)) rfl fun _ h => if_neg (Nat.not_lt.mpr h)

theorem deviceTable_code (d : DevState) : deviceTable[d.code.toNat]? = some d := by cases d <;> rfl

/-! Which addresses are mapped, and their access class (R75). -/

/-- A word that exists lies in the spec's list. -/
theorem listed_offset {p : Params} {r : Reg} (h : r.Present p) : Listed p r.offset := by
  cases r
  case devsAf i | devsReg i | devsCyc i | dlLo i | dlHi i | devaAf i | devaReg i | devaCyc i =>
    exact .inr (.inr (.inl ⟨i, h, by simp only [InRange, Reg.offset]; omega⟩))
  all_goals
    simp only [Reg.Present] at h
    simp only [Listed, InRange, Reg.offset]
    omega

theorem fixedMap_covers :
    ∀ a < 0x094, a % 4 = 0 → a < 0x078 ∨ 0x080 ≤ a → ∃ c ∈ fixedMap, c.1 = a := by decide

/-- A single register stands at every offset of `fixedMap`. -/
theorem exists_reg_of_mem_fixedMap (p : Params) {a : Nat} (h : ∃ c ∈ fixedMap, c.1 = a) :
    ∃ r : Reg, r.Present p ∧ r.offset = a := by
  obtain ⟨c, hc, rfl⟩ := h
  exact ⟨c.2, fixedMap_present c hc p, (fixedMap_offset c hc).symm⟩

/-- A word stands at every aligned address of the spec's list. -/
theorem exists_reg_of_listed {p : Params} {a : Nat} (h4 : a % 4 = 0) (h : Listed p a) :
    ∃ r : Reg, r.Present p ∧ r.offset = a := by
  obtain h | h | ⟨i, hi, h | h | h⟩ | h | h | h | h | h := h <;> obtain ⟨hlo, hhi⟩ := h
  · exact exists_reg_of_mem_fixedMap p (fixedMap_covers a (by omega) h4 (.inl hhi))
  · exact exists_reg_of_mem_fixedMap p (fixedMap_covers a hhi h4 (.inr hlo))
  · have hcol : a = 0x100 + 16 * i ∨ a = 0x104 + 16 * i ∨ a = 0x108 + 16 * i := by omega
    obtain rfl | rfl | rfl := hcol
    · exact ⟨.devsAf i, hi, rfl⟩
    · exact ⟨.devsReg i, hi, rfl⟩
    · exact ⟨.devsCyc i, hi, rfl⟩
  · have hcol : a = 0x500 + 8 * i ∨ a = 0x504 + 8 * i := by omega
    obtain rfl | rfl := hcol
    · exact ⟨.dlLo i, hi, rfl⟩
    · exact ⟨.dlHi i, hi, rfl⟩
  · have hcol : a = 0xC00 + 16 * i ∨ a = 0xC04 + 16 * i ∨ a = 0xC08 + 16 * i := by omega
    obtain rfl | rfl | rfl := hcol
    · exact ⟨.devaAf i, hi, rfl⟩
    · exact ⟨.devaReg i, hi, rfl⟩
    · exact ⟨.devaCyc i, hi, rfl⟩
  · exact ⟨.devStateWord ((a - 0x700) / 4), by simp only [Reg.Present]; omega, by simp only [Reg.offset]; omega⟩
  · exact ⟨.codecIn ((a - 0x800) / 4), by simp only [Reg.Present]; omega, by simp only [Reg.offset]; omega⟩
  · exact ⟨.codecOut ((a - 0x900) / 4), by simp only [Reg.Present]; omega, by simp only [Reg.offset]; omega⟩
  · exact ⟨.rxBuf ((a - 0xA00) / 4), by simp only [Reg.Present]; omega, by simp only [Reg.offset]; omega⟩
  · exact ⟨.txBuf ((a - 0xB00) / 4), by simp only [Reg.Present]; omega, by simp only [Reg.offset]; omega⟩

/-- The mapped addresses are the aligned ones of the spec's list. -/
theorem mapped_isSome_iff {p : Params} (hp : p.Legal) (a : Addr) :
    (mapped p a).isSome = true ↔ a.toNat % 4 = 0 ∧ Listed p a.toNat := by
  rw [Option.isSome_iff_exists]
  constructor
  · rintro ⟨r, hr⟩
    obtain ⟨hpres, hoff, h4⟩ := mapped_eq_some hr
    exact ⟨h4, hoff ▸ listed_offset hpres⟩
  · rintro ⟨h4, hl⟩
    obtain ⟨r, hpres, hoff⟩ := exists_reg_of_listed h4 hl
    have hm := mapped_offset hp hpres
    rw [hoff, BitVec.ofNat_toNat, BitVec.setWidth_eq] at hm
    exact ⟨r, hm⟩

theorem access_eq_wo_iff {p : Params} {a : Addr} {r : Reg} (h : mapped p a = some r) :
    r.access = .wo ↔ a = 0x020 := by
  constructor
  · intro ha
    exact mapped_eq_cmd (eq_cmd_of_access ha ▸ h)
  · rintro rfl
    cases h
    rfl

/-- The access class follows from the place in the map. -/
theorem access_eq_rw_iff {p : Params} (hp : p.Legal) {r : Reg} (h : r.Present p) :
    r.access = .rw ↔ ListedRw r.offset := by
  obtain ⟨hdev, hframe, hrx, -⟩ := hp
  have hcin : p.cinBytes ≤ 255 := by unfold Params.cinBytes; omega
  cases r
  all_goals
    simp only [Reg.Present] at h
    simp only [Reg.access, ListedRw, InRange, Reg.offset, reduceCtorEq, true_iff, false_iff]
    omega

/-! What the words read, as numbers. -/

theorem toNat_memRead_offset {s : State} (hp : s.params.Legal) (r : Reg) (h : r.Present s.params) {n : Nat}
    (hr : (s.regValue r).toNat = n) : (memRead s (BitVec.ofNat 12 r.offset)).toNat = n := by
  rw [memRead_offset hp h, hr]

/-- A register of one zero-extended field reads as the field's number. -/
theorem toNat_memRead_setWidth {s : State} (hp : s.params.Legal) (r : Reg) (h : r.Present s.params) {n : Nat}
    {v : BitVec n} (hn : n ≤ 32) (hr : s.regValue r = v.setWidth 32) :
    (memRead s (BitVec.ofNat 12 r.offset)).toNat = v.toNat :=
  toNat_memRead_offset hp r h (by rw [hr, BitVec.toNat_setWidth_of_le hn])

/-- Two registers that hold the halves of a time read as that time (R32, R38). -/
theorem toNat_memRead_time {s : State} (hp : s.params.Legal) (lo hi : Reg) (hlo : lo.Present s.params)
    (hhi : hi.Present s.params) {t : DWord} (hl : s.regValue lo = t.extractLsb' 0 32)
    (hh : s.regValue hi = t.extractLsb' 32 32) :
    (memRead s (BitVec.ofNat 12 lo.offset)).toNat + 2 ^ 32 * (memRead s (BitVec.ofNat 12 hi.offset)).toNat =
      t.toNat := by
  rw [memRead_offset hp hlo, memRead_offset hp hhi, hl, hh, toNat_loWord_hiWord]

/-- Settles O60: the map of R75 is `mapped_offset` with its converse, and a word reads its register's value. -/
theorem registerMapReadsTheState : Obligations.RegisterMapReadsTheState := by
  intro s hp hq rd p x
  have word (r : Reg) (h : r.Present p) : rd r.offset = s.regValue r := memRead_offset hp h
  have field (r : Reg) (h : r.Present p) {n : Nat} {v : BitVec n} := toNat_memRead_setWidth (v := v) hp r h
  refine ⟨fun a => ⟨mapped_isSome_iff hp a, fun r hr => ⟨access_eq_wo_iff hr, ?_⟩⟩, ?_, ?_, ?_, ?_, ?_, ?_, ?_⟩
  · obtain ⟨hpres, hoff, -⟩ := mapped_eq_some hr
    exact hoff ▸ access_eq_rw_iff hp hpres
  · exact ⟨word .id trivial, word .specRev trivial, toNat_memRead_offset hp .param0 trivial (toNat_paramWord0 hp),
      toNat_memRead_offset hp .param1 trivial (toNat_paramWord1 hp),
      toNat_memRead_offset hp .param2 trivial (toNat_paramWord2 hp)⟩
  · exact ⟨word .ctrl trivial, word .status trivial, word .err trivial, word .cmd trivial, word .arg0 trivial,
      word .arg1 trivial, word .arg2 trivial, field .crcResult trivial (by decide) rfl,
      field .outLen trivial (by decide) rfl, word .clsResult trivial, word .clsValue trivial⟩
  · exact ⟨toNat_memRead_time hp .nowLo .nowHi trivial trivial rfl rfl, field .ifsMs trivial (by decide) rfl,
      field .timeoutMs trivial (by decide) rfl, word .txFailCnt trivial,
      toNat_memRead_offset hp .relayLevel trivial (toNat_relayLevel hp hq), field .rxLen trivial (by decide) rfl,
      field .txLen trivial (by decide) rfl, toNat_memRead_offset hp .curCtx trivial (toNat_curCtx s)⟩
  · exact ⟨word .evtHead0 trivial, word .evtHead1 trivial, word .evtHead2 trivial,
      field .actCount trivial (by decide) rfl, word .cfgStatus trivial, word .cfgVer trivial, word .cfgBaud trivial,
      word .cfgFormat trivial, word .cfgTiming trivial, word .cfgCount trivial⟩
  · intro i hi
    have hcode : deviceTable[(s.hostByte 0x700 i).toNat]? = some (s.devState i) := by
      have hdev : p.nDev ≤ 64 := hp.1.2
      rw [hostByte_devState s (by omega), State.devStateByte, if_pos hi, deviceTable_code]
    exact ⟨word (.devsAf i) hi, word (.devsReg i) hi, word (.devsCyc i) hi,
      toNat_memRead_time hp (.dlLo i) (.dlHi i) hi hi rfl rfl, hcode,
      toNat_memRead_offset hp (.devaAf i) hi (toNat_devaAf (s.device i)), field (.devaReg i) hi (by decide) rfl,
      word (.devaCyc i) hi⟩
  · intro k hk w hw
    obtain ⟨b, hb, rfl⟩ := List.mem_map.mp (show w ∈ (bufferWindows p).map (fun b => (b.1, b.2.1)) from hw)
    exact hostByte_bufferWindow hb hk
  · intro k hlo hk
    rw [hostByte_devState s hk, State.devStateByte, if_neg (Nat.not_lt.mpr hlo)]

end Sys2Proof.Machine
end

section
/-! The command decoder (30_encoding.md section 1): no word matches two rows, so `decode` picks the one row a word matches. -/

namespace Sys2Proof

theorem Opcode.mem_all (o : Opcode) : o ∈ Opcode.all := by cases o <;> decide

theorem Opcode.matchesWord_iff {o : Opcode} {w : Word} : o.matchesWord w = true ↔ w &&& o.mask = o.value := beq_iff_eq

/-- Two rows of R102 differ in a bit that both masks fix. -/
theorem Opcode.eq_of_value_and_mask_eq :
    ∀ o ∈ Opcode.all, ∀ o' ∈ Opcode.all, o.value &&& o'.mask = o'.value &&& o.mask → o = o' := by decide

/-- At most one row matches a word (R100): the word agrees with each matching row on the bits both masks fix. -/
theorem Opcode.eq_of_matches {o o' : Opcode} {w : Word} (h : w &&& o.mask = o.value) (h' : w &&& o'.mask = o'.value) :
    o = o' := by
  refine Opcode.eq_of_value_and_mask_eq o o.mem_all o' o'.mem_all ?_
  calc o.value &&& o'.mask = w &&& o.mask &&& o'.mask := by rw [h]
    _ = w &&& o'.mask &&& o.mask := by ac_rfl
    _ = o'.value &&& o.mask := by rw [h']

/-- A word that matches a row decodes to its command, with the operand of the word. -/
theorem decode_of_matches {o : Opcode} {w : Word} (h : w &&& o.mask = o.value) :
    decode w = .command (o.instr (lenField w)) := by
  unfold decode
  cases hf : Opcode.all.find? (fun o => o.matchesWord w) with
  | none => exact absurd (Opcode.matchesWord_iff.mpr h) (List.find?_eq_none.mp hf o o.mem_all)
  | some o' =>
    have hmatch : w &&& o'.mask = o'.value := Opcode.matchesWord_iff.mp (List.find?_some (p := (Opcode.matchesWord · w)) hf)
    rw [Opcode.eq_of_matches h hmatch]

/-- A word that matches no row is rejected. -/
theorem decode_of_no_match {w : Word} (h : ∀ o : Opcode, w &&& o.mask ≠ o.value) : ∃ why, decode w = .rejected why := by
  have hf : Opcode.all.find? (fun o => o.matchesWord w) = none :=
    List.find?_eq_none.mpr fun o _ hm => h o (Opcode.matchesWord_iff.mp hm)
  rw [decode, hf]
  exact ⟨_, rfl⟩

end Sys2Proof

namespace Sys2Proof.Machine

/-! What the block does with a decoded and with a rejected word (R29, R100). -/

theorem command_of_decode {w : Word} {i : Instr} (h : decode w = .command i) (s : State) : command w s = exec i s := by
  simp only [command, h]

theorem command_of_rejected {w : Word} {why : Reject} (h : decode w = .rejected why) (s : State) :
    command w s = .next (raise .illegalCmd (opField w) s) := by
  simp only [command, h]

/-- Settles O3: `decode` finds the one matching row, and a word without one raises `ILLEGAL_CMD`, which the first recorded
error hides. -/
theorem commandWordRunsItsRowOrIsIllegal : Obligations.CommandWordRunsItsRowOrIsIllegal := by
  intro w s rest hpend
  have hstep : step s = command w (dropInput rest s) := step_command hpend
  refine ⟨fun _ _ => Opcode.eq_of_matches, fun o ho => ?_, fun hno => ?_⟩
  · exact hstep.trans (command_of_decode (decode_of_matches ho) _)
  · obtain ⟨why, hwhy⟩ := decode_of_no_match hno
    rw [hstep, command_of_rejected hwhy]
    obtain ⟨herr, he⟩ | ⟨herr, he⟩ := raise_cases .illegalCmd (opField w) (dropInput rest s)
    · exact ⟨fun h0 => absurd h0 herr, fun _ => congrArg _ he⟩
    · exact ⟨fun _ => congrArg _ he, fun h0 => absurd herr h0⟩

end Sys2Proof.Machine
end

section
/-! The frame codec (40_codec.md): the CRC's residue, the parts of a frame that verifies, and the window a frame is put
in. -/

namespace Sys2Proof

/-- A word decodes to the command of a row it matches, and to no other (R100). -/
theorem decode_eq_command_iff {w : Word} {i : Instr} :
    decode w = .command i ↔ ∃ o : Opcode, w &&& o.mask = o.value ∧ o.instr (lenField w) = i := by
  constructor
  · intro h
    by_cases hrow : ∃ o : Opcode, w &&& o.mask = o.value
    · obtain ⟨o, ho⟩ := hrow
      rw [decode_of_matches ho] at h
      exact ⟨o, ho, Decoded.command.inj h⟩
    · obtain ⟨why, hwhy⟩ := decode_of_no_match (not_exists.mp hrow)
      rw [hwhy] at h
      cases h
  · rintro ⟨o, ho, rfl⟩
    exact decode_of_matches ho

end Sys2Proof

namespace Sys2Proof.Machine

/-! Byte order (R9). -/

theorem toNat_joinBytes (hi lo : Byte) : (joinBytes hi lo).toNat = 256 * hi.toNat + lo.toNat := by
  have hhi : hi.toNat < 256 := hi.isLt
  have hlo : lo.toNat < 2 ^ 8 := lo.isLt
  simp only [joinBytes, BitVec.toNat_or, BitVec.toNat_shiftLeft, BitVec.toNat_setWidth, Nat.shiftLeft_eq]
  rw [Nat.mod_eq_of_lt (by omega), Nat.mod_eq_of_lt (by omega), Nat.mod_eq_of_lt (by omega), ← Nat.shiftLeft_eq,
    ← Nat.shiftLeft_add_eq_or_of_lt hlo, Nat.shiftLeft_eq]
  omega

theorem hi8_joinBytes (hi lo : Byte) : hi8 (joinBytes hi lo) = hi := by
  apply BitVec.eq_of_toNat_eq
  rw [hi8, BitVec.extractLsb'_toNat, toNat_joinBytes, Nat.shiftRight_eq_div_pow]
  omega

theorem lo8_joinBytes (hi lo : Byte) : lo8 (joinBytes hi lo) = lo := by
  apply BitVec.eq_of_toNat_eq
  rw [lo8, BitVec.extractLsb'_toNat, toNat_joinBytes, Nat.shiftRight_zero]
  omega

/-- The high byte of a 16-bit field of a register. -/
theorem hi8_extractLsb' (v : Word) (k : Nat) : hi8 (v.extractLsb' k 16) = v.extractLsb' (k + 8) 8 := by
  ext j hj
  have hj' : 8 + j < 16 := by omega
  simp [hi8, hj', Nat.add_assoc]

/-- The low byte of a 16-bit field of a register. -/
theorem lo8_extractLsb' (v : Word) (k : Nat) : lo8 (v.extractLsb' k 16) = v.extractLsb' k 8 := by
  ext j hj
  have hj' : j < 16 := by omega
  simp [lo8, hj']

/-! The residue of the CRC (R140, R146). -/

/-- Bits that are 0 are shifted out without feedback. -/
theorem crcBits_of_low_zero {n : Nat} {c : Half} (h : ∀ k < n, c.getLsbD k = false) : crcBits n c = c >>> n := by
  induction n generalizing c with
  | zero => exact (BitVec.ushiftRight_zero c).symm
  | succ n ih =>
    have hbit : crcBit c = c >>> 1 := by
      rw [crcBit, h 0 (Nat.succ_pos n)]
      rfl
    have hlow : ∀ k < n, (c >>> 1).getLsbD k = false := fun k hk => by
      rw [BitVec.getLsbD_ushiftRight]
      exact h (1 + k) (by omega)
    rw [crcBits, hbit, ih hlow, ← BitVec.shiftRight_add, Nat.add_comm]

/-- The register's own low byte cancels there, and the high byte moves down. -/
theorem crcByte_lo8 (c : Half) : crcByte c (lo8 c) = (hi8 c).setWidth 16 := by
  have hlow : ∀ k < 8, (c ^^^ (lo8 c).setWidth 16).getLsbD k = false := fun k hk => by
    have hk' : k < 16 := by omega
    simp [lo8, hk, hk']
  rw [crcByte, crcBits_of_low_zero hlow]
  ext k hk
  have hbound : c.getLsbD (8 + k) = true → k < 8 := fun h => by
    have := BitVec.lt_of_getLsbD h
    omega
  simpa [hi8, lo8] using hbound

/-- A byte equal to the whole register leaves 0. -/
theorem crcByte_setWidth_self (b : Byte) : crcByte (b.setWidth 16) b = 0 := by
  rw [crcByte, BitVec.xor_self]
  decide

/-- The residue over a whole frame is 0 (R146). -/
theorem crc16_frame (s : List Byte) : crc16 (frame s) = 0 := by
  rw [frame, crc16_append, List.foldl_cons, List.foldl_cons, List.foldl_nil, crcByte_lo8, crcByte_setWidth_self]

theorem exists_append_pair {f : List Byte} (h : 2 ≤ f.length) : ∃ s lo hi, f = s ++ [lo, hi] := by
  have hdrop : (f.drop (f.length - 2)).length = 2 := by
    rw [List.length_drop]
    omega
  obtain ⟨lo, hi, hlast⟩ := List.length_eq_two.mp hdrop
  exact ⟨f.take (f.length - 2), lo, hi, by rw [← hlast, List.take_append_drop]⟩

/-- A sequence that verifies is a frame (R142, R143). -/
theorem exists_frame_of_verify {f : List Byte} (h : 2 ≤ f.length) (hv : verify f = true) : ∃ s, f = frame s := by
  obtain ⟨s, lo, hi, rfl⟩ := exists_append_pair h
  have hcrc : crc16 s = joinBytes hi lo := by
    simpa [frameCrc] using beq_iff_eq.mp hv
  exact ⟨s, by rw [frame, hcrc, lo8_joinBytes, hi8_joinBytes]⟩

/-! `CRC_CALC` and `CRC_VERIFY` (R146, R148). -/

theorem exec_crcCalc_of_fits {len : Nat} {s : State} (h : len ≤ s.params.cinBytes) :
    exec (.crcCalc len) s = .next { s with host.crcResult := crc16 (s.codecIn len) } := if_neg (Nat.not_lt.mpr h)

theorem memRead_crcResult (s : State) : memRead s 0x030 = s.host.crcResult.setWidth 32 :=
  memRead_mapped (r := .crcResult) rfl

/-- Settles O11: a sequence that verifies is a frame, over which the residue is 0. -/
theorem crcCalcStoresTheCrc : Obligations.CrcCalcStoresTheCrc := by
  refine ⟨fun w hw => decode_of_matches (o := .crcCalc) hw, fun s len hlen => ?_, fun s len hlen => if_pos hlen⟩
  refine ⟨_, exec_crcCalc_of_fits hlen, rfl, ?_, ?_, ?_⟩
  · rw [memRead_crcResult, BitVec.toNat_setWidth_of_le (by decide)]
    rfl
  · rintro rfl
    rw [memRead_crcResult]
    rfl
  · intro h2 hv
    have hzero : crc16 (s.codecIn len) = 0 := by
      obtain ⟨body, hbody⟩ := exists_frame_of_verify (by rwa [Memory.length_readBytes]) hv
      rw [State.codecIn, hbody, crc16_frame]
    rw [memRead_crcResult, hzero]
    rfl

theorem exec_crcVerify_of_fits {len : Nat} {s : State} (h2 : 2 ≤ len) (h : len ≤ s.params.cinBytes) :
    exec (.crcVerify len) s = .next { s with host.crcOk := verify (s.codecIn len) } :=
  (if_neg (Nat.not_lt.mpr h)).trans (if_neg (Nat.not_lt.mpr h2))

theorem Memory.take_readBytes (m : Memory) (a n k : Nat) : (m.readBytes a n).take k = m.readBytes a (min k n) := by
  induction n generalizing a k with
  | zero => simp [Memory.readBytes]
  | succ n ih =>
    cases k with
    | zero => simp [Memory.readBytes]
    | succ k => simp [Memory.readBytes, ih, Nat.succ_min_succ]

/-- `verify` over bytes of memory compares their CRC with the last two, low then high (R143). -/
theorem verify_readBytes (m : Memory) (a : Nat) {n : Nat} (h : 2 ≤ n) :
    verify (m.readBytes a n) = true ↔
      (crc16 (m.readBytes a (n - 2))).toNat = 256 * (m.read (a + (n - 1))).toNat + (m.read (a + (n - 2))).toNat := by
  rw [verify, beq_iff_eq, ← BitVec.toNat_inj, frameCrc, toNat_joinBytes, Memory.length_readBytes,
    Memory.take_readBytes, Nat.min_eq_left (Nat.sub_le n 2), Memory.getD_readBytes, Memory.getD_readBytes,
    if_pos (by omega), if_pos (by omega)]

/-- Settles O12: the clauses are the branches of the command, and `verify` is read on the bytes of `CODEC_IN`. -/
theorem crcVerifySetsCrcOk : Obligations.CrcVerifySetsCrcOk := by
  refine ⟨fun w hw => decode_of_matches (o := .crcVerify) hw, fun s len h2 hlen => ?_, fun s len hlen => if_pos hlen,
    fun s len hlen h2 => (if_neg (Nat.not_lt.mpr hlen)).trans (if_pos h2)⟩
  exact ⟨_, exec_crcVerify_of_fits h2 hlen, rfl, verify_readBytes s.mem codecInBase h2⟩

/-! Filling `CODEC_OUT` (R150, R151). -/

theorem holdsBytes_setWindow {m : Memory} (hm : m.wf = true) (base : Nat) {cap : Nat} {f : List Byte}
    (hf : f.length ≤ cap) : HoldsBytes (m.setWindow base cap f) base f := by
  intro k hk
  rw [Memory.read_setWindow hm, if_pos (by omega), Nat.add_sub_cancel_left]

theorem zeroFrom_setWindow {m : Memory} (hm : m.wf = true) (base cap : Nat) (f : List Byte) :
    ZeroFrom (m.setWindow base cap f) base f.length cap := by
  intro k hlo hhi
  rw [Memory.read_setWindow hm, if_pos (by omega), Nat.add_sub_cancel_left, List.getD_eq_default _ _ hlo]

theorem sameOutside_setWindow {m : Memory} (hm : m.wf = true) (base cap : Nat) (f : List Byte) :
    SameOutside m (m.setWindow base cap f) base cap := by
  intro a ha
  rw [Memory.read_setWindow hm, if_neg ha]

/-- Putting a frame of `n` bytes in `CODEC_OUT`: the length register, every byte of the window, every byte outside it
(R151). -/
theorem setCodecOut_frame {s : State} (hp : s.params.Legal) (hm : s.mem.wf = true) {f : List Byte} {n : Nat}
    (hf : f.length = n) (hn : n ≤ s.params.maxFrame) :
    (setCodecOut f s).host.outLen.toNat = n ∧ HoldsBytes (setCodecOut f s).mem codecOutBase f ∧
    ZeroFrom (setCodecOut f s).mem codecOutBase n s.params.maxFrame ∧
    SameOutside s.mem (setCodecOut f s).mem codecOutBase s.params.maxFrame := by
  subst hf
  obtain ⟨-, ⟨-, hmax⟩, -⟩ := hp
  refine ⟨?_, holdsBytes_setWindow hm _ hn, zeroFrom_setWindow hm _ _ f, sameOutside_setWindow hm _ _ f⟩
  rw [setCodecOut_host, BitVec.toNat_ofNat, Nat.mod_eq_of_lt (by omega)]

/-! The frames by the bits of `ARG0` and `ARG1` (R104, R107 to R109). -/

theorem buildRequestFrame_args (s : State) :
    buildRequestFrame s.argAddr s.argFc s.argReg s.argCount = frame [s.host.arg0.extractLsb' 0 8,
      s.host.arg0.extractLsb' 8 8, s.host.arg1.extractLsb' 8 8, s.host.arg1.extractLsb' 0 8,
      s.host.arg1.extractLsb' 24 8, s.host.arg1.extractLsb' 16 8] := by
  simp only [buildRequestFrame, State.argAddr, State.argFc, State.argReg, State.argCount, hi8_extractLsb',
    lo8_extractLsb']

theorem buildWriteSingle_args (s : State) (p : List Byte) :
    buildWriteSingle s.argAddr s.argFc s.argReg p = frame ([s.host.arg0.extractLsb' 0 8,
      s.host.arg0.extractLsb' 8 8, s.host.arg1.extractLsb' 8 8, s.host.arg1.extractLsb' 0 8] ++ p) := by
  simp only [buildWriteSingle, State.argAddr, State.argFc, State.argReg, hi8_extractLsb', lo8_extractLsb']

theorem buildWriteMultiple_args {p : List Byte} {len : Nat} (s : State) (hp : p.length = len) :
    buildWriteMultiple s.argAddr s.argFc s.argReg s.argCount p = frame ([s.host.arg0.extractLsb' 0 8,
      s.host.arg0.extractLsb' 8 8, s.host.arg1.extractLsb' 8 8, s.host.arg1.extractLsb' 0 8,
      s.host.arg1.extractLsb' 24 8, s.host.arg1.extractLsb' 16 8, BitVec.ofNat 8 len] ++ p) := by
  simp only [buildWriteMultiple, State.argAddr, State.argFc, State.argReg, State.argCount, hi8_extractLsb',
    lo8_extractLsb', hp]

theorem length_codecIn (s : State) (len : Nat) : (s.codecIn len).length = len := Memory.length_readBytes ..

/-! The three commands that build a frame (R150, R153, R156). -/

/-- Only one word is `BUILD_READ` (R102). -/
theorem decode_eq_buildRead_iff (w : Word) : decode w = .command .buildRead ↔ w = 0x00000003 := by
  constructor
  · intro h
    obtain ⟨o, ho, hi⟩ := decode_eq_command_iff.mp h
    cases o <;> simp only [Opcode.instr, reduceCtorEq] at hi
    rwa [Opcode.mask, show (0xFFFFFFFF : Word) = BitVec.allOnes 32 from rfl, BitVec.and_allOnes] at ho
  · rintro rfl
    exact decode_of_matches (o := .buildRead) rfl

theorem exec_buildWriteS_of_fits {len : Nat} {s : State} (h : 6 + len ≤ s.params.maxFrame) :
    exec (.buildWriteS len) s = .next (setCodecOut (buildWriteSingle s.argAddr s.argFc s.argReg (s.codecIn len)) s) :=
  if_neg (Nat.not_lt.mpr h)

theorem exec_buildWriteM_of_fits {len : Nat} {s : State} (h : 9 + len ≤ s.params.maxFrame) :
    exec (.buildWriteM len) s =
      .next (setCodecOut (buildWriteMultiple s.argAddr s.argFc s.argReg s.argCount (s.codecIn len)) s) :=
  if_neg (Nat.not_lt.mpr h)

/-- Settles O13: the frame of 8 bytes fits every legal `MAX_FRAME`. -/
theorem buildReadFramesTheRequest : Obligations.BuildReadFramesTheRequest := by
  refine ⟨decode_eq_buildRead_iff, fun s hp hm => ⟨_, rfl, rfl, ?_⟩⟩
  have ⟨_, ⟨hmin, _⟩, _⟩ := hp
  rw [← buildRequestFrame_args]
  exact (setCodecOut_frame hp hm (length_buildRequestFrame ..) (Nat.le_of_succ_le hmin)).2

/-- Settles O14: a frame that fits is put in the window, the other branch is `OVERSIZE`. -/
theorem buildWriteSFramesThePayload : Obligations.BuildWriteSFramesThePayload := by
  refine ⟨fun w hw => decode_of_matches (o := .buildWriteS) hw, fun s len hp hm hlen => ?_,
    fun s len hlen => if_pos hlen⟩
  refine ⟨_, exec_buildWriteS_of_fits hlen, rfl, ?_⟩
  rw [← State.codecIn, ← buildWriteSingle_args]
  exact setCodecOut_frame hp hm (by rw [length_buildWriteSingle, length_codecIn]) hlen

/-- Settles O15: a frame that fits is put in the window, the other branch is `OVERSIZE`. -/
theorem buildWriteMFramesThePayload : Obligations.BuildWriteMFramesThePayload := by
  refine ⟨fun w hw => decode_of_matches (o := .buildWriteM) hw, fun s len hp hm hlen => ?_,
    fun s len hlen => if_pos hlen⟩
  refine ⟨_, exec_buildWriteM_of_fits hlen, rfl, ?_⟩
  rw [← State.codecIn, ← buildWriteMultiple_args s (length_codecIn s len)]
  exact setCodecOut_frame hp hm (by rw [length_buildWriteMultiple, length_codecIn]) hlen

end Sys2Proof.Machine
end

section
/-! The response classifier (41_classifier.md): what each validation step and each decode returns, with the raw value as a
number, and the fields `CLASSIFY` writes. -/

namespace Sys2Proof.Machine

/-! The raw values as numbers (R9, R172, R181). -/

theorem toNat_bytePair (hi lo : Byte) : (fieldAt 8 hi ||| fieldAt 0 lo).toNat = 256 * hi.toNat + lo.toNat :=
  toNat_devaAf { fc := hi, addr := lo, reg := 0, cycle := 0 }

theorem toNat_halfPair (hi lo : Half) : (fieldAt 16 hi ||| fieldAt 0 lo).toNat = 65536 * hi.toNat + lo.toNat := by
  rw [BitVec.or_comm, toNat_halfFields, Nat.add_comm]

theorem toNat_packWord (b0 b1 b2 b3 : Byte) :
    (packWord b0 b1 b2 b3).toNat = 16777216 * b3.toNat + 65536 * b2.toNat + 256 * b1.toNat + b0.toNat := by
  have hreorder : packWord b0 b1 b2 b3 = fieldAt 0 b0 ||| fieldAt 8 b1 ||| fieldAt 16 b2 ||| fieldAt 24 b3 := by
    rw [packWord, BitVec.or_comm, BitVec.or_comm _ (fieldAt 8 b1), BitVec.or_comm (fieldAt 24 b3), ← BitVec.or_assoc,
      ← BitVec.or_assoc]
  rw [hreorder, toNat_byteFields]
  omega

theorem toNat_clsWindow (f : List Byte) (k : Nat) :
    (clsWindow f k).toNat = 16777216 * (f.getD k 0).toNat + 65536 * (f.getD (k + 1) 0).toNat +
      256 * (f.getD (k + 2) 0).toNat + (f.getD (k + 3) 0).toNat :=
  toNat_packWord ..

theorem toNat_clsWord (f : List Byte) (flags : Word) (k : Nat) :
    (clsWord f flags k).toNat =
      if flags.getLsbD 15 then 256 * (f.getD (k + 1) 0).toNat + (f.getD k 0).toNat
      else 256 * (f.getD k 0).toNat + (f.getD (k + 1) 0).toNat := by
  rw [clsWord, apply_ite BitVec.toNat, toNat_joinBytes, toNat_joinBytes]
  rfl

/-! The validation (R173 to R177). -/

section
variable {f : List Byte} {a fc : Byte} (flags : Word)

theorem classify_empty (h : f.length = 0) : classify f a fc flags = (.noResponse, 0) := if_pos h

theorem classify_short (h1 : 1 ≤ f.length) (h4 : f.length ≤ 4) :
    classify f a fc flags = (.invalidReceiveLength, BitVec.ofNat 32 f.length) := by
  rw [classify, if_neg (by omega), if_pos h4]

theorem classify_badCrc (h5 : 5 ≤ f.length) (hcrc : crc16 (f.take (f.length - 2)) ≠ frameCrc f) :
    classify f a fc flags =
      (.crcError, fieldAt 16 (crc16 (f.take (f.length - 2))) ||| fieldAt 0 (frameCrc f)) := by
  rw [classify, if_neg (by omega), if_neg (by omega), if_pos hcrc]

theorem classify_badHeader (h5 : 5 ≤ f.length) (hcrc : crc16 (f.take (f.length - 2)) = frameCrc f)
    (hhead : f.getD 0 0 ≠ a ∨ f.getD 1 0 ≠ fc) :
    classify f a fc flags = (.invalidResponse, fieldAt 8 (f.getD 0 0) ||| fieldAt 0 (f.getD 1 0)) := by
  rw [classify, if_neg (by omega), if_neg (by omega), if_neg (not_not_intro hcrc)]
  exact if_pos hhead

/-- A frame that passes the validation is decoded by its function code (R177). -/
theorem classify_of_passes (h : PassesValidation f a fc) : classify f a fc flags = decodePayload f fc flags := by
  obtain ⟨h5, hverify, haddr, hfc⟩ := h
  have hcrc : crc16 (f.take (f.length - 2)) = frameCrc f := beq_iff_eq.mp hverify
  rw [classify, if_neg (by omega), if_neg (by omega), if_neg (not_not_intro hcrc)]
  exact if_neg (not_or.mpr ⟨not_not_intro haddr, not_not_intro hfc⟩)

end

theorem toNat_frameCrc (f : List Byte) :
    (frameCrc f).toNat = 256 * (f.getD (f.length - 1) 0).toNat + (f.getD (f.length - 2) 0).toNat := toNat_joinBytes ..

/-- Settles O18: each clause is the branch of its validation step. -/
theorem classifyValidatesInOrder : Obligations.ClassifyValidatesInOrder := by
  intro f a fc flags
  dsimp only
  rw [← toNat_frameCrc, ne_eq, BitVec.toNat_inj]
  refine ⟨fun h => classify_empty flags h, fun h1 h4 => ?_, fun h5 hcrc => ?_, fun h5 hcrc hhead => ?_⟩
  · rw [classify_short flags h1 h4]
    exact ⟨rfl, Nat.mod_eq_of_lt (by omega)⟩
  · rw [classify_badCrc flags h5 hcrc]
    exact ⟨rfl, toNat_halfPair ..⟩
  · rw [classify_badHeader flags h5 hcrc hhead]
    exact ⟨rfl, toNat_bytePair ..⟩

/-! The decode by function code (R178 to R187). -/

theorem decodePayload_of_bitRead {f : List Byte} {fc : Byte} (flags : Word) (h : fc = 1 ∨ fc = 2) :
    decodePayload f fc flags = decodeBits f := if_pos h

theorem decodePayload_of_registerRead {f : List Byte} {fc : Byte} (flags : Word) (h : fc = 3 ∨ fc = 4) :
    decodePayload f fc flags = decodeRegisters f flags := by
  obtain rfl | rfl := h <;> rfl

theorem decodePayload_seven (f : List Byte) (flags : Word) :
    decodePayload f 7 flags = (.value, (f.getD 2 0).setWidth 32) := rfl

theorem decodePayload_of_write {f : List Byte} {fc : Byte} (flags : Word) (h : fc = 5 ∨ fc = 6 ∨ fc = 15 ∨ fc = 16) :
    decodePayload f fc flags = (.actorResponse, clsWindow f 2) := by
  obtain rfl | rfl | rfl | rfl := h <;> rfl

theorem decodePayload_of_unknown {f : List Byte} {fc : Byte} (flags : Word)
    (h : fc ∉ ([1, 2, 3, 4, 5, 6, 7, 15, 16] : List Byte)) :
    decodePayload f fc flags = (.unexpectedFunctionCode, clsWindow f 2) := by
  simp only [List.mem_cons, List.not_mem_nil, or_false, not_or] at h
  simp only [decodePayload, h, or_false, if_false]

theorem decodeBits_of_fits {f : List Byte} (hcount : f.getD 2 0 = 1) (hlen : f.length = 6) :
    decodeBits f = (.value, (f.getD 3 0).setWidth 32) := if_pos ⟨hcount, hlen⟩

theorem decodeBits_of_badLength {f : List Byte} (h : f.getD 2 0 ≠ 1 ∨ f.length ≠ 6) :
    decodeBits f = (.invalidReceiveLength, clsWindow f 3) := if_neg (not_and_or.mpr h)

/-- Settles O19: the branches of the bit decode, which other lengths leave with the window at 3. -/
theorem classifyDecodesBitReads : Obligations.ClassifyDecodesBitReads := by
  intro f a fc flags hpass hfc
  dsimp only
  rw [classify_of_passes flags hpass, decodePayload_of_bitRead flags hfc]
  refine ⟨fun hcount hlen => ?_, fun hbad => ?_⟩
  · rw [decodeBits_of_fits hcount hlen]
    exact ⟨rfl, BitVec.toNat_setWidth_of_le (by decide)⟩
  · rw [decodeBits_of_badLength hbad]
    exact ⟨rfl, toNat_clsWindow ..⟩

/-- A byte count or a length other than the flags ask for (R179). -/
theorem decodeRegisters_of_badLength {f : List Byte} {flags : Word}
    (h : (f.getD 2 0).toNat ≠ expectedBytes flags ∨ f.length ≠ 5 + expectedBytes flags) :
    decodeRegisters f flags = (.invalidReceiveLength, clsWindow f 3) := if_pos h

/-- The registers of a response of the expected length (R180 to R183). -/
theorem decodeRegisters_of_fits {f : List Byte} {flags : Word} (hcount : (f.getD 2 0).toNat = expectedBytes flags)
    (hlen : f.length = 5 + expectedBytes flags) :
    decodeRegisters f flags = (.value,
      if cycCombine flags = false then (clsWord f flags 3).setWidth 32
      else if cycHwf flags then fieldAt 16 (clsWord f flags 3) ||| fieldAt 0 (clsWord f flags 5)
      else fieldAt 16 (clsWord f flags 5) ||| fieldAt 0 (clsWord f flags 3)) := by
  refine (if_neg (not_or.mpr ⟨not_not_intro hcount, not_not_intro hlen⟩)).trans ?_
  split_ifs <;> rfl

/-- Settles O20: the length decides the class, and the flags order the bytes and the registers. -/
theorem classifyDecodesRegisterReads : Obligations.ClassifyDecodesRegisterReads := by
  intro f a fc flags hpass hfc
  dsimp only
  rw [classify_of_passes flags hpass, decodePayload_of_registerRead flags hfc]
  refine ⟨fun hbad => ?_, fun hcount hlen => ?_⟩
  · rw [decodeRegisters_of_badLength hbad]
    exact ⟨rfl, toNat_clsWindow ..⟩
  · rw [decodeRegisters_of_fits hcount hlen, ← toNat_clsWord, ← toNat_clsWord]
    refine ⟨rfl, fun (hone : cycCombine flags = false) => ?_,
      fun (htwo : cycCombine flags = true) (hhigh : cycHwf flags = true) => ?_,
      fun (htwo : cycCombine flags = true) (hlow : cycHwf flags = false) => ?_⟩
    · rw [if_pos hone]
      exact BitVec.toNat_setWidth_of_le (by decide)
    · rw [if_neg (ne_false_of_eq_true htwo), if_pos hhigh]
      exact toNat_halfPair ..
    · rw [if_neg (ne_false_of_eq_true htwo), if_neg (ne_true_of_eq_false hlow)]
      exact toNat_halfPair ..

/-- Settles O21: each list of codes picks its branch of the decode. -/
theorem classifyDecodesOtherCodes : Obligations.ClassifyDecodesOtherCodes := by
  intro f a fc flags hpass
  have hmem (codes : List Byte) : fc.toNat ∈ codes.map BitVec.toNat ↔ fc ∈ codes :=
    List.mem_map_of_injective BitVec.toNat_injective
  dsimp only
  rw [classify_of_passes flags hpass]
  refine ⟨?_, fun hwrite => ?_, fun hunknown => ?_⟩
  · rintro rfl
    rw [decodePayload_seven]
    exact ⟨rfl, BitVec.toNat_setWidth_of_le (by decide)⟩
  · have hfc : fc ∈ ([5, 6, 15, 16] : List Byte) := (hmem _).mp hwrite
    rw [decodePayload_of_write flags (by simpa using hfc)]
    exact ⟨rfl, toNat_clsWindow ..⟩
  · rw [decodePayload_of_unknown flags (mt (hmem _).mpr hunknown)]
    exact ⟨rfl, toNat_clsWindow ..⟩

/-! `CLASSIFY` (R190). -/

theorem exec_classify_of_fits {len : Nat} {s : State} (h : len ≤ s.params.cinBytes) :
    exec (.classify len) s = .next { s with
      host.clsResult := clsResultWord len s.argFc (classify (s.codecIn len) s.argAddr s.argFc s.argFlags).1
      host.clsValue := (classify (s.codecIn len) s.argAddr s.argFc s.argFlags).2 } := if_neg (Nat.not_lt.mpr h)

theorem classTable_code (c : RespClass) : classTable[c.code.toNat]? = some c := by cases c <;> rfl

/-- `CLS_RESULT` by bytes: the class code, the function code, `LEN`, and the valid bit (R31). -/
theorem clsResultWord_eq_packWord (len : Nat) (fc : Byte) (c : RespClass) :
    clsResultWord len fc c = packWord (c.code.setWidth 8) fc (BitVec.ofNat 8 len) 0x80 := by
  have hcode : fieldAt 0 c.code = fieldAt 0 (c.code.setWidth 8) := by cases c <;> rfl
  have hvalid : bitAt 31 true = fieldAt 24 (0x80 : Byte) := by decide
  rw [clsResultWord, packWord, hcode, hvalid]

theorem toNat_clsResultWord {len : Nat} (h : len < 256) (fc : Byte) (c : RespClass) :
    (clsResultWord len fc c).toNat = 2147483648 + 65536 * len + 256 * fc.toNat + c.code.toNat := by
  rw [clsResultWord_eq_packWord, toNat_packWord, BitVec.toNat_setWidth_of_le (by decide), BitVec.toNat_ofNat,
    Nat.mod_eq_of_lt h]
  rfl

theorem extractLsb'_eq_of_toNat {x : Word} {k n : Nat} {v : BitVec n} (h : x.toNat / 2 ^ k % 2 ^ n = v.toNat) :
    x.extractLsb' k n = v := by
  apply BitVec.eq_of_toNat_eq
  rw [BitVec.extractLsb'_toNat, Nat.shiftRight_eq_div_pow, h]

/-- The fields of `CLS_RESULT` (R31), read off the number it holds. -/
theorem clsResultWord_fields {len : Nat} (h : len < 256) (fc : Byte) (c : RespClass) :
    (clsResultWord len fc c).extractLsb' 0 4 = c.code ∧ (clsResultWord len fc c).extractLsb' 4 4 = 0#4 ∧
    (clsResultWord len fc c).extractLsb' 8 8 = fc ∧ (clsResultWord len fc c).extractLsb' 16 8 = BitVec.ofNat 8 len ∧
    (clsResultWord len fc c).extractLsb' 24 7 = 0#7 ∧ (clsResultWord len fc c).getLsbD 31 = true := by
  have hfc : fc.toNat < 256 := fc.isLt
  have hcode : c.code.toNat < 16 := c.code.isLt
  have hmsb : (clsResultWord len fc c).msb = true := by
    rw [BitVec.msb_eq_decide, toNat_clsResultWord h, decide_eq_true_iff]
    omega
  refine ⟨?_, ?_, ?_, ?_, ?_, hmsb⟩
  all_goals
    apply extractLsb'_eq_of_toNat
    simp only [toNat_clsResultWord h, BitVec.toNat_ofNat]
    omega

theorem cinBytes_lt {p : Params} (hp : p.Legal) : p.cinBytes < 256 := by
  obtain ⟨-, ⟨-, hframe⟩, ⟨-, hrx⟩, -⟩ := hp
  exact max_lt (Nat.lt_succ_of_le hframe) (Nat.lt_succ_of_le hrx)

/-- Settles O24: the clauses are the branches of the command, the result register being the one of R31. -/
theorem classifyCommandWritesTheResult : Obligations.ClassifyCommandWritesTheResult := by
  refine ⟨fun w hw => decode_of_matches (o := .classify) hw, fun s len hp hlen => ?_, fun s len hlen => if_pos hlen⟩
  have hlt : len < 256 := lt_of_le_of_lt hlen (cinBytes_lt hp)
  obtain ⟨hcls, hgap, hfc, hlenField, hgap', hvalid⟩ := clsResultWord_fields hlt s.argFc
    (classify (s.codecIn len) s.argAddr s.argFc s.argFlags).1
  refine ⟨_, exec_classify_of_fits hlen, ?_, hgap, hfc, ?_, hgap', hvalid⟩
  · rw [hcls]
    exact classTable_code _
  · rw [hlenField]
    exact Nat.mod_eq_of_lt hlt

end Sys2Proof.Machine
end

section
/-! `CFG_COMMIT` (42_scheduler.md): its word, its checks, its timing values, and that the staging registers do not reach
the worker. -/

namespace Sys2Proof

theorem Opcode.opcode_instr (o : Opcode) (len : Nat) : (o.instr len).opcode = o := by cases o <;> rfl

/-- The command of a row whose mask fixes all 32 bits has one word (R102). -/
theorem decode_eq_command_iff_of_fixed {o : Opcode} (hmask : o.mask = BitVec.allOnes 32) {len : Nat}
    (hlen : ∀ n, o.instr n = o.instr len) (w : Word) : decode w = .command (o.instr len) ↔ w = o.value := by
  rw [decode_eq_command_iff]
  constructor
  · rintro ⟨o', ho', hi⟩
    have hrow : o' = o := by simpa only [Opcode.opcode_instr] using congrArg Instr.opcode hi
    rw [hrow, hmask, BitVec.and_allOnes] at ho'
    exact ho'
  · rintro rfl
    exact ⟨o, by rw [hmask, BitVec.and_allOnes], hlen _⟩

/-- Only one word is `CFG_COMMIT` (R102). -/
theorem decode_eq_cfgCommit_iff (w : Word) : decode w = .command .cfgCommit ↔ w = 0x00000007 :=
  decode_eq_command_iff_of_fixed (o := .cfgCommit) (len := 0) rfl (fun _ => rfl) w

end Sys2Proof

namespace Sys2Proof.Machine

/-! The checks of a commit (R210). -/

theorem isPollCode_iff (fc : Byte) : isPollCode fc = true ↔ fc.toNat ∈ [1, 2, 3, 4, 7] := by
  simp [isPollCode, ← BitVec.toNat_inj, or_assoc]

/-- The numbers of R210 tell the checks apart. -/
theorem CfgReason.eq_of_number_eq {a b : CfgReason} : a.number.toNat = b.number.toNat → a = b := by
  cases a <;> cases b <;> decide

/-- Every check that comes before `why` in the order of R210 passes. -/
def State.PassesBefore (s : State) (why : CfgReason) : Prop :=
  ∀ earlier : CfgReason, earlier.number.toNat < why.number.toNat → s.passes earlier

/-- No check comes before the first. -/
theorem passesBefore_version (s : State) : s.PassesBefore .version := fun earlier h =>
  absurd h (by cases earlier <;> decide)

theorem State.PassesBefore.next {s : State} {why why' : CfgReason} (h : s.PassesBefore why) (hp : s.passes why)
    (hnext : why'.number.toNat = why.number.toNat + 1) : s.PassesBefore why' := by
  intro earlier hlt
  rcases Nat.lt_succ_iff_lt_or_eq.mp (hnext ▸ hlt) with hbefore | hsame
  · exact h earlier hbefore
  · exact CfgReason.eq_of_number_eq hsame ▸ hp

/-- The check of the function codes is the last one. -/
theorem State.PassesBefore.all {s : State} (h : s.PassesBefore .functionCode) (hp : s.passes .functionCode)
    (why : CfgReason) : s.passes why := by
  by_cases hwhy : why = .functionCode
  · exact hwhy ▸ hp
  · exact h why (by revert hwhy; cases why <;> decide)

/-- Of two checks that fail after nothing but passing ones, neither comes first. -/
theorem State.PassesBefore.unique {s : State} {why why' : CfgReason} (h : s.PassesBefore why) (hfail : ¬ s.passes why)
    (h' : s.PassesBefore why') (hfail' : ¬ s.passes why') : why = why' := by
  rcases Nat.lt_trichotomy why.number.toNat why'.number.toNat with hlt | heq | hgt
  · exact absurd (h' why hlt) hfail
  · exact CfgReason.eq_of_number_eq heq
  · exact absurd (h why' hgt) hfail'

/-- The entries check 7 reads are those of the staging table. -/
theorem getElem_take_staged {s : State} {n i : Nat} (h : i < (s.staging.devs.take n).length) :
    (s.staging.devs.take n)[i] = s.staged i := by
  have hi : i < s.staging.devs.length := lt_of_lt_of_le h (List.length_take_le' n _)
  rw [List.getElem_take, State.staged, List.getD_eq_getElem _ _ hi]

/-- The bad device is the first whose function code may not be polled. -/
theorem badDevice_eq_some {s : State} {i : Nat} (h : s.badDevice = some i) :
    i < s.stCount.toNat ∧ isPollCode (s.staged i).fc = false ∧ ∀ j, j < i → isPollCode (s.staged j).fc = true := by
  obtain ⟨hi, hbad, hleast⟩ := List.findIdx?_eq_some_iff_getElem.mp h
  simp only [getElem_take_staged, Bool.not_eq_true'] at hbad hleast
  exact ⟨lt_of_lt_of_le hi (List.length_take_le ..), hbad, fun j hj => by simpa using hleast j hj⟩

/-- With the count within the table, no bad device means that check 7 passes. -/
theorem passes_functionCode_of_badDevice {s : State} (hcount : s.stCount.toNat ≤ s.staging.devs.length)
    (h : s.badDevice = none) : s.passes .functionCode := by
  intro i hi
  have hlt : i < (s.staging.devs.take s.stCount.toNat).length := by
    rw [List.length_take]
    omega
  have hpoll := List.findIdx?_eq_none_iff.mp h _ (List.getElem_mem hlt)
  rwa [getElem_take_staged, Bool.not_eq_false'] at hpoll

/-- The seven checks accept, or name the first that fails; only check 7 has an index other than 0 (R210). -/
theorem commitCheck_cases {s : State} (hlen : s.staging.devs.length = s.params.nDev) :
    (s.commitCheck = none ∧ ∀ why, s.passes why) ∨
    (∃ why idx, s.commitCheck = some (why, idx) ∧ ¬ s.passes why ∧ s.PassesBefore why ∧
      (why ≠ .functionCode → idx = 0) ∧ (why = .functionCode → s.badDevice = some idx)) := by
  have hbefore := passesBefore_version s
  unfold State.commitCheck
  split
  · rename_i hfail
    exact .inr ⟨.version, 0, rfl, hfail, hbefore, fun _ => rfl, nofun⟩
  rename_i hversion
  replace hbefore := hbefore.next (why' := .count) (not_not.mp hversion) rfl
  split
  · rename_i hfail
    exact .inr ⟨.count, 0, rfl, Nat.not_le.mpr hfail, hbefore, fun _ => rfl, nofun⟩
  rename_i hcount
  replace hcount : s.stCount.toNat ≤ s.params.nDev := Nat.not_lt.mp hcount
  replace hbefore := hbefore.next (why' := .baud) hcount rfl
  split
  · rename_i hfail
    exact .inr ⟨.baud, 0, rfl, not_not.mpr hfail, hbefore, fun _ => rfl, nofun⟩
  rename_i hbaud
  replace hbefore := hbefore.next (why' := .wordLen) hbaud rfl
  split
  · rename_i hfail
    exact .inr ⟨.wordLen, 0, rfl, not_or.mpr hfail, hbefore, fun _ => rfl, nofun⟩
  rename_i hwordLen
  replace hbefore := hbefore.next (why' := .stopBits) (by simpa [State.passes, or_iff_not_imp_left] using hwordLen) rfl
  split
  · rename_i hfail
    exact .inr ⟨.stopBits, 0, rfl, not_or.mpr hfail, hbefore, fun _ => rfl, nofun⟩
  rename_i hstop
  replace hbefore := hbefore.next (why' := .parity) (by simpa [State.passes, or_iff_not_imp_left] using hstop) rfl
  split
  · rename_i hfail
    exact .inr ⟨.parity, 0, rfl, Nat.not_le.mpr hfail, hbefore, fun _ => rfl, nofun⟩
  rename_i hparity
  replace hbefore := hbefore.next (why' := .functionCode) (Nat.not_lt.mp hparity) rfl
  split
  · rename_i i hbad
    obtain ⟨hi, hpoll, -⟩ := badDevice_eq_some hbad
    have hfail : ¬ s.passes .functionCode := fun hpass => by simp [hpass i hi] at hpoll
    exact .inr ⟨.functionCode, i, rfl, hfail, hbefore, fun h => absurd rfl h, fun _ => hbad⟩
  · rename_i hnone
    exact .inl ⟨rfl, hbefore.all (passes_functionCode_of_badDevice (hlen ▸ hcount) hnone)⟩

/-- A commit is accepted only if all seven checks pass. -/
theorem passes_of_commitCheck {s : State} (hlen : s.staging.devs.length = s.params.nDev) (h : s.commitCheck = none)
    (why : CfgReason) : s.passes why := by
  obtain ⟨-, hall⟩ | ⟨_, _, hsome, -⟩ := commitCheck_cases hlen
  · exact hall why
  · simp [h] at hsome

theorem exec_cfgCommit_of_passes {s : State} (hlen : s.staging.devs.length = s.params.nDev)
    (hall : ∀ why, s.passes why) : exec .cfgCommit s = .next (acceptCommit s) := by
  obtain ⟨hnone, -⟩ | ⟨why, _, -, hfail, -⟩ := commitCheck_cases hlen
  · simp only [exec, execCfgCommit, hnone]
  · exact absurd (hall why) hfail

/-- `CFG_STATUS` of a rejected commit: the index above the number (R27). -/
theorem cfgStatus_eq {idx : Nat} (h : idx < 256) (why : CfgReason) :
    fieldAt 8 (BitVec.ofNat 8 idx) ||| why.number = BitVec.ofNat 32 (256 * idx + why.number.toNat) := by
  have hnumber : why.number.toNat < 2 ^ 8 := by cases why <;> decide
  apply BitVec.eq_of_toNat_eq
  rw [toNat_fieldAt_or 8 _ _ hnumber (by decide), BitVec.toNat_ofNat, BitVec.toNat_ofNat]
  omega

/-- Settles O26: the check that `commitCheck` names is the one after passing ones only, and there is no other such. -/
theorem commitAcceptsOrReportsTheFirstFailure : Obligations.CommitAcceptsOrReportsTheFirstFailure := by
  refine ⟨decode_eq_cfgCommit_iff, fun s why hlen _ hfail hbefore => ?_,
    fun s hlen hall => ⟨_, exec_cfgCommit_of_passes hlen hall, rfl, rfl⟩⟩
  obtain ⟨-, hall⟩ | ⟨why', idx, hcheck, hfail', hbefore', hzero, hbad⟩ := commitCheck_cases hlen
  · exact absurd (hall why) hfail
  obtain rfl : why = why' := State.PassesBefore.unique hbefore hfail hbefore' hfail'
  have hcode : why = .functionCode → idx < s.stCount.toNat ∧ (s.staged idx).fc.toNat ∉ [1, 2, 3, 4, 7] ∧
      ∀ j, j < idx → (s.staged j).fc.toNat ∈ [1, 2, 3, 4, 7] := fun h => by
    simpa only [← isPollCode_iff, Bool.not_eq_true] using badDevice_eq_some (hbad h)
  have hidx : idx < 256 := by
    by_cases h : why = .functionCode
    · exact lt_trans (hcode h).1 s.stCount.isLt
    · exact hzero h ▸ by decide
  refine ⟨idx, hidx, hzero, hcode, ?_⟩
  rw [← cfgStatus_eq hidx]
  simp only [exec, execCfgCommit, hcheck]
  rfl

/-! Timing values (R213 to R215). -/

theorem toNat_ofNat_clampMs (x : Nat) : (BitVec.ofNat 16 (clampMs x)).toNat = min (max x 5) 10000 := by
  rw [clampMs, BitVec.toNat_ofNat]
  exact Nat.mod_eq_of_lt (lt_of_le_of_lt (Nat.min_le_right ..) (by decide))

/-- `ceil(a / b)` is the least multiplier of `b` that covers `a`. -/
theorem ceilDiv_le_iff {a b n : Nat} (hb : 0 < b) : ceilDiv a b ≤ n ↔ a ≤ n * b := by
  rw [ceilDiv, ← Nat.ceilDiv_eq_add_pred_div, ceilDiv_le_iff_le_mul hb, Nat.mul_comm]

/-- `timing(staging)` by the three registers (R213, R215): manual values are clamped, automatic ones are 1000 ms and the
least number of ms that covers 3.5 characters. -/
theorem acceptCommit_timing (s : State) (hbaud : 0 < s.stBaud) :
    (s.stManual = true →
      (acceptCommit s).active.ifs.toNat = min (max s.stPause 5) 10000 ∧
      (acceptCommit s).active.timeout.toNat = min (max s.stTimeout 5) 10000) ∧
    (s.stManual = false →
      (acceptCommit s).active.timeout.toNat = 1000 ∧
      ∃ n : Nat, (acceptCommit s).active.ifs.toNat = min (max n 5) 10000 ∧ 3500 * s.charBits ≤ n * s.stBaud ∧
        ∀ m, m < n → m * s.stBaud < 3500 * s.charBits) := by
  simp only [acceptCommit, State.newIfs, State.newTimeout]
  refine ⟨fun h => ?_, fun h => ?_⟩
  · simp only [h, if_true, toNat_ofNat_clampMs, and_self]
  · simp only [h, Bool.false_eq_true, if_false, toNat_ofNat_clampMs]
    refine ⟨rfl, _, rfl, (ceilDiv_le_iff hbaud).mp le_rfl, fun m hm => ?_⟩
    exact Nat.lt_of_not_le fun hle => Nat.not_lt.mpr ((ceilDiv_le_iff hbaud).mpr hle) hm

/-! The tables after a commit (R211). -/

@[simp] theorem device_acceptCommit (s : State) (i : Nat) : (acceptCommit s).device i = (s.staged i).commit :=
  List.getD_map (d := StagedDevice.zero) ..

@[simp] theorem deadline_acceptCommit (s : State) (i : Nat) : (acceptCommit s).deadline i = 0 :=
  List.getElem?_getD_replicate_default_eq ..

@[simp] theorem devState_acceptCommit (s : State) (i : Nat) : (acceptCommit s).devState i = .idle :=
  List.getElem?_getD_replicate_default_eq ..

/-! The staging registers do not reach the worker (R211). -/

/-- `s` with other contents of the staging registers. -/
def State.withStaging (d : Staging) (s : State) : State := { s with staging := d }

section
variable (d : Staging)

theorem idleStep_withStaging (s : State) : idleStep (s.withStaging d) = (idleStep s).map (State.withStaging d) := by
  simp only [idleStep, apply_ite (Option.map (State.withStaging d))]
  rfl

/-- The frame-boundary checks read no staging register: what is left is the state's own rule. -/
theorem atBoundary_withStaging (c : Bool) {own : State → Option State} {s : State}
    (hown : own (s.withStaging d) = (own s).map (State.withStaging d)) :
    atBoundary c own (s.withStaging d) = (atBoundary c own s).map (State.withStaging d) := by
  simp only [atBoundary, apply_ite (Option.map (State.withStaging d)), hown]
  rfl

theorem scanStep_withStaging (s : State) : scanStep (s.withStaging d) = (scanStep s).withStaging d := by
  simp only [scanStep, apply_ite (State.withStaging d)]
  rfl

theorem drainStep_withStaging (s : State) : drainStep (s.withStaging d) = (drainStep s).withStaging d := by
  have hq : (s.withStaging d).relayQ = s.relayQ := rfl
  simp only [drainStep, hq]
  cases s.relayQ <;> rfl

theorem rwaitStep_withStaging (s : State) : rwaitStep (s.withStaging d) = (rwaitStep s).map (State.withStaging d) := by
  simp only [rwaitStep, apply_ite (Option.map (State.withStaging d))]
  rfl

theorem txStep_withStaging (s : State) : txStep (s.withStaging d) = (txStep s).map (State.withStaging d) := by
  simp only [txStep, apply_ite (Option.map (State.withStaging d))]
  rfl

theorem emit_withStaging (e : Event) (s : State) : emit e (s.withStaging d) = (emit e s).withStaging d := by
  simp only [emit, apply_ite (State.withStaging d)]
  rfl

theorem publish_withStaging (s : State) : publish (s.withStaging d) = (publish s).withStaging d := by
  simp only [publish, apply_ite (State.withStaging d), ← emit_withStaging]
  rfl

theorem classifyStep_withStaging (s : State) : classifyStep (s.withStaging d) = (classifyStep s).withStaging d := by
  have hpub := publish_withStaging d { s with worker.cls := s.rxClass.1, worker.val := s.rxClass.2 }
  exact congrArg (fun u => goto .cTurn { u with worker.tEnd := s.now + s.active.ifs.setWidth 64 }) hpub

theorem rxwaitStep_withStaging (s : State) :
    rxwaitStep (s.withStaging d) = (rxwaitStep s).map (State.withStaging d) := by
  simp only [rxwaitStep, apply_ite (Option.map (State.withStaging d)), Option.map_some, ← classifyStep_withStaging]
  rfl

theorem turnStep_withStaging (s : State) : turnStep (s.withStaging d) = (turnStep s).map (State.withStaging d) := by
  simp only [turnStep, apply_ite (Option.map (State.withStaging d))]
  rfl

theorem returnStep_withStaging (s : State) : returnStep (s.withStaging d) = (returnStep s).withStaging d := by
  have hw : (s.withStaging d).worker = s.worker := rfl
  simp only [returnStep, hw]
  cases s.worker.ctx.src <;> rfl

theorem endStep_withStaging (s : State) : endStep (s.withStaging d) = (endStep s).withStaging d := by
  simp only [endStep, apply_ite (State.withStaging d), ← returnStep_withStaging]
  rfl

/-- The worker reads and writes no staging register. -/
theorem workerStep_withStaging (s : State) :
    workerStep (s.withStaging d) = (workerStep s).map (State.withStaging d) := by
  have hw : (s.withStaging d).worker = s.worker := rfl
  simp only [workerStep, hw]
  cases s.worker.ws with
  | wIdle => exact idleStep_withStaging d s
  | wPass => exact atBoundary_withStaging d false rfl
  | wScan => exact atBoundary_withStaging d true (congrArg some (scanStep_withStaging d s))
  | wDue => rfl
  | wDrain => exact atBoundary_withStaging d true (congrArg some (drainStep_withStaging d s))
  | wRwait => exact atBoundary_withStaging d true (rwaitStep_withStaging d s)
  | cStart => rfl
  | cTx => exact txStep_withStaging d s
  | cRxwait => exact rxwaitStep_withStaging d s
  | cTurn => exact turnStep_withStaging d s
  | cEnd => exact congrArg some (endStep_withStaging d s)

end

/-- Settles O25: acceptance is one record update, and no worker step looks at the staging registers. -/
theorem acceptedCommitActivatesTheStaging : Obligations.AcceptedCommitActivatesTheStaging := by
  refine ⟨decode_eq_cfgCommit_iff, fun s hlen hall => ?_, fun s d => workerStep_withStaging d s⟩
  obtain ⟨hmanual, hauto⟩ := acceptCommit_timing s (Nat.pos_of_ne_zero (hall .baud))
  have hchar : s.charBits = 1 + s.stWordLen + s.stStop + (if s.stParity = 0 then 0 else 1) :=
    congrArg (1 + s.stWordLen + s.stStop + ·) (ite_not ..)
  refine ⟨_, exec_cfgCommit_of_passes hlen hall, rfl, rfl, ?_, List.length_replicate, List.length_replicate,
    fun i _ => ?_, hmanual, ?_⟩
  · exact (List.length_map _).trans hlen
  · rw [device_acceptCommit, deadline_acceptCommit, devState_acceptCommit]
    exact ⟨rfl, rfl, rfl, rfl, rfl, rfl⟩
  · rw [← hchar]
    exact hauto

end Sys2Proof.Machine
end

section
/-! The scan and Due steps of a pass (42_scheduler.md). -/

namespace Sys2Proof.Machine

/-! One entry of the schedule (R38, R39). -/

@[simp] theorem deadline_setDeadline_self {s : State} {i : Nat} (h : i < s.sched.deadlines.length) (t : DWord) :
    (setDeadline i t s).deadline i = t := by
  simp [State.deadline, List.getD_eq_getElem?_getD, h]

@[simp] theorem deadline_setDeadline_of_ne {i j : Nat} (h : j ≠ i) (t : DWord) (s : State) :
    (setDeadline i t s).deadline j = s.deadline j := by
  simp [State.deadline, List.getD_eq_getElem?_getD, List.getElem?_set_ne h.symm]

@[simp] theorem devState_setDevState_self {s : State} {i : Nat} (h : i < s.sched.devStates.length) (d : DevState) :
    (setDevState i d s).devState i = d := by
  simp [State.devState, List.getD_eq_getElem?_getD, h]

@[simp] theorem devState_setDevState_of_ne {i j : Nat} (h : j ≠ i) (d : DevState) (s : State) :
    (setDevState i d s).devState j = s.devState j := by
  simp [State.devState, List.getD_eq_getElem?_getD, List.getElem?_set_ne h.symm]

/-! `W_SCAN` (R220, R221). -/

/-- Past the boundary checks the scan step is the worker's. -/
theorem workerStep_of_scanning {s : State} (hw : s.worker.ws = .wScan) (hrun : s.run = true)
    (hs : s.worker.restart = false) : workerStep s = some (scanStep s) := by
  rw [workerStep_wScan hw, atBoundary, hrun, hs]
  rfl

theorem scanStep_of_end {s : State} (h : s.active.count.toNat ≤ s.worker.scanI.toNat) :
    scanStep s = goto .wDrain s := if_pos h

theorem scanStep_of_due {s : State} (h : s.worker.scanI.toNat < s.active.count.toNat)
    (hdue : s.isDue s.worker.scanI.toNat = true) : scanStep s = becomeDue s.worker.scanI.toNat s :=
  (if_neg (Nat.not_le.mpr h)).trans (if_pos hdue)

theorem scanStep_of_not_due {s : State} (h : s.worker.scanI.toNat < s.active.count.toNat)
    (hdue : s.isDue s.worker.scanI.toNat = false) : scanStep s = { s with worker.scanI := s.worker.scanI + 1 } :=
  (if_neg (Nat.not_le.mpr h)).trans (if_neg (Bool.eq_false_iff.mp hdue))

theorem isDue_iff (s : State) (i : Nat) :
    s.isDue i = true ↔ cycMag (s.device i).cycle ≠ 0 ∧ (s.deadline i).toNat ≤ s.worker.passNow.toNat := by
  simp [State.isDue, BitVec.le_def]

/-- The longest period is 4095 s (R114). -/
theorem periodMs_le (c : Word) : periodMs c ≤ 4095000 := by
  have hmag : cycMag c < 4096 := (c.extractLsb' 0 12).isLt
  unfold periodMs
  split <;> omega

/-- The deadline of R221, its sum modulo 2^64 (R225). -/
theorem toNat_nextDeadline (now : DWord) (c : Word) :
    (now + BitVec.ofNat 64 (periodMs c)).toNat = (now.toNat + periodMs c) % 2 ^ 64 := by
  rw [BitVec.toNat_add, BitVec.toNat_ofNat, Nat.add_mod_mod]

/-- The schedule after device `i` became Due. -/
theorem becomeDue_schedule {s : State} {i : Nat} (hdl : i < s.sched.deadlines.length)
    (hst : i < s.sched.devStates.length) :
    (becomeDue i s).devState i = .due ∧
    (becomeDue i s).deadline i = s.worker.passNow + BitVec.ofNat 64 (periodMs (s.device i).cycle) ∧
    ∀ j, j ≠ i → (becomeDue i s).devState j = s.devState j ∧ (becomeDue i s).deadline j = s.deadline j :=
  ⟨devState_setDevState_self hst _, deadline_setDeadline_self (s := setDevState i .due s) hdl _,
    fun _ hj => ⟨devState_setDevState_of_ne hj _ s, deadline_setDeadline_of_ne hj _ s⟩⟩

/-- Settles O28: the clauses are the branches of the scan step. -/
theorem scanStepArmsDueDevices : Obligations.ScanStepArmsDueDevices := by
  intro s hw hrun hs htab i mag period
  obtain ⟨-, -, hdl, hst, hcount, -⟩ := htab
  rw [workerStep_of_scanning hw hrun hs]
  refine ⟨fun hend => congrArg some (scanStep_of_end hend), fun hi hnot => ?_, fun hi hmag hle => ?_⟩
  · have hdue : s.isDue i = false := by
      rw [← Bool.not_eq_true, isDue_iff]
      exact fun ⟨hmag, hle⟩ => hnot.elim hmag (Nat.not_lt.mpr hle)
    exact congrArg some (scanStep_of_not_due hi hdue)
  · obtain ⟨hdevState, hdeadline, hother⟩ := becomeDue_schedule (s := s) (i := i) (by omega) (by omega)
    have hstep : scanStep s = becomeDue i s := scanStep_of_due hi ((isDue_iff s i).mpr ⟨hmag, hle⟩)
    refine ⟨periodMs_le _, _, congrArg some hstep, rfl, hdevState, ?_, hother⟩
    rw [hdeadline]
    exact toNat_nextDeadline _ _

/-! `W_DUE` (R222). -/

/-- Putting a frame in the transmit buffer: every byte of the window and every byte outside it. -/
theorem loadTx_frame {s : State} (hm : s.mem.wf = true) {f : List Byte} (hf : f.length ≤ s.params.maxFrame) :
    HoldsBytes (loadTx f s).mem txBase f ∧ ZeroFrom (loadTx f s).mem txBase f.length s.params.maxFrame ∧
    SameOutside s.mem (loadTx f s).mem txBase s.params.maxFrame :=
  ⟨holdsBytes_setWindow hm _ hf, zeroFrom_setWindow hm _ _ f, sameOutside_setWindow hm _ _ f⟩

/-- The request frame by its bytes: a word count of 1 or 2 (R115, R222). -/
theorem pollFrame_eq (d : Device) :
    pollFrame d = frame [d.addr, d.fc, hi8 d.reg, lo8 d.reg, 0,
      if (d.fc = 3 ∨ d.fc = 4) ∧ d.cycle.getLsbD 13 = true then 2 else 1] := by
  rw [pollFrame, buildRequestFrame, wcount, cycCombine]
  split <;> rfl

/-- Settles O30: the request frame of 8 bytes fits every legal `MAX_FRAME`. -/
theorem dueStepLoadsTheRequest : Obligations.DueStepLoadsTheRequest := by
  intro s hw hp hm htab hi i d count
  obtain ⟨-, -, -, hst, -⟩ := htab
  obtain ⟨-, ⟨hmin, -⟩, -⟩ := hp
  obtain ⟨hholds, hzero, hsame⟩ := loadTx_frame hm (f := pollFrame d) (Nat.le_of_succ_le hmin)
  refine ⟨_, workerStep_wDue hw, rfl, ?_, ?_, ?_, hzero, hsame⟩
  · exact devState_setDevState_self (s := loadTx (pollFrame d) s) (hst ▸ hi) _
  · exact fun j hj => devState_setDevState_of_ne hj _ s
  · exact pollFrame_eq d ▸ hholds

end Sys2Proof.Machine
end

section
/-! Who writes the parameters and `CFG_VALID` (R33, R212): of all steps, only an accepted commit and reset. -/

namespace Sys2Proof.Machine

/-- Publishing reaches the event FIFO and its overflow flag only (R268). -/
theorem exists_publish_eq (s : State) : ∃ ovf q, publish s = { s with evtOvf := ovf, evtQ := q } := by
  obtain ⟨-, -, he⟩ | ⟨-, he⟩ := publish_cases s
  · exact ⟨_, _, he⟩
  · obtain ⟨-, he'⟩ | ⟨-, he'⟩ := emit_cases s.attemptEvent s
    all_goals exact ⟨_, _, he.trans he'⟩

/-- `t` is `s` but for the worker, the schedule, the serial side, the buffers, the queues and the ports: the parameters,
`CTRL`, `CFG_VALID`, the time, the command port and the configuration are the same. -/
def SameConfig (s t : State) : Prop :=
  t = { s with
    evtOvf := t.evtOvf, sched := t.sched, worker := t.worker, line := t.line, mem := t.mem, relayQ := t.relayQ,
    evtQ := t.evtQ, ports := t.ports }

theorem SameConfig.params {s t : State} (h : SameConfig s t) : t.params = s.params := by
  rw [SameConfig] at h
  rw [h]

theorem SameConfig.cfgValid {s t : State} (h : SameConfig s t) : t.cfgValid = s.cfgValid := by
  rw [SameConfig] at h
  rw [h]

theorem sameConfig_scanStep (s : State) : SameConfig s (scanStep s) := by
  unfold scanStep
  split
  · rfl
  · split <;> rfl

theorem sameConfig_drainStep (s : State) : SameConfig s (drainStep s) := by
  unfold drainStep
  split <;> rfl

theorem sameConfig_classifyStep (s : State) : SameConfig s (classifyStep s) := by
  obtain ⟨_, _, he⟩ := exists_publish_eq { s with worker.cls := s.rxClass.1, worker.val := s.rxClass.2 }
  rw [classifyStep, he]
  rfl

theorem sameConfig_of_workerStep {s t : State} (h : workerStep s = some t) : SameConfig s t := by
  obtain ⟨-, -, -, rfl⟩ | ⟨-, -, rfl⟩ | ⟨-, -, -, rfl⟩ | ⟨-, -, rfl⟩ | ⟨-, -, -, rfl⟩ | ⟨-, rfl⟩ | ⟨-, -, -, rfl⟩ |
    ⟨-, -, -, -, rfl⟩ | ⟨-, -, -, -, -, rfl⟩ | ⟨-, rfl⟩ | ⟨-, -, -, rfl⟩ | ⟨-, -, -, rfl⟩ | ⟨-, -, -, rfl⟩ |
    ⟨-, -, -, -, rfl⟩ | ⟨-, -, rfl⟩ | ⟨-, -, -, rfl⟩ | ⟨-, -, -, rfl⟩ | ⟨-, -, -, rfl⟩ := workerStep_cases h
  any_goals rfl
  · exact sameConfig_scanStep s
  · exact sameConfig_drainStep s
  · exact sameConfig_classifyStep s

theorem params_cfgValid_storeReg (r : Reg) (v : Word) (s : State) :
    (storeReg r v s).params = s.params ∧ (storeReg r v s).cfgValid = s.cfgValid := by
  cases r <;> exact ⟨rfl, rfl⟩

/-- A command keeps the parameters, and it keeps `CFG_VALID` unless it is an accepted `CFG_COMMIT`, which sets it. -/
theorem params_cfgValid_of_exec {i : Instr} {s t : State} (h : exec i s = .next t) :
    t.params = s.params ∧
    (t.cfgValid = s.cfgValid ∨ (i = .cfgCommit ∧ s.commitCheck = none ∧ t.cfgValid = true)) := by
  obtain ⟨_, _, rfl⟩ | ⟨-, rfl⟩ | ⟨_, -, -, rfl⟩ | ⟨_, -, -, rfl⟩ | ⟨_, -, -, -, rfl⟩ | ⟨_, _, _, -, rfl, -⟩ |
    ⟨-, -, -, rfl⟩ | ⟨-, rfl⟩ | ⟨hi, hcheck, rfl⟩ | ⟨_, _, -, -, rfl⟩ | ⟨-, -, rfl⟩ | ⟨_, _, -, -, rfl⟩ |
    ⟨-, rfl⟩ := exec_cases h
  any_goals exact ⟨rfl, .inl rfl⟩
  · exact ⟨raise_params .., .inl (raise_cfgValid ..)⟩
  · exact ⟨rfl, .inr ⟨hi, hcheck, rfl⟩⟩
  · exact ⟨raise_params .., .inl (raise_cfgValid ..)⟩

/-- What a step can do to the parameters and to `CFG_VALID`. -/
theorem params_cfgValid_of_step {s t : State} (h : step s = .next t) :
    t.params = s.params ∧
    (t.cfgValid = s.cfgValid ∨
      ((∃ rest, s.Pending (.hostWrite cmdAddr 4 0x00000007) rest) ∧ s.commitCheck = none ∧ t.cfgValid = true) ∨
      ((∃ rest, s.Pending .reset rest) ∧ t.cfgValid = false)) := by
  obtain ⟨s', hs', hstep⟩ | ⟨s', hs', -, rfl⟩ | ⟨_, _, _, -, rfl⟩ | ⟨_, rfl⟩ | ⟨_, r, v, _, -, -, -, rfl⟩ |
    ⟨w, i, rest, hpend, hdec, hexec⟩ | ⟨_, _, -, rfl⟩ | ⟨b, rest, -, rfl⟩ | ⟨_, _, -, -, rfl⟩ |
    ⟨rest, hpend, rfl⟩ := step_cases h
  · have hsame := sameConfig_of_workerStep hstep
    obtain rfl | ⟨_, rfl⟩ := hs'
    all_goals exact ⟨hsame.params, .inl hsame.cfgValid⟩
  · obtain rfl | ⟨_, -, rfl⟩ := hs'
    all_goals exact ⟨rfl, .inl rfl⟩
  · unfold hostRead
    split
    all_goals exact ⟨rfl, .inl rfl⟩
  · exact ⟨raise_params .., .inl (raise_cfgValid ..)⟩
  · exact (params_cfgValid_storeReg r v _).imp_right .inl
  · obtain ⟨hparams, hvalid | ⟨rfl, hcheck, hset⟩⟩ := params_cfgValid_of_exec hexec
    · exact ⟨hparams, .inl hvalid⟩
    · obtain rfl := (decode_eq_cfgCommit_iff w).mp hdec
      exact ⟨hparams, .inr (.inl ⟨⟨rest, hpend⟩, hcheck, hset⟩)⟩
  · exact ⟨raise_params .., .inl (raise_cfgValid ..)⟩
  · obtain ⟨-, he⟩ | ⟨-, he⟩ := rxStep_cases b (dropInput rest s)
    all_goals
      rw [he]
      exact ⟨rfl, .inl rfl⟩
  · exact ⟨rfl, .inl rfl⟩
  · exact ⟨rfl, .inr (.inr ⟨⟨rest, hpend⟩, rfl⟩)⟩

/-- Settles O56: of all steps only an accepted commit and reset write `CFG_VALID`. -/
theorem cfgValidIsSetByCommitAndClearedByReset : Obligations.CfgValidIsSetByCommitAndClearedByReset := by
  refine ⟨fun s hlen hall => ⟨_, exec_cfgCommit_of_passes hlen hall, rfl⟩, fun s t hstep => ?_⟩
  obtain ⟨hparams, hvalid⟩ := params_cfgValid_of_step hstep
  obtain hsame | ⟨hcommit, hcheck, hset⟩ | ⟨hreset, hclear⟩ := hvalid
  · exact ⟨hparams, fun hset => .inl (hsame.trans hset), fun hclear hset => by simp [hsame, hclear] at hset⟩
  · exact ⟨hparams, fun _ => .inl hset, fun _ _ => ⟨hcommit, fun hlen => passes_of_commitCheck hlen hcheck⟩⟩
  · exact ⟨hparams, fun _ => .inr hreset, fun _ hset => by simp [hclear] at hset⟩

end Sys2Proof.Machine
end

section
/-! `RELAY_PUSH` (43_relay.md): its word and its three outcomes (R231, R233). -/

namespace Sys2Proof.Machine

theorem length_codecOut (s : State) : s.codecOut.length = s.host.outLen.toNat := Memory.length_readBytes ..

/-- Only one word is `RELAY_PUSH` (R102). -/
theorem decode_eq_relayPush_iff (w : Word) : decode w = .command .relayPush ↔ w = 0x00000006 :=
  decode_eq_command_iff_of_fixed (o := .relayPush) (len := 0) rfl (fun _ => rfl) w

theorem State.relayHasRoom_iff (s : State) (n : Nat) :
    s.relayHasRoom n = true ↔ relayUsed s.relayQ + 1 + n ≤ s.params.relayQBytes := decide_eq_true_iff

theorem exec_relayPush_of_empty {s : State} (h : s.host.outLen = 0) :
    exec .relayPush s = .next (raise .badLen 0x06 s) := if_pos h

theorem exec_relayPush_of_fits {s : State} (h0 : s.host.outLen ≠ 0)
    (h : relayUsed s.relayQ + 1 + s.host.outLen.toNat ≤ s.params.relayQBytes) :
    exec .relayPush s = .next { s with relayQ := s.relayQ ++ [s.codecOut], host.enqFail := false } :=
  (if_neg h0).trans (if_pos ((s.relayHasRoom_iff _).mpr h))

theorem exec_relayPush_of_full {s : State} (h0 : s.host.outLen ≠ 0)
    (h : s.params.relayQBytes < relayUsed s.relayQ + 1 + s.host.outLen.toNat) :
    exec .relayPush s = .next { s with host.enqFail := true } :=
  (if_neg h0).trans (if_neg fun hroom => Nat.not_le_of_lt h ((s.relayHasRoom_iff _).mp hroom))

/-- Settles O32: the clauses are the branches of the command, and the appended frame takes its bytes and its prefix. -/
theorem relayPushEnqueuesAllOrNothing : Obligations.RelayPushEnqueuesAllOrNothing := by
  refine ⟨decode_eq_relayPush_iff, fun s h0 hfits => ?_, fun _ h0 hfull => exec_relayPush_of_full h0 hfull,
    fun _ h0 => exec_relayPush_of_empty h0⟩
  have hlen := length_codecOut s
  have hused : relayUsed (s.relayQ ++ [s.codecOut]) = relayUsed s.relayQ + 1 + s.codecOut.length := by
    rw [relayUsed_append, Nat.add_assoc]
  refine ⟨_, s.codecOut, exec_relayPush_of_fits h0 hfits, rfl, hlen, fun k hk => ?_, hused, ?_⟩
  · rw [State.codecOut, Memory.getD_readBytes, if_pos (hlen ▸ hk)]
  · exact hused.trans_le (hlen ▸ hfits)

end Sys2Proof.Machine
end

section
/-! The receive line (44_cycle_controller.md): a byte is stored or dropped (R251, R252). -/

namespace Sys2Proof.Machine

theorem step_rx {s : State} {b : Byte} {rest : List Input} (h : s.Pending (.rx b) rest) :
    step s = .next (rxStep b (dropInput rest s)) := step_cons h

theorem rxStep_of_room {s : State} (h : s.line.rxLen.toNat < s.params.rxCap) (b : Byte) :
    rxStep b s = { s with mem := s.mem.write (rxBase + s.line.rxLen.toNat) b, line.rxLen := s.line.rxLen + 1 } := if_pos h

theorem rxStep_of_full {s : State} (h : s.params.rxCap ≤ s.line.rxLen.toNat) (b : Byte) : rxStep b s = s :=
  if_neg (Nat.not_lt.mpr h)

/-- Settles O39: the clauses are the branches of the line's step; the length register does not wrap below `RX_CAP`. -/
theorem rxLineAppendsOrDrops : Obligations.RxLineAppendsOrDrops := by
  intro s b rest hpend
  rw [step_rx hpend]
  refine ⟨fun hlen hp hm => ⟨_, congrArg _ (rxStep_of_room (s := dropInput rest s) hlen b), rfl, ?_, ?_, fun a ha => ?_⟩,
    fun hfull => congrArg _ (rxStep_of_full (s := dropInput rest s) hfull b)⟩
  · obtain ⟨-, -, ⟨-, hcap⟩, -⟩ := hp
    exact BitVec.toNat_add_of_lt (Nat.lt_succ_of_le (hlen.trans_le hcap))
  · exact (Memory.read_write hm _ _ _).trans (if_pos rfl)
  · exact (Memory.read_write hm _ _ _).trans (if_neg ha)

end Sys2Proof.Machine
end

section
/-! The frame boundaries (44_cycle_controller.md section 1): where the worker checks `RUN` and `restart` (R245), and that
its other states read neither. -/

namespace Sys2Proof.Machine

/-! The checks (R245). -/

theorem atBoundary_of_parked (c : Bool) (own : State → Option State) {s : State} (hrun : s.run = false) :
    atBoundary c own s = some (goto .wIdle s) := if_pos hrun

theorem atBoundary_of_restart (own : State → Option State) {s : State} (hrun : s.run = true)
    (hs : s.worker.restart = true) : atBoundary true own s = some (goto .wPass s) := by
  rw [atBoundary, hrun, hs]
  rfl

theorem atBoundary_of_running {c : Bool} (own : State → Option State) {s : State} (hrun : s.run = true)
    (hs : (c && s.worker.restart) = false) : atBoundary c own s = own s := by
  rw [atBoundary, hrun, hs]
  rfl

theorem workerStep_of_parked {s : State} (hw : s.worker.ws ∈ [.wPass, .wScan, .wDrain, .wRwait])
    (hrun : s.run = false) : workerStep s = some (goto .wIdle s) := by
  simp only [List.mem_cons, List.not_mem_nil, or_false] at hw
  obtain hw | hw | hw | hw := hw
  · exact (workerStep_wPass hw).trans (atBoundary_of_parked _ _ hrun)
  · exact (workerStep_wScan hw).trans (atBoundary_of_parked _ _ hrun)
  · exact (workerStep_wDrain hw).trans (atBoundary_of_parked _ _ hrun)
  · exact (workerStep_wRwait hw).trans (atBoundary_of_parked _ _ hrun)

theorem workerStep_of_restart {s : State} (hw : s.worker.ws ∈ [.wScan, .wDrain, .wRwait]) (hrun : s.run = true)
    (hs : s.worker.restart = true) : workerStep s = some (goto .wPass s) := by
  simp only [List.mem_cons, List.not_mem_nil, or_false] at hw
  obtain hw | hw | hw := hw
  · exact (workerStep_wScan hw).trans (atBoundary_of_restart _ hrun hs)
  · exact (workerStep_wDrain hw).trans (atBoundary_of_restart _ hrun hs)
  · exact (workerStep_wRwait hw).trans (atBoundary_of_restart _ hrun hs)

/-! The states that check neither (R245). -/

/-- `s` with other values of what the boundary checks read. -/
def State.withBoundary (c : Word) (r : Bool) (s : State) : State := { s with ctrl := c, worker.restart := r }

section
variable (c : Word) (r : Bool)

theorem txStep_withBoundary (s : State) : txStep (s.withBoundary c r) = (txStep s).map (State.withBoundary c r) := by
  simp only [txStep, apply_ite (Option.map (State.withBoundary c r))]
  rfl

theorem emit_withBoundary (e : Event) (s : State) :
    emit e (s.withBoundary c r) = (emit e s).withBoundary c r := by
  simp only [emit, apply_ite (State.withBoundary c r)]
  rfl

theorem publish_withBoundary (s : State) : publish (s.withBoundary c r) = (publish s).withBoundary c r := by
  simp only [publish, apply_ite (State.withBoundary c r), ← emit_withBoundary]
  rfl

theorem classifyStep_withBoundary (s : State) :
    classifyStep (s.withBoundary c r) = (classifyStep s).withBoundary c r := by
  have hpub := publish_withBoundary c r { s with worker.cls := s.rxClass.1, worker.val := s.rxClass.2 }
  exact congrArg (fun u => goto .cTurn { u with worker.tEnd := s.now + s.active.ifs.setWidth 64 }) hpub

theorem rxwaitStep_withBoundary (s : State) :
    rxwaitStep (s.withBoundary c r) = (rxwaitStep s).map (State.withBoundary c r) := by
  simp only [rxwaitStep, apply_ite (Option.map (State.withBoundary c r)), Option.map_some, ← classifyStep_withBoundary]
  rfl

theorem turnStep_withBoundary (s : State) :
    turnStep (s.withBoundary c r) = (turnStep s).map (State.withBoundary c r) := by
  simp only [turnStep, apply_ite (Option.map (State.withBoundary c r))]
  rfl

theorem returnStep_withBoundary (s : State) : returnStep (s.withBoundary c r) = (returnStep s).withBoundary c r := by
  have hctx : (s.withBoundary c r).worker.ctx = s.worker.ctx := rfl
  simp only [returnStep, hctx]
  cases s.worker.ctx.src <;> rfl

theorem endStep_withBoundary (s : State) : endStep (s.withBoundary c r) = (endStep s).withBoundary c r := by
  simp only [endStep, apply_ite (State.withBoundary c r), ← returnStep_withBoundary]
  rfl

/-- `W_DUE` and the states of a transaction read neither `RUN` nor `restart`, and write neither. -/
theorem workerStep_withBoundary {s : State}
    (hw : s.worker.ws ∈ [.wDue, .cStart, .cTx, .cRxwait, .cTurn, .cEnd]) :
    workerStep (s.withBoundary c r) = (workerStep s).map (State.withBoundary c r) := by
  have hws : (s.withBoundary c r).worker.ws = s.worker.ws := rfl
  simp only [List.mem_cons, List.not_mem_nil, or_false] at hw
  simp only [workerStep, hws]
  obtain hw | hw | hw | hw | hw | hw := hw
  all_goals rw [hw]
  · rfl
  · rfl
  · exact txStep_withBoundary c r s
  · exact rxwaitStep_withBoundary c r s
  · exact turnStep_withBoundary c r s
  · exact congrArg some (endStep_withBoundary c r s)

end

/-! `W_IDLE` (R292). -/

theorem idleStep_of_ready {s : State} (hrun : s.run = true) (hvalid : s.cfgValid = true) :
    idleStep s = some (goto .wPass s) := by
  rw [idleStep, hrun, hvalid]
  rfl

theorem idleStep_of_not_ready {s : State} (h : s.run = false ∨ s.cfgValid = false) : idleStep s = none :=
  if_neg fun hready => by
    obtain ⟨hrun, hvalid⟩ := Bool.and_eq_true_iff.mp hready
    exact h.elim (Bool.eq_false_iff.mp · hrun) (Bool.eq_false_iff.mp · hvalid)

/-- Settles O27: the idle step, the two checks in the order of R245, the pass, and the states outside the boundaries. -/
theorem idleBoundaryAndPassSteps : Obligations.IdleBoundaryAndPassSteps := by
  intro s
  refine ⟨fun hw hrun hvalid => ?_, fun hw h => ?_, workerStep_of_parked, workerStep_of_restart, fun hw hrun => ?_,
    fun hw c r => workerStep_withBoundary c r hw⟩
  · exact (workerStep_wIdle hw).trans (idleStep_of_ready hrun hvalid)
  · exact (workerStep_wIdle hw).trans (idleStep_of_not_ready h)
  · exact (workerStep_wPass hw).trans (atBoundary_of_running _ hrun rfl)

end Sys2Proof.Machine
end

section
/-! The relay drain (44_cycle_controller.md section 1): the head frame is copied, or the short wait runs (R247, R248). -/

namespace Sys2Proof.Machine

/-! Sums of times. -/

/-- A time and a number of milliseconds, short of the wrap (R225). -/
theorem toNat_add_ms {t : DWord} {n : Nat} (h : t.toNat + n < 2 ^ 64) : (t + BitVec.ofNat 64 n).toNat = t.toNat + n := by
  rw [BitVec.toNat_add, BitVec.toNat_ofNat, Nat.add_mod_mod, Nat.mod_eq_of_lt h]

/-- A time and a 16-bit number of milliseconds, short of the wrap (R225). -/
theorem toNat_add_half {t : DWord} {d : Half} (h : t.toNat + d.toNat < 2 ^ 64) :
    (t + d.setWidth 64).toNat = t.toNat + d.toNat := by
  rw [← BitVec.ofNat_toNat, toNat_add_ms h]

/-! `W_DRAIN` and `W_RWAIT`. -/

theorem drainStep_of_cons {s : State} {f : List Byte} {q : List (List Byte)} (h : s.relayQ = f :: q) :
    drainStep s = loadRelay f s := by rw [drainStep, h]

theorem drainStep_of_nil {s : State} (h : s.relayQ = []) :
    drainStep s = goto .wRwait { s with worker.tEnd := s.now + BitVec.ofNat 64 s.params.relayWaitMs } := by
  rw [drainStep, h]

theorem rwaitStep_of_queued {s : State} (h : s.relayQ ≠ []) : rwaitStep s = some (goto .wDrain s) := if_pos h

theorem rwaitStep_of_over {s : State} (h : s.relayQ = []) (ht : s.worker.tEnd.toNat ≤ s.now.toNat) :
    rwaitStep s = some (goto .wPass s) := (if_neg (not_not_intro h)).trans (if_pos ht)

theorem rwaitStep_of_waiting {s : State} (h : s.relayQ = []) (ht : s.now.toNat < s.worker.tEnd.toNat) :
    rwaitStep s = none := (if_neg (not_not_intro h)).trans (if_neg (Nat.not_le.mpr ht))

/-- Settles O34: past the boundary checks the clauses are the branches of the two steps. -/
theorem drainAndShortWait : Obligations.DrainAndShortWait := by
  intro s hrun hs
  have hdrain (hw : s.worker.ws = .wDrain) : workerStep s = some (drainStep s) :=
    (workerStep_wDrain hw).trans (atBoundary_of_running _ hrun hs)
  have hrwait (hw : s.worker.ws = .wRwait) : workerStep s = rwaitStep s :=
    (workerStep_wRwait hw).trans (atBoundary_of_running _ hrun hs)
  refine ⟨fun f q hw hq hp hm _ hf => ?_, fun hw hq hnow => ?_, fun hw hq => (hrwait hw).trans (rwaitStep_of_queued hq),
    fun hw hq ht => (hrwait hw).trans (rwaitStep_of_over hq ht),
    fun hw hq ht => (hrwait hw).trans (rwaitStep_of_waiting hq ht)⟩
  · obtain ⟨-, ⟨-, hmax⟩, -⟩ := hp
    have hlen : (BitVec.ofNat 8 f.length).toNat = f.length := by
      rw [BitVec.toNat_ofNat, Nat.mod_eq_of_lt (by omega)]
    rw [hdrain hw, drainStep_of_cons hq]
    exact ⟨_, rfl, rfl, hlen, loadTx_frame hm hf⟩
  · rw [hdrain hw, drainStep_of_nil hq]
    exact ⟨_, rfl, rfl, toNat_add_ms hnow⟩

end Sys2Proof.Machine
end

section
/-! Cycle steps 1 to 3 (44_cycle_controller.md): start, transmission, switch to receive (R255 to R257). -/

namespace Sys2Proof.Machine

/-- Clearing the receive buffer zeroes its window and nothing else (R43). -/
theorem rxClear_frame {s : State} (hm : s.mem.wf = true) :
    ZeroFrom (rxClear s).mem rxBase 0 s.params.rxCap ∧ SameOutside s.mem (rxClear s).mem rxBase s.params.rxCap :=
  ⟨zeroFrom_setWindow hm _ _ [], sameOutside_setWindow hm _ _ []⟩

theorem txStep_of_offered {s : State} (h : s.line.txOffer ≠ none) : txStep s = none := if_pos h

theorem txStep_of_more {s : State} (h : s.line.txOffer = none) (hi : s.worker.txIdx.toNat < s.worker.txLen.toNat) :
    txStep s = some (offerStep s) := (if_neg (not_not_intro h)).trans (if_pos hi)

theorem txStep_of_done {s : State} (h : s.line.txOffer = none) (hi : s.worker.txIdx = s.worker.txLen) :
    txStep s = some (switchStep s) := by
  rw [txStep, if_neg (not_not_intro h), if_neg (hi ▸ BitVec.lt_irrefl _), if_pos hi]

theorem step_answer {s : State} {ok : Bool} {rest : List Input} (h : s.Pending (.answer ok) rest)
    (ho : s.line.txOffer ≠ none) : step s = .next (answerStep ok (dropInput rest s)) :=
  (step_cons h).trans (if_neg ho)

/-- The failure counter counts the failed answers modulo 2^32 (R49, R256). -/
theorem toNat_txFailCnt_answerStep (ok : Bool) (s : State) :
    (answerStep ok s).line.txFailCnt.toNat = (s.line.txFailCnt.toNat + (if ok then 0 else 1)) % 2 ^ 32 := by
  cases ok with
  | false => exact BitVec.toNat_add ..
  | true => exact (Nat.mod_eq_of_lt s.line.txFailCnt.isLt).symm

/-- Settles O35: the start, the branches of the transmit step, and the transport's answer. -/
theorem startTransmitAndSwitch : Obligations.StartTransmitAndSwitch := by
  intro s
  refine ⟨fun hw hm => ⟨_, workerStep_cStart hw, rfl, rxClear_frame hm⟩,
    fun hw ho hi => (workerStep_cTx hw).trans (txStep_of_more ho hi),
    fun hw ho => (workerStep_cTx hw).trans (txStep_of_offered ho),
    fun hw ho hi => (workerStep_cTx hw).trans (txStep_of_done ho hi),
    fun ok rest hpend ho => ⟨_, step_answer hpend ho, rfl, toNat_txFailCnt_answerStep ok _⟩⟩

end Sys2Proof.Machine
end

section
/-! Cycle steps 4 to 6 (44_cycle_controller.md): the response wait, the classification and its event, the pause, the retry
and the return (R258 to R266, R268). -/

namespace Sys2Proof.Machine

/-! Failures and event kinds (R121, R184). -/

theorem RespClass.isFailure_eq_false_iff (c : RespClass) : c.isFailure = false ↔ c = .value ∨ c = .actorResponse := by
  cases c <;> decide

theorem RespClass.eventKind_eq (c : RespClass) : c.eventKind = if c = .value then .value else .diagnostic := by
  cases c <;> rfl

/-! `C_RXWAIT` (R258). -/

theorem toNat_minTime (a b : DWord) : (minTime a b).toNat = min a.toNat b.toNat := by
  rw [minTime, apply_ite BitVec.toNat]
  rfl

theorem rxwaitStep_of_early {s : State} (h : s.now.toNat < s.worker.nextSample.toNat) : rxwaitStep s = none := if_pos h

theorem rxwaitStep_of_silence {s : State} (h : s.worker.nextSample.toNat ≤ s.now.toNat) (h0 : s.line.rxLen = 0)
    (hstop : s.now.toNat < s.waitEnd.toNat) :
    rxwaitStep s = some { s with
      worker.nextSample := minTime (s.worker.nextSample + BitVec.ofNat 64 s.params.rxPollMs) s.waitEnd } := by
  have hc : ¬ (0 < s.line.rxLen ∨ s.waitEnd ≤ s.now) := by
    rw [h0]
    exact not_or_intro (BitVec.lt_irrefl _) (Nat.not_le.mpr hstop)
  exact (if_neg (Nat.not_lt.mpr h)).trans (if_neg hc)

theorem rxwaitStep_of_classify {s : State} (h : s.worker.nextSample.toNat ≤ s.now.toNat)
    (hc : s.line.rxLen ≠ 0 ∨ s.waitEnd.toNat ≤ s.now.toNat) : rxwaitStep s = some (classifyStep s) :=
  (if_neg (Nat.not_lt.mpr h)).trans (if_pos (hc.imp_left BitVec.toNat_pos_of_ne_zero))

/-! Publication (R258, R260, R268). -/

theorem publish_of_failed_first {s : State} (hf : s.worker.cls.isFailure = true) (ha : s.worker.ctx.attempt = .first) :
    publish s = s := if_neg (by simp [hf, ha])

theorem publish_of_final {s : State} (h : s.worker.cls.isFailure = false ∨ s.worker.ctx.attempt = .retry) :
    publish s = emit s.attemptEvent s := if_pos h

theorem emit_of_room {s : State} (h : s.evtQ.length < s.params.evtDepth) (e : Event) :
    emit e s = { s with evtQ := s.evtQ ++ [e] } := if_pos h

theorem emit_of_full {s : State} (h : s.params.evtDepth ≤ s.evtQ.length) (e : Event) :
    emit e s = { s with evtOvf := true } := if_neg (Nat.not_lt.mpr h)

/-- `s` with its response classified, before the event of the attempt is published. -/
def State.classified (s : State) : State :=
  { s with worker.cls := s.rxClass.1, worker.val := s.rxClass.2 }

/-- The classification step: the classification, the event FIFO and its flag as publishing leaves them, and the end of
the pause. -/
theorem classifyStep_eq (s : State) :
    classifyStep s = { s with
      evtQ := (publish s.classified).evtQ, evtOvf := (publish s.classified).evtOvf, worker.cls := s.rxClass.1,
      worker.val := s.rxClass.2, worker.ws := .cTurn, worker.tEnd := s.now + s.active.ifs.setWidth 64 } := by
  obtain ⟨ovf, q, he⟩ := exists_publish_eq s.classified
  rw [he]
  exact congrArg (fun u => goto .cTurn { u with worker.tEnd := s.now + s.active.ifs.setWidth 64 }) he

/-- Settles O36: the clauses are the branches of the receive step, the last one with the branches of publication. -/
theorem responseWaitAndClassification : Obligations.ResponseWaitAndClassification := by
  intro s hw hstop hnext hpause stop r e success
  have hwait : s.waitEnd.toNat = stop := toNat_add_half hstop
  have hsuccess : s.classified.worker.cls.isFailure = false ↔ success := RespClass.isFailure_eq_false_iff _
  have hevent : s.classified.attemptEvent = e := congrArg (Event.mk · _ _ _ _ _) (RespClass.eventKind_eq _)
  rw [workerStep_cRxwait hw]
  refine ⟨rxwaitStep_of_early, fun hs h0 hlt => ?_, fun hs hc => ?_⟩
  · refine ⟨_, rxwaitStep_of_silence hs h0 (hwait ▸ hlt), rfl, ?_⟩
    rw [toNat_minTime, toNat_add_ms hnext, hwait]
  · rw [rxwaitStep_of_classify hs (hwait ▸ hc), classifyStep_eq]
    refine ⟨_, rfl, rfl, toNat_add_half hpause, fun hfail hfirst => ?_, fun hfinal => ?_⟩
    · have hpub : publish s.classified = s.classified :=
        publish_of_failed_first (eq_true_of_ne_false (mt hsuccess.mp hfail)) hfirst
      rw [hpub]
      exact ⟨rfl, rfl⟩
    · have hpub : publish s.classified = emit e s.classified :=
        hevent ▸ publish_of_final (hfinal.imp_left hsuccess.mpr)
      rw [hpub]
      refine ⟨fun hroom => ?_, fun hfull => ?_⟩
      · rw [emit_of_room (s := s.classified) hroom]
        exact ⟨rfl, rfl⟩
      · rw [emit_of_full (s := s.classified) hfull]
        exact ⟨rfl, rfl⟩

/-! `C_TURN` and `C_END` (R262 to R266, R223). -/

theorem turnStep_of_waiting {s : State} (h : s.now.toNat < s.worker.tEnd.toNat) : turnStep s = none := if_pos h

theorem turnStep_of_over {s : State} (h : s.worker.tEnd.toNat ≤ s.now.toNat) :
    turnStep s = some (goto .cEnd (rxClear s)) := if_neg (Nat.not_lt.mpr h)

theorem endStep_of_retry {s : State} (hc : s.worker.cls.isFailure = true) (ha : s.worker.ctx.attempt = .first) :
    endStep s = goto .cStart { s with worker.ctx.attempt := .retry } := if_pos ⟨hc, ha⟩

theorem endStep_of_final {s : State} (h : s.worker.cls.isFailure = false ∨ s.worker.ctx.attempt = .retry) :
    endStep s = returnStep s := if_neg (by rintro ⟨hc, ha⟩; simp [hc, ha] at h)

theorem returnStep_of_poll {s : State} (h : s.worker.ctx.src = .poll) : returnStep s = pollReturn s := by
  rw [returnStep, h]

theorem returnStep_of_relay {s : State} (h : s.worker.ctx.src = .relay) : returnStep s = relayReturn s := by
  rw [returnStep, h]

/-- Settles O37: the clauses are the branches of the pause, of the attempt's end and of the return. -/
theorem turnaroundRetryAndReturn : Obligations.TurnaroundRetryAndReturn := by
  intro s
  have hsuccess : s.worker.cls.isFailure = false ↔ s.worker.cls ∈ [.value, .actorResponse] := by
    rw [RespClass.isFailure_eq_false_iff, List.mem_pair]
  refine ⟨fun hw ht => (workerStep_cTurn hw).trans (turnStep_of_waiting ht), fun hw ht hm => ?_, fun hw hc ha => ?_,
    fun hw h hsrc => ?_, fun hw h hsrc hdev => ?_⟩
  · exact ⟨_, (workerStep_cTurn hw).trans (turnStep_of_over ht), rfl, rxClear_frame hm⟩
  · rw [workerStep_cEnd hw, endStep_of_retry (eq_true_of_ne_false (mt hsuccess.mp hc)) ha]
    rfl
  · rw [workerStep_cEnd hw, endStep_of_final (h.imp_left hsuccess.mpr), returnStep_of_relay hsrc]
    rfl
  · rw [workerStep_cEnd hw, endStep_of_final (h.imp_left hsuccess.mpr), returnStep_of_poll hsrc]
    exact ⟨_, rfl, rfl, devState_setDevState_self hdev _, fun j hj => devState_setDevState_of_ne hj _ s⟩

end Sys2Proof.Machine
end

section
/-! The control commands (45_control.md): the only words of `NOP`, `EVT_POP` and `CLR_ERR`, the words with `OP = 0x00`, and
the event registers (R48). -/

namespace Sys2Proof

/-- Only the zero word is `NOP` (R102). -/
theorem decode_eq_nop_iff (w : Word) : decode w = .command .nop ↔ w = 0x00000000 :=
  decode_eq_command_iff_of_fixed (o := .nop) (len := 0) rfl (fun _ => rfl) w

/-- Only one word is `EVT_POP` (R102). -/
theorem decode_eq_evtPop_iff (w : Word) : decode w = .command .evtPop ↔ w = 0x00000008 :=
  decode_eq_command_iff_of_fixed (o := .evtPop) (len := 0) rfl (fun _ => rfl) w

/-- Only one word is `CLR_ERR` (R102). -/
theorem decode_eq_clrErr_iff (w : Word) : decode w = .command .clrErr ↔ w = 0x00000009 :=
  decode_eq_command_iff_of_fixed (o := .clrErr) (len := 0) rfl (fun _ => rfl) w

/-- The mask of every row fixes all of `OP`. -/
theorem Opcode.opField_mask (o : Opcode) : opField o.mask = BitVec.allOnes 8 := by cases o <;> decide

/-- A word that matches a row has the row's `OP`. -/
theorem Opcode.opField_of_matches {o : Opcode} {w : Word} (h : w &&& o.mask = o.value) : opField w = opField o.value :=
  calc opField w = opField w &&& opField o.mask := by rw [o.opField_mask, BitVec.and_allOnes]
    _ = opField (w &&& o.mask) := BitVec.extractLsb'_and.symm
    _ = opField o.value := congrArg opField h

/-- `OP = 0x00` is that of `NOP` alone. -/
theorem Opcode.eq_nop_of_opField_value {o : Opcode} (h : opField o.value = 0) : o = .nop := by
  revert h
  cases o <;> decide

/-- No other word with `OP = 0x00` is a command (R290). -/
theorem decode_of_opField_zero {w : Word} (hop : opField w = 0) (hw : w ≠ 0) : ∃ why, decode w = .rejected why := by
  refine decode_of_no_match fun o hmatch => hw ?_
  have hnop : o = .nop := Opcode.eq_nop_of_opField_value ((Opcode.opField_of_matches hmatch).symm.trans hop)
  subst hnop
  exact (decode_eq_nop_iff w).mp (decode_of_matches hmatch)

end Sys2Proof

namespace Sys2Proof.Machine

/-- Settles O7: only the row of `NOP` has `OP = 0x00`, and its mask fixes the whole word. -/
theorem nopChangesNothing : Obligations.NopChangesNothing := by
  refine ⟨decode_eq_nop_iff, fun _ => rfl, fun w s rest hpend hop hw => ?_⟩
  obtain ⟨why, hwhy⟩ := decode_of_opField_zero hop hw
  rw [step_command hpend, command_of_rejected hwhy, show opField w = 0x00 from hop]

/-- Settles O9: the command is this record update. -/
theorem clrErrClearsErrAndOverflow : Obligations.ClrErrClearsErrAndOverflow :=
  ⟨decode_eq_clrErr_iff, fun _ => rfl⟩

/-! The event registers (R48). -/

/-- The low byte of `EVT_HEAD0`: `VALID` and the kind's code. -/
def EventKind.lowByte (k : EventKind) : Byte := if k = .diagnostic then 3 else 1

/-- `EVT_HEAD0` by bytes. -/
theorem Event.head0_eq_packWord (e : Event) : e.head0 = packWord e.kind.lowByte e.dev e.subch e.fc := by
  have hlow : bitAt 1 e.kind.code ||| 1 = fieldAt 0 e.kind.lowByte := by cases e.kind <;> decide
  rw [Event.head0, BitVec.or_assoc, hlow, packWord]

theorem Event.byte_head0 (e : Event) {k : Nat} (hk : k < 4) :
    e.head0.extractLsb' (8 * k) 8 = [e.kind.lowByte, e.dev, e.subch, e.fc].getD k 0 := by
  rw [e.head0_eq_packWord, byte_packWord _ _ _ _ hk]

/-- The bits of `EVT_HEAD0` below `DEV`: `VALID`, the kind's code, and six zeros. -/
theorem Event.head0_lowBits (e : Event) :
    e.head0.getLsbD 0 = true ∧ (e.head0.getLsbD 1 = true ↔ e.kind = .diagnostic) ∧ e.head0.extractLsb' 2 6 = 0#6 := by
  have hlow : e.head0.extractLsb' 0 8 = e.kind.lowByte := e.byte_head0 (k := 0) (by decide)
  have hbit {k : Nat} (hk : k < 8) : e.head0.getLsbD k = e.kind.lowByte.getLsbD k := by
    rw [← hlow, BitVec.getLsbD_extractLsb', decide_eq_true hk, Bool.true_and, Nat.zero_add]
  have hgap : e.head0.extractLsb' 2 6 = e.kind.lowByte.extractLsb' 2 6 := by
    rw [← hlow, BitVec.extractLsb'_extractLsb'_of_le (by decide)]
  rw [hbit (by decide), hbit (by decide), hgap]
  cases e.kind <;> decide

theorem Event.toNat_head1 (e : Event) : e.head1.toNat = e.cls.code.toNat := toNat_fieldAt_zero _ (by decide)

theorem exec_evtPop_of_nil {s : State} (h : s.evtQ = []) :
    exec .evtPop s = .next { s with host.evtHead0 := 0, host.evtHead1 := 0, host.evtHead2 := 0 } := by
  rw [exec, execEvtPop, h]

theorem exec_evtPop_of_cons {s : State} {e : Event} {q : List Event} (h : s.evtQ = e :: q) :
    exec .evtPop s = .next { s with
      evtQ := q, host.evtHead0 := e.head0, host.evtHead1 := e.head1, host.evtHead2 := e.val } := by
  rw [exec, execEvtPop, h]

/-- Settles O10: the clauses are the branches of the command, and the registers carry the fields of the entry. -/
theorem evtPopMovesTheOldestEvent : Obligations.EvtPopMovesTheOldestEvent := by
  refine ⟨decode_eq_evtPop_iff, fun _ => exec_evtPop_of_nil, fun s e q hq => ?_⟩
  obtain ⟨hvalid, hkind, hgap⟩ := e.head0_lowBits
  refine ⟨_, _, exec_evtPop_of_cons hq, hvalid, hkind, hgap, e.byte_head0 (k := 1) (by decide),
    e.byte_head0 (k := 2) (by decide), e.byte_head0 (k := 3) (by decide), ?_⟩
  rw [e.toNat_head1, classTable_code]

end Sys2Proof.Machine
end

section
/-! Where time passes (44_cycle_controller.md section 1, 60_exceptions.md section 4): the worker waits in five ways only
(R246), and of all steps only the clock and reset write the time (R310). -/

namespace Sys2Proof.Machine

/-! When the worker has no enabled step (R246). -/

theorem idleStep_eq_none_iff {s : State} : idleStep s = none ↔ ¬ (s.run = true ∧ s.cfgValid = true) := by
  rw [idleStep, ite_eq_right_iff, ← Bool.and_eq_true_iff]
  exact imp_congr_right fun _ => iff_of_false (Option.some_ne_none _) id

/-- The boundary checks are steps themselves, so a wait at a boundary is the state's own (R245). -/
theorem own_eq_none_of_atBoundary {c : Bool} {own : State → Option State} {s : State}
    (h : atBoundary c own s = none) : own s = none := by
  obtain ⟨-, he⟩ | ⟨-, -, -, he⟩ | ⟨-, -, he⟩ := atBoundary_cases c own s
  · cases he.symm.trans h
  · cases he.symm.trans h
  · exact he.symm.trans h

theorem rwaitStep_eq_none_iff {s : State} :
    rwaitStep s = none ↔ s.relayQ = [] ∧ s.now.toNat < s.worker.tEnd.toNat := by
  refine ⟨fun h => ?_, fun ⟨hq, ht⟩ => rwaitStep_of_waiting hq ht⟩
  by_cases hq : s.relayQ = []
  · refine ⟨hq, Nat.lt_of_not_le fun ht => ?_⟩
    cases (rwaitStep_of_over hq ht).symm.trans h
  · cases (rwaitStep_of_queued hq).symm.trans h

/-- While the index is inside the frame, `C_TX` waits for the transport alone (R256). -/
theorem txStep_eq_none_iff {s : State} (hidx : s.worker.txIdx.toNat ≤ s.worker.txLen.toNat) :
    txStep s = none ↔ s.line.txOffer ≠ none := by
  refine ⟨fun h ho => ?_, txStep_of_offered⟩
  obtain hlt | heq := hidx.lt_or_eq
  · cases (txStep_of_more ho hlt).symm.trans h
  · cases (txStep_of_done ho (BitVec.eq_of_toNat_eq heq)).symm.trans h

theorem rxwaitStep_eq_none_iff {s : State} :
    rxwaitStep s = none ↔ s.now.toNat < s.worker.nextSample.toNat := by
  refine ⟨fun h => Nat.lt_of_not_le fun hs => ?_, rxwaitStep_of_early⟩
  by_cases hc : s.line.rxLen ≠ 0 ∨ s.waitEnd.toNat ≤ s.now.toNat
  · cases (rxwaitStep_of_classify hs hc).symm.trans h
  · obtain ⟨h0, hstop⟩ := not_or.mp hc
    cases (rxwaitStep_of_silence hs (not_not.mp h0) (Nat.lt_of_not_le hstop)).symm.trans h

theorem turnStep_eq_none_iff {s : State} : turnStep s = none ↔ s.now.toNat < s.worker.tEnd.toNat := by
  refine ⟨fun h => Nat.lt_of_not_le fun ht => ?_, turnStep_of_waiting⟩
  cases (turnStep_of_over ht).symm.trans h

/-- The five waits of R246. -/
abbrev State.Waits (s : State) : Prop :=
  (s.worker.ws = .wIdle ∧ ¬ (s.run = true ∧ s.cfgValid = true)) ∨
  (s.worker.ws = .wRwait ∧ s.relayQ = [] ∧ s.now.toNat < s.worker.tEnd.toNat) ∨
  (s.worker.ws = .cTx ∧ s.line.txOffer ≠ none) ∨
  (s.worker.ws = .cRxwait ∧ s.now.toNat < s.worker.nextSample.toNat) ∨
  (s.worker.ws = .cTurn ∧ s.now.toNat < s.worker.tEnd.toNat)

/-- A worker without an enabled step is in one of the five waits. -/
theorem waits_of_workerStep_eq_none {s : State}
    (hidx : s.worker.ws = .cTx → s.worker.txIdx.toNat ≤ s.worker.txLen.toNat) (h : workerStep s = none) :
    s.Waits := by
  cases hw : s.worker.ws with
  | wIdle => exact .inl ⟨hw, idleStep_eq_none_iff.mp ((workerStep_wIdle hw).symm.trans h)⟩
  | wPass => cases own_eq_none_of_atBoundary ((workerStep_wPass hw).symm.trans h)
  | wScan => cases own_eq_none_of_atBoundary ((workerStep_wScan hw).symm.trans h)
  | wDue => cases (workerStep_wDue hw).symm.trans h
  | wDrain => cases own_eq_none_of_atBoundary ((workerStep_wDrain hw).symm.trans h)
  | wRwait =>
    have hown := own_eq_none_of_atBoundary ((workerStep_wRwait hw).symm.trans h)
    exact .inr (.inl ⟨hw, rwaitStep_eq_none_iff.mp hown⟩)
  | cStart => cases (workerStep_cStart hw).symm.trans h
  | cTx => exact .inr (.inr (.inl ⟨hw, (txStep_eq_none_iff (hidx hw)).mp ((workerStep_cTx hw).symm.trans h)⟩))
  | cRxwait =>
    exact .inr (.inr (.inr (.inl ⟨hw, rxwaitStep_eq_none_iff.mp ((workerStep_cRxwait hw).symm.trans h)⟩)))
  | cTurn => exact .inr (.inr (.inr (.inr ⟨hw, turnStep_eq_none_iff.mp ((workerStep_cTurn hw).symm.trans h)⟩)))
  | cEnd => cases (workerStep_cEnd hw).symm.trans h

/-! Who writes the time (R310). -/

theorem SameConfig.now {s t : State} (h : SameConfig s t) : t.now = s.now := by
  rw [SameConfig] at h
  rw [h]

@[simp] theorem storeReg_now (r : Reg) (v : Word) (s : State) : (storeReg r v s).now = s.now := by cases r <;> rfl

@[simp] theorem hostRead_now (addr : Addr) (size : Nat) (s : State) : (hostRead addr size s).now = s.now := by
  unfold hostRead
  split <;> rfl

@[simp] theorem rxStep_now (b : Byte) (s : State) : (rxStep b s).now = s.now := by
  unfold rxStep
  split <;> rfl

theorem now_of_exec {i : Instr} {s t : State} (h : exec i s = .next t) : t.now = s.now := by
  obtain ⟨_, _, rfl⟩ | ⟨-, rfl⟩ | ⟨_, -, -, rfl⟩ | ⟨_, -, -, rfl⟩ | ⟨_, -, -, -, rfl⟩ | ⟨_, _, _, -, rfl, -⟩ |
    ⟨-, -, -, rfl⟩ | ⟨-, rfl⟩ | ⟨-, -, rfl⟩ | ⟨_, _, -, -, rfl⟩ | ⟨-, -, rfl⟩ | ⟨_, _, -, -, rfl⟩ |
    ⟨-, rfl⟩ := exec_cases h
  any_goals rfl
  · exact raise_now ..
  · exact raise_now ..

/-- What a step can do to the time: nothing, reset it, or tick with the worker waiting. -/
theorem now_of_step {s t : State} (h : step s = .next t) :
    t.now = s.now ∨ (∃ rest, s.Pending .reset rest) ∨
    (workerStep s = none ∧ ∃ rest, t = clockStep (dropInput rest s)) := by
  obtain ⟨s', hs', hstep⟩ | ⟨s', hs', hnone, rfl⟩ | ⟨_, _, _, -, rfl⟩ | ⟨_, rfl⟩ | ⟨_, _, _, _, -, -, -, rfl⟩ |
    ⟨_, _, _, -, -, hexec⟩ | ⟨_, _, -, rfl⟩ | ⟨_, _, -, rfl⟩ | ⟨_, _, -, -, rfl⟩ | ⟨rest, hpend, -⟩ := step_cases h
  · have hnow := (sameConfig_of_workerStep hstep).now
    obtain rfl | ⟨_, rfl⟩ := hs'
    all_goals exact .inl hnow
  · obtain rfl | ⟨rest, -, rfl⟩ := hs'
    · exact .inr (.inr ⟨hnone, s'.ports.inputs, rfl⟩)
    · exact .inr (.inr ⟨hnone, rest, rfl⟩)
  · exact .inl (hostRead_now ..)
  · exact .inl (raise_now ..)
  · exact .inl (storeReg_now ..)
  · exact .inl ((now_of_exec hexec).trans (dropInput_now ..))
  · exact .inl (raise_now ..)
  · exact .inl (rxStep_now ..)
  · exact .inl rfl
  · exact .inr (.inl ⟨rest, hpend⟩)

/-- Settles O41: a step that changes the time is reset or a tick, and a tick is due only in a wait. -/
theorem timePassesOnlyWhileTheWorkerWaits : Obligations.TimePassesOnlyWhileTheWorkerWaits := by
  intro s t hline hstep hne
  obtain ⟨-, -, -, hidx, -⟩ := hline
  obtain hsame | hreset | ⟨hnone, rest, rfl⟩ := now_of_step hstep
  · exact absurd hsame hne
  · exact .inl hreset
  · exact .inr ⟨hnone, rfl, BitVec.toNat_add .., waits_of_workerStep_eq_none hidx hnone⟩

end Sys2Proof.Machine
end

section
/-! The interrupt level (60_exceptions.md section 3, R306). -/

namespace Sys2Proof.Machine

/-- `irq` is the enabled causes (R306). -/
theorem State.irq_iff (s : State) :
    s.irq = true ↔ (s.irqEvtEn = true ∧ s.evtQ ≠ []) ∨ (s.irqErrEn = true ∧ s.errCode ≠ 0) := by
  rw [State.irq, Bool.or_eq_true_iff, Bool.and_eq_true_iff, Bool.and_eq_true_iff, decide_eq_true_iff,
    List.length_pos_iff, bne_iff_ne]

/-- Without a cause the level is low, whatever the enables. -/
theorem State.irq_of_no_cause {s : State} (hq : s.evtQ = []) (he : s.errCode = 0) : s.irq = false := by
  rw [← Bool.not_eq_true, s.irq_iff]
  exact not_or_intro (fun ⟨_, hne⟩ => hne hq) (fun ⟨_, hne⟩ => hne he)

/-- Settles O50: the two commands each leave no cause. -/
theorem irqFollowsItsCauses : Obligations.IrqFollowsItsCauses := by
  refine ⟨State.irq_iff, fun s t hlen herr h => ?_, fun s t hq h => ?_⟩
  · cases hq : s.evtQ with
    | nil =>
      obtain rfl := Host.Outcome.next.inj ((exec_evtPop_of_nil hq).symm.trans h)
      exact State.irq_of_no_cause hq herr
    | cons e q =>
      obtain rfl := Host.Outcome.next.inj ((exec_evtPop_of_cons hq).symm.trans h)
      have hrest : q = [] := by simpa [hq] using hlen
      exact State.irq_of_no_cause hrest herr
  · cases h
    exact State.irq_of_no_cause hq rfl

end Sys2Proof.Machine
end

section
/-! Reset (70_reset_and_hazards.md, R330, R331). -/

namespace Sys2Proof.Machine

/-! The tables after reset: whatever `NDEV` is, every entry reads as the empty one (R36 to R39). -/

@[simp] theorem staged_resetWith (p : Params) (ports : Ports) (i : Nat) :
    (State.resetWith p ports).staged i = StagedDevice.zero :=
  List.getElem?_getD_replicate_default_eq ..

@[simp] theorem device_resetWith (p : Params) (ports : Ports) (i : Nat) :
    (State.resetWith p ports).device i = Device.zero :=
  List.getElem?_getD_replicate_default_eq ..

@[simp] theorem deadline_resetWith (p : Params) (ports : Ports) (i : Nat) : (State.resetWith p ports).deadline i = 0 :=
  List.getElem?_getD_replicate_default_eq ..

@[simp] theorem devState_resetWith (p : Params) (ports : Ports) (i : Nat) : (State.resetWith p ports).devState i = .idle :=
  List.getElem?_getD_replicate_default_eq ..

/-! The words and the level made of several fields (R25, R41, R306). -/

@[simp] theorem status_resetWith (p : Params) (ports : Ports) : (State.resetWith p ports).status = 0 := by
  simp [State.status, State.resetWith, bitAt, fieldAt, WorkerState.code]

/-- Of the context only `dev` is not 0 (R331). -/
@[simp] theorem curCtx_resetWith (p : Params) (ports : Ports) : (State.resetWith p ports).curCtx = 0x000000FF :=
  BitVec.eq_of_toNat_eq (toNat_curCtx _)

@[simp] theorem irq_resetWith (p : Params) (ports : Ports) : (State.resetWith p ports).irq = false :=
  State.irq_of_no_cause rfl rfl

theorem memRead_status (s : State) : memRead s 0x018 = s.status := memRead_mapped (r := .status) rfl

theorem memRead_curCtx (s : State) : memRead s 0x060 = s.curCtx := memRead_mapped (r := .curCtx) rfl

/-- Settles O51: the reset step answers the state after reset for its own parameters, where every field is as R331
writes it; the two words, the tables and the interrupt level are the lemmas above. -/
theorem resetPutsEverythingBack : Obligations.ResetPutsEverythingBack := by
  intro s rest h
  have hstep : step s = .next (State.resetWith s.params { s.ports with inputs := rest }) := step_cons h
  exact ⟨_, hstep, rfl, rfl, (memRead_status _).trans (status_resetWith ..), rfl, rfl, ⟨rfl, rfl, rfl⟩,
    ⟨rfl, rfl, rfl, rfl⟩, rfl, rfl, rfl, ⟨rfl, rfl, rfl, rfl, rfl⟩,
    List.length_replicate, List.length_replicate, List.length_replicate, List.length_replicate,
    fun i => ⟨staged_resetWith .., device_resetWith .., deadline_resetWith .., devState_resetWith ..⟩,
    rfl, rfl, rfl, rfl, rfl, (memRead_curCtx _).trans (curCtx_resetWith ..), rfl, ⟨rfl, rfl, rfl, rfl, rfl⟩,
    fun _ => rfl, rfl, rfl, rfl, rfl, rfl, ⟨rfl, rfl, rfl⟩, rfl, rfl, rfl, irq_resetWith ..⟩

end Sys2Proof.Machine
end

section
/-! Encoding and decoding (30_encoding.md section 1): the words of a row as numbers, and the words no row has. -/

namespace Sys2Proof

/-! The words of a row as numbers (R101, R102). -/

/-- `LEN` is the field that the masks of formats `L` and `W` leave open. -/
theorem toNat_eq_add_lenField (w : Word) : w.toNat = (w &&& 0xFF00FFFF).toNat + 65536 * lenField w := by
  have hlen : w &&& 0x00FF0000 = Machine.fieldAt 16 (w.extractLsb' 16 8) := by
    ext i hi
    interval_cases i <;> simp [Machine.fieldAt]
  have hsplit : w &&& 0xFF00FFFF ||| w &&& 0x00FF0000 = w := by
    rw [← BitVec.and_or_distrib_left]
    exact BitVec.and_allOnes
  have hdisj : w &&& 0xFF00FFFF &&& (w &&& 0x00FF0000) = 0#32 :=
    calc w &&& 0xFF00FFFF &&& (w &&& 0x00FF0000) = w &&& w &&& (0xFF00FFFF &&& 0x00FF0000) := by ac_rfl
      _ = 0#32 := BitVec.and_zero
  calc w.toNat = ((w &&& 0xFF00FFFF) + (w &&& 0x00FF0000)).toNat := by
        rw [BitVec.add_eq_or_of_and_eq_zero _ _ hdisj, hsplit]
    _ = (w &&& 0xFF00FFFF).toNat + (w &&& 0x00FF0000).toNat := BitVec.toNat_add_of_and_eq_zero hdisj
    _ = (w &&& 0xFF00FFFF).toNat + 65536 * lenField w := by
        rw [hlen]
        have := Machine.toNat_fieldAt_or 16 (w.extractLsb' 16 8) 0 (by decide) (by decide)
        simp only [BitVec.ofNat_eq_ofNat, BitVec.or_zero] at this
        rw [this, lenField]
        simp
        omega

/-- The mask of a row fixes every bit, or every bit outside `LEN`; the row's command has no operand, or `LEN`. -/
theorem Opcode.mask_cases (o : Opcode) :
    (o.mask = BitVec.allOnes 32 ∧ ∀ n, (o.instr n).len = 0) ∨ (o.mask = 0xFF00FFFF ∧ ∀ n, (o.instr n).len = n) := by
  cases o <;> simp [Opcode.mask, Opcode.instr, Instr.len, BitVec.allOnes]

/-- A row's words are its Match with the operand at bit 16. -/
theorem Opcode.matches_iff_toNat (o : Opcode) (w : Word) :
    w &&& o.mask = o.value ↔ w.toNat = o.value.toNat + 65536 * (o.instr (lenField w)).len := by
  obtain ⟨hmask, hlen⟩ | ⟨hmask, hlen⟩ := o.mask_cases
  · rw [hmask, BitVec.and_allOnes, hlen, Nat.mul_zero, Nat.add_zero, BitVec.toNat_inj]
  · rw [hmask, hlen, toNat_eq_add_lenField w, Nat.add_right_cancel_iff, BitVec.toNat_inj]

/-! The round trip (R101, R102). -/

/-- Every encoding matches the instruction's own row. -/
theorem matchesWord_encode : ∀ i : Instr, Laws.RowMatch.Statement i
  | .nop => Laws.RowMatch.nop
  | .crcCalc n => Laws.RowMatch.crcCalc n
  | .crcVerify n => Laws.RowMatch.crcVerify n
  | .buildRead => Laws.RowMatch.buildRead
  | .buildWriteS n => Laws.RowMatch.buildWriteS n
  | .buildWriteM n => Laws.RowMatch.buildWriteM n
  | .classify n => Laws.RowMatch.classify n
  | .relayPush => Laws.RowMatch.relayPush
  | .cfgCommit => Laws.RowMatch.cfgCommit
  | .evtPop => Laws.RowMatch.evtPop
  | .clrErr => Laws.RowMatch.clrErr

/-- Every encoding carries the operand. -/
theorem lenField_encode : ∀ i : Instr, Laws.LenField.Statement i
  | .nop => Laws.LenField.nop
  | .crcCalc n => Laws.LenField.crcCalc n
  | .crcVerify n => Laws.LenField.crcVerify n
  | .buildRead => Laws.LenField.buildRead
  | .buildWriteS n => Laws.LenField.buildWriteS n
  | .buildWriteM n => Laws.LenField.buildWriteM n
  | .classify n => Laws.LenField.classify n
  | .relayPush => Laws.LenField.relayPush
  | .cfgCommit => Laws.LenField.cfgCommit
  | .evtPop => Laws.LenField.evtPop
  | .clrErr => Laws.LenField.clrErr

theorem matches_encode {i : Instr} (h : i.wellFormed = true) : encode i &&& i.opcode.mask = i.opcode.value :=
  Opcode.matchesWord_iff.mp (matchesWord_encode i h)

/-- An instruction is its row with its operand. -/
theorem Instr.instr_opcode_len (i : Instr) : i.opcode.instr i.len = i := by cases i <;> rfl

theorem Opcode.wellFormed_instr {n : Nat} (h : n < 256) (o : Opcode) : (o.instr n).wellFormed = true := by
  cases o <;> simp [Opcode.instr, Instr.wellFormed, lenFits, h]

/-- Settles O1: the encoding matches the instruction's own row and carries its operand, and no second row matches. -/
theorem decodeOfEncodeIsTheInstruction : Obligations.DecodeOfEncodeIsTheInstruction := by
  intro i hi
  rw [decode_of_matches (matches_encode hi), lenField_encode i hi, i.instr_opcode_len]

/-- Settles O2: a word that decodes is its row's Match plus its operand, and so is the encoding of what it decodes to. -/
theorem encodeOfDecodeIsTheWord : Obligations.EncodeOfDecodeIsTheWord := by
  intro w i hdec
  obtain ⟨o, hmatch, rfl⟩ := decode_eq_command_iff.mp hdec
  have hwf : (o.instr (lenField w)).wellFormed = true := o.wellFormed_instr (w.extractLsb' 16 8).isLt
  refine ⟨hwf, BitVec.eq_of_toNat_eq ?_⟩
  rw [(Opcode.matches_iff_toNat _ _).mp (matches_encode hwf), (o.matches_iff_toNat w).mp hmatch,
    lenField_encode _ hwf, Instr.instr_opcode_len, Opcode.opcode_instr]

/-! The words no row has (R103). -/

/-- A word is rejected if it is no row's. -/
theorem exists_rejected_iff (w : Word) :
    (∃ why, decode w = .rejected why) ↔ ∀ o : Opcode, w.toNat ≠ o.value.toNat + 65536 * (o.instr (lenField w)).len := by
  simp only [ne_eq, ← Opcode.matches_iff_toNat]
  refine ⟨fun ⟨why, hwhy⟩ o hmatch => ?_, decode_of_no_match⟩
  cases hwhy.symm.trans (decode_of_matches hmatch)

/-- A claim about every row is one about each of the eleven. -/
theorem Opcode.forall_iff {P : Opcode → Prop} :
    (∀ o, P o) ↔ P .nop ∧ P .crcCalc ∧ P .crcVerify ∧ P .buildRead ∧ P .buildWriteS ∧ P .buildWriteM ∧ P .classify ∧
      P .relayPush ∧ P .cfgCommit ∧ P .evtPop ∧ P .clrErr := by
  refine ⟨fun h => ⟨h _, h _, h _, h _, h _, h _, h _, h _, h _, h _, h _⟩, ?_⟩
  rintro ⟨_, _, _, _, _, _, _, _, _, _, _⟩ o
  cases o <;> assumption

/-- Settles O4: the eleven rows as numbers, and the fields of the word as its digits. -/
theorem rejectedWordsAreTheReservedOnes : Obligations.RejectedWordsAreTheReservedOnes := by
  intro w
  have hbit : w.getLsbD 8 = true ↔ w.toNat / 256 % 2 = 1 := by
    rw [BitVec.getLsbD, Nat.testBit_eq_decide_div_mod_eq, decide_eq_true_iff]
  rw [exists_rejected_iff, Opcode.forall_iff]
  simp only [ne_eq, ← BitVec.toNat_inj, BitVec.extractLsb'_toNat, Nat.shiftRight_eq_div_pow, hbit, lenField,
    Opcode.value, Opcode.instr, Instr.len, BitVec.ofNat_eq_ofNat, BitVec.toNat_ofNat, List.mem_cons, List.not_mem_nil, or_false]
  have hlt : w.toNat < 2 ^ 32 := w.isLt
  omega

/-- Settles O5: the decoder evaluates on each of the thirteen words. -/
theorem specWordsDecode : Obligations.SpecWordsDecode := by
  unfold Obligations.SpecWordsDecode
  decide

end Sys2Proof

namespace Sys2Proof.Machine

/-- Settles O6: a write to `CMD` runs the word as a command. -/
theorem stepRunsTheDecodedCommand : Obligations.StepRunsTheDecodedCommand :=
  fun _ _ _ _ hpend hdec => (step_command hpend).trans (command_of_decode hdec _)

end Sys2Proof.Machine
end

section
/-! What the worker, a command and a step can do, with a name for every case: the case lists of `workerStep_cases`,
`exec_cases` and `step_cases` as inductive predicates, whose proofs by cases read by those names. -/

namespace Sys2Proof.Machine

/-! The worker. -/

theorem scanStep_cases (s : State) :
    (s.active.count.toNat ≤ s.worker.scanI.toNat ∧ scanStep s = goto .wDrain s) ∨
    (s.worker.scanI.toNat < s.active.count.toNat ∧ s.isDue s.worker.scanI.toNat = true ∧
      scanStep s = becomeDue s.worker.scanI.toNat s) ∨
    (s.worker.scanI.toNat < s.active.count.toNat ∧ s.isDue s.worker.scanI.toNat = false ∧
      scanStep s = { s with worker.scanI := s.worker.scanI + 1 }) := by
  rcases Nat.lt_or_ge s.worker.scanI.toNat s.active.count.toNat with hlt | hge
  · cases hdue : s.isDue s.worker.scanI.toNat with
    | true => exact .inr (.inl ⟨hlt, rfl, scanStep_of_due hlt hdue⟩)
    | false => exact .inr (.inr ⟨hlt, rfl, scanStep_of_not_due hlt hdue⟩)
  · exact .inl ⟨hge, scanStep_of_end hge⟩

/-- The enabled steps of the worker, by the rule each follows, with all that enables it. -/
inductive WorkerMove (s : State) : State → Prop where
  /-- `W_IDLE` (R292). -/
  | leaveIdle (hw : s.worker.ws = .wIdle) (hrun : s.run = true) (hvalid : s.cfgValid = true) :
      WorkerMove s (goto .wPass s)
  /-- A boundary check finds `RUN = 0` (R245). -/
  | park (hw : s.worker.ws ∈ [.wPass, .wScan, .wDrain, .wRwait]) (hrun : s.run = false) : WorkerMove s (goto .wIdle s)
  /-- A boundary check finds `restart` (R245). -/
  | restart (hw : s.worker.ws ∈ [.wScan, .wDrain, .wRwait]) (hrun : s.run = true) (hs : s.worker.restart = true) :
      WorkerMove s (goto .wPass s)
  /-- `W_PASS` (R219). -/
  | pass (hw : s.worker.ws = .wPass) (hrun : s.run = true) : WorkerMove s (passStep s)
  /-- `W_SCAN` past the last device (R220). -/
  | scanEnd (hw : s.worker.ws = .wScan) (hi : s.active.count.toNat ≤ s.worker.scanI.toNat) (hrun : s.run = true)
      (hs : s.worker.restart = false) : WorkerMove s (goto .wDrain s)
  /-- `W_SCAN` at a due device (R221). -/
  | scanDue (hw : s.worker.ws = .wScan) (hi : s.worker.scanI.toNat < s.active.count.toNat)
      (hdue : s.isDue s.worker.scanI.toNat = true) (hrun : s.run = true) (hs : s.worker.restart = false) :
      WorkerMove s (becomeDue s.worker.scanI.toNat s)
  /-- `W_SCAN` at any other device (R220). -/
  | scanNext (hw : s.worker.ws = .wScan) (hi : s.worker.scanI.toNat < s.active.count.toNat)
      (hdue : s.isDue s.worker.scanI.toNat = false) (hrun : s.run = true) (hs : s.worker.restart = false) :
      WorkerMove s { s with worker.scanI := s.worker.scanI + 1 }
  /-- `W_DUE` (R222). -/
  | due (hw : s.worker.ws = .wDue) : WorkerMove s (dueStep s)
  /-- `W_DRAIN` with a frame queued (R247). -/
  | load (hw : s.worker.ws = .wDrain) {f : List Byte} {q : List (List Byte)} (hq : s.relayQ = f :: q)
      (hrun : s.run = true) (hs : s.worker.restart = false) : WorkerMove s (loadRelay f s)
  /-- `W_DRAIN` with no frame queued (R247). -/
  | shortWait (hw : s.worker.ws = .wDrain) (hq : s.relayQ = []) (hrun : s.run = true) (hs : s.worker.restart = false) :
      WorkerMove s (goto .wRwait { s with worker.tEnd := s.now + BitVec.ofNat 64 s.params.relayWaitMs })
  /-- `W_RWAIT` with a frame queued (R248). -/
  | drainAgain (hw : s.worker.ws = .wRwait) (hq : s.relayQ ≠ []) (hrun : s.run = true)
      (hs : s.worker.restart = false) : WorkerMove s (goto .wDrain s)
  /-- `W_RWAIT` at the end of the wait (R248). -/
  | passAgain (hw : s.worker.ws = .wRwait) (hq : s.relayQ = []) (ht : s.worker.tEnd ≤ s.now) (hrun : s.run = true)
      (hs : s.worker.restart = false) : WorkerMove s (goto .wPass s)
  /-- `C_START` (R255). -/
  | start (hw : s.worker.ws = .cStart) : WorkerMove s (startStep s)
  /-- `C_TX`, the offer of a byte (R256). -/
  | offer (hw : s.worker.ws = .cTx) (hi : s.worker.txIdx < s.worker.txLen) (ho : s.line.txOffer = none) :
      WorkerMove s (offerStep s)
  /-- `C_TX` after the last answer (R257). -/
  | switch (hw : s.worker.ws = .cTx) (ho : s.line.txOffer = none) (hi : s.worker.txIdx = s.worker.txLen) :
      WorkerMove s (switchStep s)
  /-- `C_RXWAIT`, the classification (R258). -/
  | classify (hw : s.worker.ws = .cRxwait) (hs : s.worker.nextSample ≤ s.now)
      (hc : 0 < s.line.rxLen ∨ s.waitEnd ≤ s.now) : WorkerMove s (classifyStep s)
  /-- `C_RXWAIT`, a sample without a byte (R258). -/
  | sample (hw : s.worker.ws = .cRxwait) (hs : s.worker.nextSample ≤ s.now) (h0 : s.line.rxLen = 0)
      (hstop : s.now < s.waitEnd) :
      WorkerMove s { s with
        worker.nextSample := minTime (s.worker.nextSample + BitVec.ofNat 64 s.params.rxPollMs) s.waitEnd }
  /-- `C_TURN` (R262). -/
  | turn (hw : s.worker.ws = .cTurn) (ht : s.worker.tEnd ≤ s.now) : WorkerMove s (goto .cEnd (rxClear s))
  /-- `C_END` after a failed first attempt (R264). -/
  | retry (hw : s.worker.ws = .cEnd) (hc : s.worker.cls.isFailure = true) (ha : s.worker.ctx.attempt = .first) :
      WorkerMove s (goto .cStart { s with worker.ctx.attempt := .retry })
  /-- `C_END` of a poll (R265, R223). -/
  | pollReturn (hw : s.worker.ws = .cEnd) (hsrc : s.worker.ctx.src = .poll)
      (hfinal : s.worker.cls.isFailure = false ∨ s.worker.ctx.attempt = .retry) : WorkerMove s (pollReturn s)
  /-- `C_END` of a relay frame (R265, R266). -/
  | relayReturn (hw : s.worker.ws = .cEnd) (hsrc : s.worker.ctx.src = .relay)
      (hfinal : s.worker.cls.isFailure = false ∨ s.worker.ctx.attempt = .retry) : WorkerMove s (relayReturn s)

theorem workerMove_of_workerStep {s t : State} (h : workerStep s = some t) : WorkerMove s t := by
  obtain ⟨hw, hrun, hvalid, rfl⟩ | ⟨hw, hrun, rfl⟩ | ⟨hw, hrun, hs, rfl⟩ | ⟨hw, hrun, rfl⟩ | ⟨hw, hrun, hs, rfl⟩ |
    ⟨hw, rfl⟩ | ⟨hw, hrun, hs, rfl⟩ | ⟨hw, hrun, hs, hq, rfl⟩ | ⟨hw, hrun, hs, hq, ht, rfl⟩ | ⟨hw, rfl⟩ |
    ⟨hw, ho, hi, rfl⟩ | ⟨hw, ho, hi, rfl⟩ | ⟨hw, hs, hc, rfl⟩ | ⟨hw, hs, h0, hstop, rfl⟩ | ⟨hw, ht, rfl⟩ |
    ⟨hw, hc, ha, rfl⟩ | ⟨hw, hfinal, hsrc, rfl⟩ | ⟨hw, hfinal, hsrc, rfl⟩ := workerStep_cases h
  · exact .leaveIdle hw hrun hvalid
  · exact .park hw hrun
  · exact .restart hw hrun hs
  · exact .pass hw hrun
  · obtain ⟨hi, he⟩ | ⟨hi, hdue, he⟩ | ⟨hi, hdue, he⟩ := scanStep_cases s
    · exact he ▸ .scanEnd hw hi hrun hs
    · exact he ▸ .scanDue hw hi hdue hrun hs
    · exact he ▸ .scanNext hw hi hdue hrun hs
  · exact .due hw
  · cases hq : s.relayQ with
    | nil => exact drainStep_of_nil hq ▸ .shortWait hw hq hrun hs
    | cons f q => exact drainStep_of_cons hq ▸ .load hw hq hrun hs
  · exact .drainAgain hw hq hrun hs
  · exact .passAgain hw hq ht hrun hs
  · exact .start hw
  · exact .offer hw hi ho
  · exact .switch hw ho hi
  · exact .classify hw hs hc
  · exact .sample hw hs h0 hstop
  · exact .turn hw ht
  · exact .retry hw hc ha
  · exact .pollReturn hw hsrc hfinal
  · exact .relayReturn hw hsrc hfinal

/-- Each move is the worker's enabled step, so the worker has at most one. -/
theorem workerStep_of_workerMove {s t : State} (h : WorkerMove s t) : workerStep s = some t := by
  have hdrain (hw : s.worker.ws = .wDrain) (hrun : s.run = true) (hs : s.worker.restart = false) :
      workerStep s = some (drainStep s) := (workerStep_wDrain hw).trans (atBoundary_of_running _ hrun hs)
  have hrwait (hw : s.worker.ws = .wRwait) (hrun : s.run = true) (hs : s.worker.restart = false) :
      workerStep s = rwaitStep s := (workerStep_wRwait hw).trans (atBoundary_of_running _ hrun hs)
  cases h with
  | leaveIdle hw hrun hvalid => exact (workerStep_wIdle hw).trans (idleStep_of_ready hrun hvalid)
  | park hw hrun => exact workerStep_of_parked hw hrun
  | restart hw hrun hs => exact workerStep_of_restart hw hrun hs
  | pass hw hrun => exact (workerStep_wPass hw).trans (atBoundary_of_running _ hrun rfl)
  | scanEnd hw hi hrun hs => exact (workerStep_of_scanning hw hrun hs).trans (congrArg some (scanStep_of_end hi))
  | scanDue hw hi hdue hrun hs =>
    exact (workerStep_of_scanning hw hrun hs).trans (congrArg some (scanStep_of_due hi hdue))
  | scanNext hw hi hdue hrun hs =>
    exact (workerStep_of_scanning hw hrun hs).trans (congrArg some (scanStep_of_not_due hi hdue))
  | due hw => exact workerStep_wDue hw
  | load hw hq hrun hs => exact (hdrain hw hrun hs).trans (congrArg some (drainStep_of_cons hq))
  | shortWait hw hq hrun hs => exact (hdrain hw hrun hs).trans (congrArg some (drainStep_of_nil hq))
  | drainAgain hw hq hrun hs => exact (hrwait hw hrun hs).trans (rwaitStep_of_queued hq)
  | passAgain hw hq ht hrun hs => exact (hrwait hw hrun hs).trans (rwaitStep_of_over hq ht)
  | start hw => exact workerStep_cStart hw
  | offer hw hi ho => exact (workerStep_cTx hw).trans (txStep_of_more ho hi)
  | switch hw ho hi => exact (workerStep_cTx hw).trans (txStep_of_done ho hi)
  | classify hw hs hc =>
    have hne : 0 < s.line.rxLen → s.line.rxLen ≠ 0 := fun hpos h0 => BitVec.lt_irrefl _ (h0 ▸ hpos)
    exact (workerStep_cRxwait hw).trans (rxwaitStep_of_classify hs (hc.imp_left hne))
  | sample hw hs h0 hstop => exact (workerStep_cRxwait hw).trans (rxwaitStep_of_silence hs h0 hstop)
  | turn hw ht => exact (workerStep_cTurn hw).trans (turnStep_of_over ht)
  | retry hw hc ha => exact (workerStep_cEnd hw).trans (congrArg some (endStep_of_retry hc ha))
  | pollReturn hw hsrc hfinal =>
    exact (workerStep_cEnd hw).trans (congrArg some ((endStep_of_final hfinal).trans (returnStep_of_poll hsrc)))
  | relayReturn hw hsrc hfinal =>
    exact (workerStep_cEnd hw).trans (congrArg some ((endStep_of_final hfinal).trans (returnStep_of_relay hsrc)))

/-! The fields of `classifyStep` (R258): it publishes, so that it is no single record update. -/

@[simp] theorem classifyStep_sched (s : State) : (classifyStep s).sched = s.sched := by rw [classifyStep_eq]
@[simp] theorem classifyStep_now (s : State) : (classifyStep s).now = s.now := by rw [classifyStep_eq]
@[simp] theorem classifyStep_worker (s : State) :
    (classifyStep s).worker = { s.worker with
      cls := s.rxClass.1, val := s.rxClass.2, ws := .cTurn, tEnd := s.now + s.active.ifs.setWidth 64 } := by
  rw [classifyStep_eq]
@[simp] theorem classifyStep_line (s : State) : (classifyStep s).line = s.line := by rw [classifyStep_eq]
@[simp] theorem classifyStep_mem (s : State) : (classifyStep s).mem = s.mem := by rw [classifyStep_eq]
@[simp] theorem classifyStep_relayQ (s : State) : (classifyStep s).relayQ = s.relayQ := by rw [classifyStep_eq]
@[simp] theorem classifyStep_ports (s : State) : (classifyStep s).ports = s.ports := by rw [classifyStep_eq]

/-! The commands. -/

/-- The effects of a command: it records an error, or it has the effect of its own. -/
inductive CommandMove (s : State) : Instr → State → Prop where
  | raised {i : Instr} (c : ErrCode) (op : Byte) : CommandMove s i (raise c op s)
  | nop : CommandMove s .nop s
  | crcCalc (n : Nat) : CommandMove s (.crcCalc n) { s with host.crcResult := crc16 (s.codecIn n) }
  | crcVerify (n : Nat) : CommandMove s (.crcVerify n) { s with host.crcOk := verify (s.codecIn n) }
  | build {i : Instr} (hi : i = .buildRead ∨ ∃ n, i = .buildWriteS n ∨ i = .buildWriteM n) (body : List Byte)
      (hmin : 4 ≤ body.length) (hmax : body.length + 2 ≤ s.params.maxFrame ∨ body.length = 6) :
      CommandMove s i (setCodecOut (frame body) s)
  | classify (n : Nat) (c : RespClass) (v : Word) :
      CommandMove s (.classify n) { s with host.clsResult := clsResultWord n s.argFc c, host.clsValue := v }
  | push (h0 : s.host.outLen ≠ 0) (hroom : relayUsed s.relayQ + 1 + s.host.outLen.toNat ≤ s.params.relayQBytes) :
      CommandMove s .relayPush { s with relayQ := s.relayQ ++ [s.codecOut], host.enqFail := false }
  | pushFull : CommandMove s .relayPush { s with host.enqFail := true }
  | accept (hcheck : s.commitCheck = none) : CommandMove s .cfgCommit (acceptCommit s)
  | reject {why : CfgReason} {idx : Nat} (hcheck : s.commitCheck = some (why, idx)) :
      CommandMove s .cfgCommit (rejectCommit why idx s)
  | popEmpty (hq : s.evtQ = []) :
      CommandMove s .evtPop { s with host.evtHead0 := 0, host.evtHead1 := 0, host.evtHead2 := 0 }
  | pop {e : Event} {q : List Event} (hq : s.evtQ = e :: q) :
      CommandMove s .evtPop { s with
        evtQ := q, host.evtHead0 := e.head0, host.evtHead1 := e.head1, host.evtHead2 := e.val }
  | clrErr : CommandMove s .clrErr { s with host.err := 0, evtOvf := false }

theorem commandMove_of_exec {i : Instr} {s t : State} (h : exec i s = .next t) : CommandMove s i t := by
  obtain ⟨c, op, rfl⟩ | ⟨rfl, rfl⟩ | ⟨n, rfl, -, rfl⟩ | ⟨n, rfl, -, rfl⟩ | ⟨body, hi, hmin, hmax, rfl⟩ |
    ⟨n, _, v, rfl, rfl, c, rfl⟩ | ⟨rfl, h0, hroom, rfl⟩ | ⟨rfl, rfl⟩ | ⟨rfl, hcheck, rfl⟩ | ⟨_, _, rfl, hcheck, rfl⟩ |
    ⟨rfl, hq, rfl⟩ | ⟨_, _, rfl, hq, rfl⟩ | ⟨rfl, rfl⟩ := exec_cases h
  · exact .raised c op
  · exact .nop
  · exact .crcCalc n
  · exact .crcVerify n
  · exact .build hi body hmin hmax
  · exact .classify n c v
  · exact .push h0 hroom
  · exact .pushFull
  · exact .accept hcheck
  · exact .reject hcheck
  · exact .popEmpty hq
  · exact .pop hq
  · exact .clrErr

/-! The step. -/

/-- The steps of the agents, each in the state whose port actions to come are `rest`. -/
inductive StepMove (s : State) : State → Prop where
  | worker (rest : List Input) {t : State} (hmove : WorkerMove (dropInput rest s) t) : StepMove s t
  | tick (rest : List Input) (hnone : workerStep s = none) : StepMove s (clockStep (dropInput rest s))
  | read (addr : Addr) (size : Nat) (rest : List Input) : StepMove s (hostRead addr size (dropInput rest s))
  | raised (c : ErrCode) (op : Byte) (rest : List Input) : StepMove s (raise c op (dropInput rest s))
  | store (r : Reg) (v : Word) (rest : List Input) (hpres : r.Present s.params) :
      StepMove s (storeReg r v (dropInput rest s))
  | command (w : Word) {i : Instr} (rest : List Input) (hpend : s.Pending (.hostWrite cmdAddr 4 w) rest)
      (hdec : decode w = .command i) {t : State} (hmove : CommandMove (dropInput rest s) i t) : StepMove s t
  | received (b : Byte) (rest : List Input) : StepMove s (rxStep b (dropInput rest s))
  | answered (ok : Bool) (rest : List Input) (ho : s.line.txOffer ≠ none) : StepMove s (answerStep ok (dropInput rest s))
  | reset (rest : List Input) (hpend : s.Pending .reset rest) : StepMove s (resetStep (dropInput rest s))

theorem stepMove_of_step {s t : State} (h : step s = .next t) : StepMove s t := by
  obtain ⟨_, hs', hstep⟩ | ⟨_, hs', hnone, rfl⟩ | ⟨addr, size, rest, -, rfl⟩ | ⟨rest, rfl⟩ |
    ⟨_, r, v, rest, -, hmap, -, rfl⟩ | ⟨w, i, rest, hpend, hdec, hexec⟩ | ⟨w, rest, -, rfl⟩ | ⟨b, rest, -, rfl⟩ |
    ⟨ok, rest, -, ho, rfl⟩ | ⟨rest, hpend, rfl⟩ := step_cases h
  · obtain rfl | ⟨rest, rfl⟩ := hs'
    · exact .worker _ (workerMove_of_workerStep hstep)
    · exact .worker rest (workerMove_of_workerStep hstep)
  · obtain rfl | ⟨rest, -, rfl⟩ := hs'
    · exact .tick _ hnone
    · exact .tick rest hnone
  · exact .read addr size rest
  · exact .raised .badAccess 0xFF rest
  · exact .store r v rest (mapped_eq_some hmap).1
  · exact .command w rest hpend hdec (commandMove_of_exec hexec)
  · exact .raised .illegalCmd (opField w) rest
  · exact .received b rest
  · exact .answered ok rest ho
  · exact .reset rest hpend

end Sys2Proof.Machine
end

section
/-! The byte memory over all steps (10_state.md section 12, 20_memory.md section 2): which window a step writes, and the
canonical form. -/

namespace Sys2Proof.Machine

/-! Equal reads are equal data. -/

theorem Memory.read_cons_self (k : Nat) (v : Byte) (m : Memory) : Memory.read ((k, v) :: m) k = v := if_pos rfl

theorem Memory.read_cons_of_ne {k a : Nat} (h : k ≠ a) (v : Byte) (m : Memory) :
    Memory.read ((k, v) :: m) a = m.read a := if_neg h

/-- A canonical memory above `lo` is determined by what it reads as. -/
theorem Memory.eq_of_read_eq : ∀ {m m' : Memory} {lo : Nat}, Memory.wfAbove lo m = true → Memory.wfAbove lo m' = true →
    (∀ a, m.read a = m'.read a) → m = m'
  | [], [], _, _, _, _ => rfl
  | [], (k, v) :: m', _, _, h', hread => by
    obtain ⟨-, hv, -⟩ := (Memory.wfAbove_cons ..).mp h'
    exact absurd ((Memory.read_cons_self k v m').symm.trans (hread k).symm) hv
  | (k, v) :: m, [], _, h, _, hread => by
    obtain ⟨-, hv, -⟩ := (Memory.wfAbove_cons ..).mp h
    exact absurd ((Memory.read_cons_self k v m).symm.trans (hread k)) hv
  | (k, v) :: m, (k', v') :: m', lo, h, h', hread => by
    obtain ⟨-, hv, hm⟩ := (Memory.wfAbove_cons ..).mp h
    obtain ⟨-, hv', hm'⟩ := (Memory.wfAbove_cons ..).mp h'
    have hk : k = k' := by
      rcases Nat.lt_trichotomy k k' with hlt | heq | hgt
      · have hzero : Memory.read ((k', v') :: m') k = 0 :=
          Memory.read_below hlt ((Memory.wfAbove_cons ..).mpr ⟨le_rfl, hv', hm'⟩)
        exact absurd ((Memory.read_cons_self k v m).symm.trans ((hread k).trans hzero)) hv
      · exact heq
      · have hzero : Memory.read ((k, v) :: m) k' = 0 :=
          Memory.read_below hgt ((Memory.wfAbove_cons ..).mpr ⟨le_rfl, hv, hm⟩)
        exact absurd ((Memory.read_cons_self k' v' m').symm.trans ((hread k').symm.trans hzero)) hv'
    subst hk
    have hhead : v = v' := by simpa only [Memory.read_cons_self] using hread k
    have htail : m = m' := by
      refine Memory.eq_of_read_eq hm hm' fun a => ?_
      by_cases ha : k = a
      · rw [Memory.read_below (Nat.lt_succ_of_le ha.ge) hm, Memory.read_below (Nat.lt_succ_of_le ha.ge) hm']
      · simpa only [Memory.read_cons_of_ne ha] using hread a
    rw [hhead, htail]

/-! Which window a step writes. -/

/-- What a step can do to the memory: nothing, fill one of the windows `CODEC_OUT`, `RXBUF`, `TXBUF`, store a word of
`CODEC_IN` or a received byte, or clear it all. -/
inductive MemWrite (p : Params) (m : Memory) : Memory → Prop where
  | none : MemWrite p m m
  | codecIn (j : Nat) (v : Word) : MemWrite p m (m.setWindowWord codecInBase p.cinBytes j v)
  | codecOut (f : List Byte) : MemWrite p m (m.setWindow codecOutBase p.maxFrame f)
  | rxClear : MemWrite p m (m.setWindow rxBase p.rxCap [])
  | rxByte (k : Nat) (hk : k < p.rxCap) (b : Byte) : MemWrite p m (m.write (rxBase + k) b)
  | tx (f : List Byte) : MemWrite p m (m.setWindow txBase p.maxFrame f)
  | clear : MemWrite p m []

theorem MemWrite.wf {p : Params} {m m' : Memory} (h : MemWrite p m m') (hm : m.wf = true) : m'.wf = true := by
  cases h with
  | none => exact hm
  | codecIn j v => exact Memory.wf_setWindowWord hm ..
  | codecOut f => exact Memory.wf_setWindow hm ..
  | rxClear => exact Memory.wf_setWindow hm ..
  | rxByte k hk b => exact Memory.wf_write hm ..
  | tx f => exact Memory.wf_setWindow hm ..
  | clear => rfl

/-- The worker writes the receive and the transmit buffer only. -/
theorem mem_of_workerMove {s t : State} (h : WorkerMove s t) :
    t.mem = s.mem ∨ t.mem = s.mem.setWindow rxBase s.params.rxCap [] ∨
    ∃ f, t.mem = s.mem.setWindow txBase s.params.maxFrame f := by
  cases h with
  | due hw => exact .inr (.inr ⟨_, rfl⟩)
  | load hw hq => exact .inr (.inr ⟨_, rfl⟩)
  | start hw => exact .inr (.inl rfl)
  | turn hw => exact .inr (.inl rfl)
  | classify hw => exact .inl (classifyStep_mem s)
  | _ => exact .inl rfl

/-- A command writes `CODEC_OUT` only. -/
theorem mem_of_commandMove {i : Instr} {s t : State} (h : CommandMove s i t) :
    t.mem = s.mem ∨ ∃ f, t.mem = s.mem.setWindow codecOutBase s.params.maxFrame f := by
  cases h with
  | raised c op => exact .inl (raise_mem ..)
  | reject hcheck => exact .inl (raise_mem ..)
  | build hi body => exact .inr ⟨_, rfl⟩
  | _ => exact .inl rfl

/-- A store in a register writes `CODEC_IN` only. -/
theorem mem_storeReg (r : Reg) (v : Word) (s : State) :
    (storeReg r v s).mem = s.mem ∨
    ∃ j, (storeReg r v s).mem = s.mem.setWindowWord codecInBase s.params.cinBytes j v := by
  cases r with
  | codecIn j => exact .inr ⟨j, rfl⟩
  | _ => exact .inl rfl

@[simp] theorem hostRead_mem (addr : Addr) (size : Nat) (s : State) : (hostRead addr size s).mem = s.mem := by
  unfold hostRead
  split <;> rfl

theorem memWrite_of_stepMove {s t : State} (h : StepMove s t) : MemWrite s.params s.mem t.mem := by
  cases h with
  | worker rest hmove =>
    obtain he | he | ⟨f, he⟩ := mem_of_workerMove hmove
    · exact he ▸ .none
    · exact he ▸ .rxClear
    · exact he ▸ .tx f
  | tick rest hnone => exact .none
  | read addr size rest => exact (hostRead_mem addr size (dropInput rest s)).symm ▸ .none
  | raised c op rest => exact (raise_mem c op (dropInput rest s)).symm ▸ .none
  | store r v rest hpres =>
    obtain he | ⟨j, he⟩ := mem_storeReg r v (dropInput rest s)
    · exact he ▸ .none
    · exact he ▸ .codecIn j v
  | command w rest hpend hdec hmove =>
    obtain he | ⟨f, he⟩ := mem_of_commandMove hmove
    · exact he ▸ .none
    · exact he ▸ .codecOut f
  | received b rest =>
    obtain ⟨hlen, he⟩ | ⟨-, he⟩ := rxStep_cases b (dropInput rest s)
    · exact he.symm ▸ .rxByte _ hlen b
    · exact he.symm ▸ .none
  | answered ok rest ho => exact .none
  | reset rest hpend => exact .clear

/-- Settles O54: every write keeps the canonical form, and a canonical memory lists exactly what does not read 0. -/
theorem everyStepKeepsTheMemoryCanonical : Obligations.EveryStepKeepsTheMemoryCanonical :=
  ⟨fun _ _ hm hstep => (memWrite_of_stepMove (stepMove_of_step hstep)).wf hm,
    fun _ _ hm hm' hread => Memory.eq_of_read_eq hm hm' hread⟩

end Sys2Proof.Machine
end

section
/-! The buffer windows of the invariant (10_state.md sections 4 and 12): a write to one window leaves the others, and lists
no byte outside the windows. -/

namespace Sys2Proof.Machine

/-! The listed addresses. -/

theorem Memory.mem_of_mem_write {c : Host.Cell} {a : Nat} {b : Byte} :
    ∀ {m : Memory}, c ∈ m.write a b → c.1 = a ∨ c ∈ m
  | [], h => by
    unfold Memory.write at h
    split at h
    · exact .inr h
    · exact .inl (congrArg Prod.fst (List.mem_singleton.mp h))
  | (k, v) :: m, h => by
    unfold Memory.write at h
    split at h
    · split at h
      · exact .inr h
      · exact (List.mem_cons.mp h).imp_left (congrArg Prod.fst)
    · split at h
      · split at h
        · exact .inr (List.mem_cons_of_mem _ h)
        · exact (List.mem_cons.mp h).imp (congrArg Prod.fst) (List.mem_cons_of_mem _)
      · obtain rfl | h := List.mem_cons.mp h
        · exact .inr List.mem_cons_self
        · exact (Memory.mem_of_mem_write h).imp_right (List.mem_cons_of_mem _)

theorem Memory.mem_of_mem_writeBytes {c : Host.Cell} {bs : List Byte} {m : Memory} {a : Nat}
    (h : c ∈ m.writeBytes a bs) : InRange a bs.length c.1 ∨ c ∈ m := by
  induction bs generalizing m a with
  | nil => exact .inr h
  | cons b bs ih =>
    obtain ⟨hlo, hhi⟩ | h := ih h
    · exact .inl ⟨by omega, by rw [List.length_cons]; omega⟩
    · exact (Memory.mem_of_mem_write h).imp_left fun ha => ⟨ha.ge, by rw [List.length_cons]; omega⟩

theorem Memory.mem_of_mem_setWindow {c : Host.Cell} {m : Memory} {base cap : Nat} {f : List Byte}
    (h : c ∈ m.setWindow base cap f) : InRange base cap c.1 ∨ c ∈ m := by
  simpa only [Memory.length_padTo] using Memory.mem_of_mem_writeBytes h

theorem Memory.mem_of_mem_setWindowByte {c : Host.Cell} {m : Memory} {base cap k : Nat} {b : Byte}
    (h : c ∈ m.setWindowByte base cap k b) : InRange base cap c.1 ∨ c ∈ m := by
  unfold Memory.setWindowByte at h
  split at h
  · exact (Memory.mem_of_mem_write h).imp_left fun ha => ⟨by omega, by omega⟩
  · exact .inr h

theorem Memory.mem_of_mem_setWindowWord {c : Host.Cell} {m : Memory} {base cap j : Nat} {v : Word}
    (h : c ∈ m.setWindowWord base cap j v) : InRange base cap c.1 ∨ c ∈ m := by
  obtain hc | h := Memory.mem_of_mem_setWindowByte h
  · exact .inl hc
  obtain hc | h := Memory.mem_of_mem_setWindowByte h
  · exact .inl hc
  obtain hc | h := Memory.mem_of_mem_setWindowByte h
  · exact .inl hc
  exact Memory.mem_of_mem_setWindowByte h

/-- Every write of a step stays in the windows (R74). -/
theorem MemWrite.inWindow {p : Params} {m m' : Memory} (h : MemWrite p m m') (hm : ∀ c ∈ m, InWindow p c.1) :
    ∀ c ∈ m', InWindow p c.1 := by
  intro c hc
  cases h with
  | none => exact hm c hc
  | codecIn j v => exact (Memory.mem_of_mem_setWindowWord hc).elim .inl (hm c)
  | codecOut f => exact (Memory.mem_of_mem_setWindow hc).elim (.inr ∘ .inl) (hm c)
  | rxClear => exact (Memory.mem_of_mem_setWindow hc).elim (.inr ∘ .inr ∘ .inl) (hm c)
  | rxByte k hk b =>
    obtain ha | hc := Memory.mem_of_mem_write hc
    · exact .inr (.inr (.inl ⟨by omega, by omega⟩))
    · exact hm c hc
  | tx f => exact (Memory.mem_of_mem_setWindow hc).elim (.inr ∘ .inr ∘ .inr) (hm c)
  | clear => cases hc

/-! Bytes a write leaves. -/

/-- The `n` bytes from `base` on read the same in both memories. -/
def SameWindow (m m' : Memory) (base n : Nat) : Prop := ∀ k < n, m'.read (base + k) = m.read (base + k)

theorem SameOutside.window {m m' : Memory} {b c base n : Nat} (h : SameOutside m m' b c)
    (hapart : base + n ≤ b ∨ b + c ≤ base) : SameWindow m m' base n := fun k hk => h _ (by omega)

/-- The zeros past a window's contents. -/
theorem SameWindow.zeros {m m' : Memory} {base cap lo : Nat} (h : SameWindow m m' base cap)
    (hz : ∀ k < cap, lo ≤ k → m.read (base + k) = 0) : ∀ k < cap, lo ≤ k → m'.read (base + k) = 0 :=
  fun k hk hlo => (h k hk).trans (hz k hk hlo)

theorem SameWindow.readBytes_eq {m m' : Memory} {base cap n : Nat} (h : SameWindow m m' base cap) (hn : n ≤ cap) :
    m'.readBytes base n = m.readBytes base n := Memory.readBytes_congr fun k hk => h k (hk.trans_le hn)

/-- The windows do not overlap (R75). -/
theorem windows_apart {p : Params} (hp : p.Legal) :
    codecInBase + p.cinBytes ≤ codecOutBase ∧ codecOutBase + p.maxFrame ≤ rxBase ∧ rxBase + p.rxCap ≤ txBase := by
  have hcin := cinBytes_lt hp
  obtain ⟨-, hframe, hcap, -⟩ := hp
  simp only [codecInBase, codecOutBase, rxBase, txBase]
  omega

theorem sameOutside_setWindowWord {m : Memory} (hm : m.wf = true) (base cap j : Nat) (v : Word) :
    SameOutside m (m.setWindowWord base cap j v) base cap := by
  intro a ha
  have hne {k : Nat} : ¬ (k < cap ∧ a = base + k) := fun ⟨hk, he⟩ => ha ⟨by omega, by omega⟩
  have hwf0 := Memory.wf_setWindowByte hm base cap (4 * j) (wordByte v 0)
  have hwf1 := Memory.wf_setWindowByte hwf0 base cap (4 * j + 1) (wordByte v 1)
  have hwf2 := Memory.wf_setWindowByte hwf1 base cap (4 * j + 2) (wordByte v 2)
  rw [Memory.setWindowWord, Memory.read_setWindowByte hwf2, if_neg hne, Memory.read_setWindowByte hwf1, if_neg hne,
    Memory.read_setWindowByte hwf0, if_neg hne, Memory.read_setWindowByte hm, if_neg hne]

theorem sameOutside_rxByte {m : Memory} (hm : m.wf = true) {k cap : Nat} (hk : k < cap) (b : Byte) :
    SameOutside m (m.write (rxBase + k) b) rxBase cap := fun a ha => by
  rw [Memory.read_write hm, if_neg (by rintro rfl; exact ha ⟨by omega, by omega⟩)]

end Sys2Proof.Machine
end

section
/-! The CRC detects (40_codec.md section 1), and the classifier's use of it (41_classifier.md). -/

namespace Sys2Proof.Machine

/-! Frames verify (R141 item 1). -/

theorem joinBytes_hi8_lo8 (c : Half) : joinBytes (hi8 c) (lo8 c) = c := by
  apply BitVec.eq_of_toNat_eq
  rw [toNat_joinBytes, hi8, lo8, BitVec.extractLsb'_toNat, BitVec.extractLsb'_toNat, Nat.shiftRight_eq_div_pow]
  omega

theorem frameCrc_frame (s : List Byte) : frameCrc (frame s) = crc16 s := by
  rw [← joinBytes_hi8_lo8 (crc16 s)]
  simp [frameCrc, frame]

/-- Settles O16: the body's CRC is in the last two bytes. -/
theorem everyFrameVerifies : Obligations.EveryFrameVerifies := fun s => by
  rw [verify, take_frame, frameCrc_frame, beq_self_eq_true]

/-! No two registers, and no two bytes, lead to the same register (R140). -/

/-- The top bit of the next register is the feedback bit, since the polynomial's top bit is 1. -/
theorem getLsbD_crcBit_top (c : Half) : (crcBit c).getLsbD 15 = c.getLsbD 0 := by
  unfold crcBit
  split <;> simp_all

theorem crcBit_injective : Function.Injective crcBit := by
  intro c d h
  have hlow : c.getLsbD 0 = d.getLsbD 0 := by rw [← getLsbD_crcBit_top, h, getLsbD_crcBit_top]
  have hshift : c >>> 1 = d >>> 1 := by
    rw [crcBit, crcBit, hlow] at h
    split at h
    · exact (BitVec.xor_left_inj _).mp h
    · exact h
  apply BitVec.eq_of_getLsbD_eq
  rintro (_ | k) hk
  · exact hlow
  · simpa [Nat.add_comm] using congrArg (BitVec.getLsbD · k) hshift

theorem crcBits_injective (n : Nat) : Function.Injective (crcBits n) := by
  induction n with
  | zero => exact Function.injective_id
  | succ n ih => exact ih.comp crcBit_injective

theorem crcByte_left_injective (b : Byte) : Function.Injective (crcByte · b) := fun _ _ h =>
  (BitVec.xor_left_inj _).mp (crcBits_injective 8 h)

theorem crcByte_right_injective (c : Half) : Function.Injective (crcByte c) := fun a b h => by
  have hwide : a.setWidth 16 = b.setWidth 16 := (BitVec.xor_right_inj _).mp (crcBits_injective 8 h)
  simpa using congrArg (BitVec.setWidth 8) hwide

theorem foldl_crcByte_injective (s : List Byte) : Function.Injective (s.foldl crcByte) := by
  induction s with
  | nil => exact Function.injective_id
  | cons b s ih => exact ih.comp (crcByte_left_injective b)

/-- Replacing one byte by another changes the CRC of a sequence. -/
theorem crc16_set_ne {f : List Byte} {k : Nat} (hk : k < f.length) {b : Byte} (hb : b ≠ f[k]) :
    crc16 (f.set k b) ≠ crc16 f := by
  have hset : f.set k b = f.take k ++ b :: f.drop (k + 1) := List.set_eq_take_cons_drop b hk
  have hself : f = f.take k ++ f[k] :: f.drop (k + 1) := by
    rw [List.getElem_cons_drop, List.take_append_drop]
  intro h
  rw [hset, crc16_append] at h
  nth_rw 3 [hself] at h
  rw [crc16_append, List.foldl_cons, List.foldl_cons] at h
  exact hb (crcByte_right_injective _ (foldl_crcByte_injective _ h))

/-- The residue over a sequence that verifies is 0 (R146). -/
theorem crc16_of_verify {f : List Byte} (h : 2 ≤ f.length) (hv : verify f = true) : crc16 f = 0 := by
  obtain ⟨s, rfl⟩ := exists_frame_of_verify h hv
  exact crc16_frame s

theorem flipBit_ne (b : Byte) {bit : Nat} (h : bit < 8) : b ^^^ (1#8 <<< bit) ≠ b := by
  intro he
  have hzero : 1#8 <<< bit = 0#8 := by simpa using (BitVec.xor_right_inj _).mp (he.trans (BitVec.xor_zero (x := b)).symm)
  revert hzero
  interval_cases bit <;> decide

/-- Settles O17: both residues would be 0, and a changed byte changes the residue. -/
theorem singleBitFlipBreaksVerify : Obligations.SingleBitFlipBreaksVerify := by
  intro f k bit hlen hv hk hbit
  rw [← Bool.not_eq_true]
  intro hv'
  have hbyte : f.getD k 0 ^^^ (1#8 <<< bit) ≠ f[k] := by
    rw [List.getD_eq_getElem _ _ hk]
    exact flipBit_ne _ hbit
  refine crc16_set_ne hk hbyte ?_
  rw [crc16_of_verify hlen hv, crc16_of_verify (by rwa [List.length_set]) hv']

/-! The flags word (R170). -/

/-- A bit that the mask keeps. -/
theorem getLsbD_eq_of_and_eq {x y m : Word} (h : x &&& m = y &&& m) {k : Nat} (hk : m.getLsbD k = true) :
    x.getLsbD k = y.getLsbD k := by
  simpa [hk] using congrArg (BitVec.getLsbD · k) h

/-- Settles O22: the decode of a register read looks at the three bits only, and no other branch looks at the flags. -/
theorem classifyReadsOnlyThreeFlags : Obligations.ClassifyReadsOnlyThreeFlags := by
  intro f a fc flags flags' h
  have hcombine : cycCombine flags = cycCombine flags' := getLsbD_eq_of_and_eq h (by decide)
  have hhwf : cycHwf flags = cycHwf flags' := getLsbD_eq_of_and_eq h (by decide)
  have hle : cycLe flags = cycLe flags' := getLsbD_eq_of_and_eq h (by decide)
  have hword : clsWord f flags = clsWord f flags' := by
    funext k
    rw [clsWord, clsWord, hle]
  have hregisters : decodeRegisters f flags = decodeRegisters f flags' := by
    rw [decodeRegisters, decodeRegisters, expectedBytes, expectedBytes, hcombine, hhwf, hword]
  rw [classify, classify, decodePayload, decodePayload, hregisters]

/-! Exception responses and echoes (R189). -/

/-- A function code with bit 7 set. -/
theorem toNat_or_0x80 {fc : Byte} (h : fc.toNat < 128) : (fc ||| 0x80).toNat = fc.toNat + 128 := by
  have := Nat.shiftLeft_add_eq_or_of_lt (i := 7) h 1
  rw [BitVec.toNat_or, Nat.or_comm, Nat.add_comm]
  exact this.symm

/-- The decode never answers a class of the validation. -/
theorem decodePayload_class (f : List Byte) (fc : Byte) (flags : Word) :
    (decodePayload f fc flags).1 ∉ [.noResponse, .crcError, .invalidResponse] := by
  unfold decodePayload
  split
  · unfold decodeBits
    split <;> simp
  split
  · unfold decodeRegisters
    split
    · simp
    split
    · simp
    split <;> simp
  split
  · simp
  split <;> simp

theorem passesValidation_buildRequestFrame (a fc : Byte) (r c : Half) :
    PassesValidation (buildRequestFrame a fc r c) a fc :=
  ⟨by rw [length_buildRequestFrame]; decide, everyFrameVerifies _, rfl, rfl⟩

/-- Settles O23: bit 7 makes another function code, a request is a frame with its own header, and a frame that passes is
left to the decode. -/
theorem exceptionResponsesAndEchoes : Obligations.ExceptionResponsesAndEchoes := by
  refine ⟨fun f a fc flags hlen hv haddr hfc hbit => ?_, passesValidation_buildRequestFrame, fun f a fc flags h => ?_⟩
  · have hor := toNat_or_0x80 hfc
    have hne : f.getD 1 0 ≠ fc := fun he => by
      rw [← hbit, he] at hor
      omega
    rw [classify_badHeader flags hlen (beq_iff_eq.mp hv) (.inr hne), haddr, hbit]
    refine ⟨rfl, ?_⟩
    rw [toNat_bytePair, hor, Nat.add_assoc]
  · rw [classify_of_passes flags h]
    exact decodePayload_class f fc flags

end Sys2Proof.Machine
end

section
/-! The registers of the invariant (10_state.md sections 4, 6, 7 and 13): the words that commands write, by bytes, and what
of each word reads 0. -/

namespace Sys2Proof.Machine

/-! Words by bytes (R74). -/

theorem eq_packWord (w : Word) :
    w = packWord (w.extractLsb' 0 8) (w.extractLsb' 8 8) (w.extractLsb' 16 8) (w.extractLsb' 24 8) := by
  apply BitVec.eq_of_toNat_eq
  simp only [toNat_packWord, BitVec.extractLsb'_toNat, Nat.shiftRight_eq_div_pow]
  omega

theorem packWord_and (a0 a1 a2 a3 b0 b1 b2 b3 : Byte) :
    packWord a0 a1 a2 a3 &&& packWord b0 b1 b2 b3 = packWord (a0 &&& b0) (a1 &&& b1) (a2 &&& b2) (a3 &&& b3) := by
  have hbyte {k : Nat} (hk : k < 4) :
      (packWord a0 a1 a2 a3 &&& packWord b0 b1 b2 b3).extractLsb' (8 * k) 8 =
        [a0, a1, a2, a3].getD k 0 &&& [b0, b1, b2, b3].getD k 0 := by
    rw [BitVec.extractLsb'_and, byte_packWord _ _ _ _ hk, byte_packWord _ _ _ _ hk]
  rw [eq_packWord (_ &&& _)]
  exact congr (congr (congr (congrArg packWord (hbyte (k := 0) (by decide))) (hbyte (k := 1) (by decide)))
    (hbyte (k := 2) (by decide))) (hbyte (k := 3) (by decide))

theorem extractLsb'_nibble_packWord (b0 b1 b2 b3 : Byte) :
    (packWord b0 b1 b2 b3).extractLsb' 0 4 = b0.extractLsb' 0 4 := by
  have hbyte : (packWord b0 b1 b2 b3).extractLsb' 0 8 = b0 := byte_packWord b0 b1 b2 b3 (k := 0) (by decide)
  rw [← congrArg (BitVec.extractLsb' 0 4) hbyte, BitVec.extractLsb'_extractLsb'_of_le (by decide)]

/-- `ERR` after an error (R26, R301). -/
theorem errWord_eq_packWord (c : ErrCode) (op : Byte) :
    fieldAt 8 op ||| c.number = packWord (c.number.setWidth 8) op 0 0 := by
  have hcode : c.number = fieldAt 0 (c.number.setWidth 8) := by cases c <;> rfl
  rw [packWord, ← hcode]
  simp [fieldAt]

/-- `CFG_STATUS` after a rejected commit (R27, R210). -/
theorem cfgStatus_eq_packWord (why : CfgReason) (idx : Nat) :
    fieldAt 8 (BitVec.ofNat 8 idx) ||| why.number = packWord (why.number.setWidth 8) (BitVec.ofNat 8 idx) 0 0 := by
  have hcode : why.number = fieldAt 0 (why.number.setWidth 8) := by cases why <;> rfl
  rw [packWord, ← hcode]
  simp [fieldAt]

/-! What of each word reads 0. -/

theorem errWord_and_mask (c : ErrCode) (op : Byte) : (fieldAt 8 op ||| c.number) &&& 0xFFFF00F0 = 0 := by
  have hnibble : c.number.setWidth 8 &&& (0xF0 : Byte) = 0 := by cases c <;> decide
  rw [errWord_eq_packWord, show (0xFFFF00F0 : Word) = packWord 0xF0 0x00 0xFF 0xFF by decide, packWord_and, hnibble]
  simp [packWord, fieldAt]

theorem cfgStatus_and_mask (why : CfgReason) (idx : Nat) :
    (fieldAt 8 (BitVec.ofNat 8 idx) ||| why.number) &&& 0xFFFF00F0 = 0 := by
  have hnibble : why.number.setWidth 8 &&& (0xF0 : Byte) = 0 := by cases why <;> decide
  rw [cfgStatus_eq_packWord, show (0xFFFF00F0 : Word) = packWord 0xF0 0x00 0xFF 0xFF by decide, packWord_and, hnibble]
  simp [packWord, fieldAt]

theorem clsResultWord_and_mask (len : Nat) (fc : Byte) (c : RespClass) :
    clsResultWord len fc c &&& 0x7F0000F0 = 0 := by
  have hnibble : c.code.setWidth 8 &&& (0xF0 : Byte) = 0 := by cases c <;> decide
  rw [clsResultWord_eq_packWord, show (0x7F0000F0 : Word) = packWord 0xF0 0x00 0x00 0x7F by decide, packWord_and, hnibble]
  simp [packWord, fieldAt]

/-- The sub-channel of every event is 0 (R122). -/
theorem Event.head0_and_mask {e : Event} (h : e.subch = 0) : e.head0 &&& 0x00FF00FC = 0 := by
  have hlow : e.kind.lowByte &&& (0xFC : Byte) = 0 := by cases e.kind <;> decide
  rw [e.head0_eq_packWord, show (0x00FF00FC : Word) = packWord 0xFC 0x00 0xFF 0x00 by decide, packWord_and, hlow, h]
  simp [packWord, fieldAt]

/-- `CLS_RESULT.CLASS` is a code of R120. -/
theorem clsResultWord_class_le (len : Nat) (fc : Byte) (c : RespClass) :
    ((clsResultWord len fc c).extractLsb' 0 4).toNat ≤ 6 := by
  rw [clsResultWord_eq_packWord, extractLsb'_nibble_packWord]
  cases c <;> decide

theorem Event.head1_le (e : Event) : e.head1.toNat ≤ 6 := by
  rw [e.toNat_head1]
  cases e.cls <;> decide

/-! `ERR` as a number (R26, R301). -/

theorem toNat_errWord (c : ErrCode) (op : Byte) : (fieldAt 8 op ||| c.number).toNat = 256 * op.toNat + c.number.toNat := by
  rw [toNat_fieldAt_or 8 op _ (by cases c <;> decide) (by decide)]
  omega

theorem errWord_code (c : ErrCode) (op : Byte) :
    ((fieldAt 8 op ||| c.number).extractLsb' 0 4).toNat = c.number.toNat := by
  rw [errWord_eq_packWord, extractLsb'_nibble_packWord]
  cases c <;> rfl

/-- `CFG_STATUS.REASON` is a number of R210, and only a rejected function code names a device (R27). -/
theorem cfgStatus_reason (why : CfgReason) (idx : Nat) :
    ((fieldAt 8 (BitVec.ofNat 8 idx) ||| why.number).extractLsb' 0 4).toNat ≤ 7 ∧
    (why = .functionCode → (fieldAt 8 (BitVec.ofNat 8 idx) ||| why.number).extractLsb' 0 4 = 7) ∧
    (fieldAt 8 (BitVec.ofNat 8 idx) ||| why.number).extractLsb' 8 8 = BitVec.ofNat 8 idx := by
  rw [cfgStatus_eq_packWord, extractLsb'_nibble_packWord]
  refine ⟨by cases why <;> decide, ?_, byte_packWord _ _ _ _ (k := 1) (by decide)⟩
  rintro rfl
  rfl

end Sys2Proof.Machine
end

section
/-! The invariant under the steps of the host, the clock, the receive line and the transport (R42 to R49, R74, R301). -/

namespace Sys2Proof.Machine

/-! Registers. -/

theorem RegistersOk.withErr {s : State} (h : RegistersOk s) {e : Word} (hmask : e &&& 0xFFFF00F0 = 0)
    (hcode : (e.extractLsb' 0 4).toNat ≤ 5) : RegistersOk { s with host.err := e } := by
  obtain ⟨hctrl, -, -, hrest⟩ := h
  exact ⟨hctrl, hmask, hcode, hrest⟩

theorem RegistersOk.raise {s : State} (h : RegistersOk s) (c : ErrCode) (op : Byte) : RegistersOk (raise c op s) := by
  obtain ⟨-, he⟩ | ⟨-, he⟩ := raise_cases c op s
  · exact he.symm ▸ h
  · have hcode : c.number.toNat ≤ 5 := by cases c <;> decide
    exact he.symm ▸ h.withErr (errWord_and_mask c op) ((errWord_code c op).trans_le hcode)

theorem RegistersOk.withCfgStatus {s : State} (h : RegistersOk s) {x : Word} (hmask : x &&& 0xFFFF00F0 = 0)
    (hreason : (x.extractLsb' 0 4).toNat ≤ 7) (hidx : x.extractLsb' 0 4 = 7 ∨ x.extractLsb' 8 8 = 0) :
    RegistersOk { s with host.cfgStatus := x } := by
  obtain ⟨hctrl, herr, hcode, -, -, -, hrest⟩ := h
  exact ⟨hctrl, herr, hcode, hmask, hreason, hidx, hrest⟩

theorem RegistersOk.withCls {s : State} (h : RegistersOk s) (len : Nat) (fc : Byte) (c : RespClass) (v : Word) :
    RegistersOk { s with host.clsResult := clsResultWord len fc c, host.clsValue := v } := by
  obtain ⟨hctrl, herr, hcode, hcfg, hreason, hidx, -, -, hrest⟩ := h
  exact ⟨hctrl, herr, hcode, hcfg, hreason, hidx, clsResultWord_and_mask len fc c, clsResultWord_class_le len fc c,
    hrest⟩

theorem RegistersOk.withEvtHead {s : State} (h : RegistersOk s) {h0 h1 h2 : Word} (hmask : h0 &&& 0x00FF00FC = 0)
    (hclass : h1.toNat ≤ 6) : RegistersOk { s with host.evtHead0 := h0, host.evtHead1 := h1, host.evtHead2 := h2 } := by
  obtain ⟨hctrl, herr, hcode, hcfg, hreason, hidx, hcls, hcls', -, -, hlen⟩ := h
  exact ⟨hctrl, herr, hcode, hcfg, hreason, hidx, hcls, hcls', hmask, hclass, hlen⟩

theorem RegistersOk.withOutLen {s : State} (h : RegistersOk s) {n : Byte} (hmax : n.toNat ≤ s.params.maxFrame)
    (hmin : 6 ≤ n.toNat) : RegistersOk { s with host.outLen := n } := by
  obtain ⟨hctrl, herr, hcode, hcfg, hreason, hidx, hcls, hcls', hhead, hhead', -⟩ := h
  exact ⟨hctrl, herr, hcode, hcfg, hreason, hidx, hcls, hcls', hhead, hhead', hmax, .inr hmin⟩

theorem RegistersOk.withCtrl {s : State} (h : RegistersOk s) (v : Word) :
    RegistersOk { s with ctrl := ctrlWritten v } := by
  obtain ⟨-, hrest⟩ := h
  refine ⟨?_, hrest⟩
  rw [ctrlWritten, BitVec.and_assoc]
  exact BitVec.and_zero

/-! Windows outside the transmit buffer. -/

/-- What is written outside the transmit buffer does not reach the line's offer or the worker's frame. -/
theorem StateInv.withBuffers {s : State} (h : StateInv s) {m : Memory} {p : HostPort} {n : Byte}
    (htx : SameWindow s.mem m txBase s.params.maxFrame)
    (hreg : RegistersOk { s with host := p }) (hmem : MemoryOk { s with mem := m, host := p, line.rxLen := n })
    (hn : n.toNat ≤ s.params.rxCap) : StateInv { s with mem := m, host := p, line.rxLen := n } := by
  obtain ⟨-, hdir, hlen, hidx, hoffer⟩ := h.line
  obtain ⟨hvalid, hscan, hdue, hframe, hrest⟩ := h.worker
  refine ⟨h.legal, hreg, hmem, h.tables, h.queues, ⟨hn, hdir, hlen, hidx, ?_⟩, hvalid, hscan, hdue, fun hw => ?_, hrest⟩
  · obtain hnone | ⟨hw, hlt, hbyte⟩ := hoffer
    · exact .inl hnone
    · exact .inr ⟨hw, hlt, hbyte.trans (congrArg some (htx _ (hlt.trans_le hlen)).symm)⟩
  · obtain ⟨hverify, hmin, haddr, hfc, hrelay, hpoll⟩ := hframe hw
    have hbytes : m.readBytes txBase s.worker.txLen.toNat = s.txBytes := htx.readBytes_eq hlen
    have h0 : m.read txBase = s.mem.read txBase := htx 0 (by omega)
    have h1 : m.read (txBase + 1) = s.mem.read (txBase + 1) := htx 1 (by omega)
    refine ⟨?_, hmin, haddr.trans h0.symm, hfc.trans h1.symm, fun hsrc => ?_, hpoll⟩
    · exact (congrArg verify hbytes).trans hverify
    · exact (hrelay hsrc).trans (congrArg some hbytes.symm)

theorem StateInv.setCodecInWord {s : State} (h : StateInv s) (j : Nat) (v : Word) :
    StateInv { s with mem := s.mem.setWindowWord codecInBase s.params.cinBytes j v } := by
  obtain ⟨hwf, hcells, hout, hrx, htx, hverify⟩ := h.memory
  obtain ⟨hapart, hapart', hapart''⟩ := windows_apart h.legal
  obtain ⟨-, -, -, -, -, -, -, -, -, -, hlen, -⟩ := h.registers
  have hwrite : MemWrite s.params s.mem _ := .codecIn j v
  have hsame := sameOutside_setWindowWord hwf codecInBase s.params.cinBytes j v
  have hsameOut : SameWindow s.mem _ codecOutBase s.params.maxFrame := hsame.window (by omega)
  have hsameRx : SameWindow s.mem _ rxBase s.params.rxCap := hsame.window (by omega)
  have hsameTx : SameWindow s.mem _ txBase s.params.maxFrame := hsame.window (by omega)
  refine h.withBuffers hsameTx h.registers ⟨hwrite.wf hwf, hwrite.inWindow hcells, hsameOut.zeros hout,
    hsameRx.zeros hrx, hsameTx.zeros htx, ?_⟩ h.line.1
  exact hverify.imp_right fun hv => (congrArg verify (hsameOut.readBytes_eq hlen)).trans hv

/-- A frame put in `CODEC_OUT` is whole and carries its CRC (R124, R151). -/
theorem StateInv.setCodecOut {s : State} (h : StateInv s) {body : List Byte} (hmin : 4 ≤ body.length)
    (hmax : body.length + 2 ≤ s.params.maxFrame) : StateInv (setCodecOut (frame body) s) := by
  obtain ⟨hwf, hcells, hout, hrx, htx, hverify⟩ := h.memory
  obtain ⟨hapart, hapart', hapart''⟩ := windows_apart h.legal
  obtain ⟨-, ⟨-, hmax255⟩, -⟩ := h.legal
  have hwrite : MemWrite s.params s.mem _ := .codecOut (frame body)
  have hsame := sameOutside_setWindow hwf codecOutBase s.params.maxFrame (frame body)
  have hsameRx : SameWindow s.mem _ rxBase s.params.rxCap := hsame.window (by omega)
  have hsameTx : SameWindow s.mem _ txBase s.params.maxFrame := hsame.window (by omega)
  have hlen : (BitVec.ofNat 8 (frame body).length).toNat = (frame body).length := by
    rw [BitVec.toNat_ofNat, length_frame, Nat.mod_eq_of_lt (by omega)]
  have hfits : (frame body).length ≤ s.params.maxFrame := by rwa [length_frame]
  refine h.withBuffers hsameTx (h.registers.withOutLen (hlen.trans_le hfits) ?_) ⟨hwrite.wf hwf,
    hwrite.inWindow hcells, fun k hk hlo => ?_, hsameRx.zeros hrx, hsameTx.zeros htx, .inr ?_⟩ h.line.1
  · rw [hlen, length_frame]
    omega
  · exact zeroFrom_setWindow hwf codecOutBase s.params.maxFrame (frame body) k (hlen ▸ hlo) hk
  · have hbytes : State.codecOut (Machine.setCodecOut (frame body) s) = frame body :=
      (congrArg (Memory.readBytes _ codecOutBase) hlen).trans (Memory.readBytes_setWindow hwf _ _ _ hfits)
    exact (congrArg verify hbytes).trans (everyFrameVerifies body)

/-- Below a bound of one byte a length register does not wrap. -/
theorem toNat_succ_of_lt {b : Byte} {n : Nat} (h : b.toNat < n) (hn : n ≤ 255) : (b + 1).toNat = b.toNat + 1 :=
  BitVec.toNat_add_of_lt (Nat.lt_succ_of_le (h.trans_le hn))

theorem StateInv.rxByte {s : State} (h : StateInv s) (hlen : s.line.rxLen.toNat < s.params.rxCap) (b : Byte) :
    StateInv { s with mem := s.mem.write (rxBase + s.line.rxLen.toNat) b, line.rxLen := s.line.rxLen + 1 } := by
  obtain ⟨hwf, hcells, hout, hrx, htx, hverify⟩ := h.memory
  obtain ⟨hapart, hapart', hapart''⟩ := windows_apart h.legal
  obtain ⟨-, -, ⟨-, hcap⟩, -⟩ := h.legal
  obtain ⟨-, -, -, -, -, -, -, -, -, -, hout', -⟩ := h.registers
  have hwrite : MemWrite s.params s.mem _ := .rxByte _ hlen b
  have hsame := sameOutside_rxByte hwf hlen b
  have hsameOut : SameWindow s.mem _ codecOutBase s.params.maxFrame := hsame.window (by omega)
  have hsameTx : SameWindow s.mem _ txBase s.params.maxFrame := hsame.window (by omega)
  have hnext : (s.line.rxLen + 1).toNat = s.line.rxLen.toNat + 1 := toNat_succ_of_lt hlen hcap
  refine h.withBuffers hsameTx h.registers ⟨hwrite.wf hwf, hwrite.inWindow hcells, hsameOut.zeros hout,
    fun k (hk : k < s.params.rxCap) (hlo : (s.line.rxLen + 1).toNat ≤ k) => ?_, hsameTx.zeros htx, ?_⟩ (hnext.trans_le hlen)
  · rw [Memory.read_write hwf, if_neg (by omega)]
    exact hrx k hk (by omega)
  · exact hverify.imp_right fun hv => (congrArg verify (hsameOut.readBytes_eq hout')).trans hv

theorem StateInv.rxClear {s : State} (h : StateInv s) : StateInv (rxClear s) := by
  obtain ⟨hwf, hcells, hout, hrx, htx, hverify⟩ := h.memory
  obtain ⟨hapart, hapart', hapart''⟩ := windows_apart h.legal
  obtain ⟨-, -, -, -, -, -, -, -, -, -, hlen, -⟩ := h.registers
  have hwrite : MemWrite s.params s.mem _ := .rxClear
  obtain ⟨hzero, hsame⟩ := rxClear_frame hwf
  have hsameOut : SameWindow s.mem _ codecOutBase s.params.maxFrame := hsame.window (by omega)
  have hsameTx : SameWindow s.mem _ txBase s.params.maxFrame := hsame.window (by omega)
  refine h.withBuffers hsameTx h.registers ⟨hwrite.wf hwf, hwrite.inWindow hcells, hsameOut.zeros hout,
    fun k hk hlo => hzero k hlo hk, hsameTx.zeros htx, ?_⟩ (Nat.zero_le _)
  exact hverify.imp_right fun hv => (congrArg verify (hsameOut.readBytes_eq hlen)).trans hv

/-! The other agents. -/

/-- The ports and the time are no part of the invariant. -/
theorem StateInv.withPorts {s : State} (h : StateInv s) (p : Ports) : StateInv { s with ports := p } :=
  ⟨h.legal, h.registers, h.memory, h.tables, h.queues, h.line, h.worker⟩

theorem StateInv.dropInput {s : State} (h : StateInv s) (rest : List Input) : StateInv (dropInput rest s) :=
  h.withPorts _

theorem StateInv.clockStep {s : State} (h : StateInv s) : StateInv (clockStep s) :=
  ⟨h.legal, h.registers, h.memory, h.tables, h.queues, h.line, h.worker⟩

theorem StateInv.hostRead {s : State} (h : StateInv s) (addr : Addr) (size : Nat) :
    StateInv (hostRead addr size s) := by
  unfold Machine.hostRead
  split
  · exact h.withPorts _
  · exact h.withPorts _

theorem StateInv.rxStep {s : State} (h : StateInv s) (b : Byte) : StateInv (rxStep b s) := by
  obtain ⟨hlen, he⟩ | ⟨-, he⟩ := rxStep_cases b s
  · exact he.symm ▸ h.rxByte hlen b
  · exact he.symm ▸ h

/-- An answer is one to a byte inside the frame, so the index stays inside it (R256). -/
theorem StateInv.answerStep {s : State} (h : StateInv s) (ho : s.line.txOffer ≠ none) (ok : Bool) :
    StateInv (answerStep ok s) := by
  obtain ⟨hrx, hdir, hlen, hidx, hoffer⟩ := h.line
  obtain ⟨-, hlt, -⟩ := hoffer.resolve_left ho
  have hnext : (s.worker.txIdx + 1).toNat = s.worker.txIdx.toNat + 1 :=
    toNat_succ_of_lt hlt (Nat.le_of_lt_succ s.worker.txLen.isLt)
  exact ⟨h.legal, h.registers, h.memory, h.tables, h.queues,
    ⟨hrx, hdir, hlen, fun _ => hnext.trans_le hlt, .inl rfl⟩, h.worker⟩

theorem StateInv.raise {s : State} (h : StateInv s) (c : ErrCode) (op : Byte) : StateInv (raise c op s) := by
  have hreg := h.registers.raise c op
  obtain ⟨-, he⟩ | ⟨-, he⟩ := raise_cases c op s
  · exact he.symm ▸ h
  · rw [he] at hreg ⊢
    exact ⟨h.legal, hreg, h.memory, h.tables, h.queues, h.line, h.worker⟩

theorem StateInv.storeReg {s : State} (h : StateInv s) (r : Reg) (v : Word) : StateInv (storeReg r v s) := by
  obtain ⟨hstaged, htables⟩ := h.tables
  have hset (i : Nat) (d : StagedDevice) : StateInv (setStaged i d s) :=
    ⟨h.legal, h.registers, h.memory, ⟨List.length_set.trans hstaged, htables⟩, h.queues, h.line, h.worker⟩
  cases r with
  | ctrl => exact ⟨h.legal, h.registers.withCtrl v, h.memory, h.tables, h.queues, h.line, h.worker⟩
  | codecIn j => exact h.setCodecInWord j v
  | devsAf i => exact hset i _
  | devsReg i => exact hset i _
  | devsCyc i => exact hset i _
  | _ => exact ⟨h.legal, h.registers, h.memory, h.tables, h.queues, h.line, h.worker⟩

/-! Reset (R331). -/

theorem StateInv.resetWith {p : Params} (hp : p.Legal) (ports : Ports) : StateInv (State.resetWith p ports) where
  legal := hp
  registers := ⟨BitVec.zero_and, BitVec.zero_and, Nat.zero_le _, BitVec.zero_and, Nat.zero_le _,
    .inr BitVec.extractLsb'_zero, BitVec.zero_and, Nat.zero_le _, BitVec.zero_and, Nat.zero_le _, Nat.zero_le _,
    .inl rfl⟩
  memory := ⟨rfl, nofun, fun _ _ _ => rfl, fun _ _ _ => rfl, fun _ _ _ => rfl, .inl rfl⟩
  tables := ⟨List.length_replicate, List.length_replicate, List.length_replicate, List.length_replicate,
    Nat.zero_le _, nofun, nofun, fun _ => ⟨rfl, rfl, rfl⟩⟩
  queues := ⟨Nat.zero_le _, nofun, Nat.zero_le _, nofun⟩
  line := ⟨Nat.zero_le _, iff_of_false nofun nofun, Nat.zero_le _, nofun, .inl rfl⟩
  worker := by
    refine ⟨.inr rfl, Nat.zero_le _, nofun, nofun, .inl rfl, fun i _ hi => ?_, fun i _ hi => ?_⟩
    · cases (devState_resetWith p ports i).symm.trans hi
    · cases (devState_resetWith p ports i).symm.trans hi

/-- Settles O52: the default parameters are legal. -/
theorem resetMeetsTheInvariant : Obligations.ResetMeetsTheInvariant :=
  ⟨StateInv.resetWith (by decide) Ports.quiet, fun _ ports hp => StateInv.resetWith hp ports⟩

end Sys2Proof.Machine
end

section
/-! The invariant under the commands (R146 to R156, R190, R210, R211, R233, R294, R296). -/

namespace Sys2Proof.Machine

/-! `CFG_COMMIT`. -/

theorem clampMs_bounds (x : Nat) :
    5 ≤ (BitVec.ofNat 16 (clampMs x)).toNat ∧ (BitVec.ofNat 16 (clampMs x)).toNat ≤ 10000 := by
  rw [toNat_ofNat_clampMs]
  omega

theorem newIfs_bounds (s : State) :
    5 ≤ (BitVec.ofNat 16 s.newIfs).toNat ∧ (BitVec.ofNat 16 s.newIfs).toNat ≤ 10000 := by
  unfold State.newIfs
  split <;> exact clampMs_bounds _

theorem newTimeout_bounds (s : State) :
    5 ≤ (BitVec.ofNat 16 s.newTimeout).toNat ∧ (BitVec.ofNat 16 s.newTimeout).toNat ≤ 10000 := by
  unfold State.newTimeout
  split <;> exact clampMs_bounds _

/-- The checks of a commit give the new tables their bounds (R210, R211, R214). -/
theorem tablesOk_acceptCommit {s : State} (h : TablesOk s) (hcheck : s.commitCheck = none) :
    TablesOk (acceptCommit s) := by
  obtain ⟨hstaged, -⟩ := h
  have hpass := passes_of_commitCheck hstaged hcheck
  refine ⟨hstaged, (List.length_map _).trans hstaged, List.length_replicate, List.length_replicate, hpass .count,
    fun i hi => ?_, fun _ => ⟨newIfs_bounds s, newTimeout_bounds s⟩, nofun⟩
  rw [device_acceptCommit]
  exact hpass .functionCode i hi

/-- A commit reaches the worker's context in no way: its devices become `Idle`, and `restart` is read at a boundary only
(R216). -/
theorem workerOk_acceptCommit {s : State} (h : WorkerOk s) : WorkerOk (acceptCommit s) := by
  obtain ⟨-, hscan, hdue, hframe, hdev, -⟩ := h
  refine ⟨.inl rfl, hscan, hdue, hframe, hdev, fun i _ hi => ?_, fun i _ hi => ?_⟩
  · cases (devState_acceptCommit s i).symm.trans hi
  · cases (devState_acceptCommit s i).symm.trans hi

theorem StateInv.acceptCommit {s : State} (h : StateInv s) (hcheck : s.commitCheck = none) :
    StateInv (acceptCommit s) :=
  ⟨h.legal, h.registers.withCfgStatus BitVec.zero_and (Nat.zero_le _) (.inr BitVec.extractLsb'_zero), h.memory,
    tablesOk_acceptCommit h.tables hcheck, h.queues, h.line, workerOk_acceptCommit h.worker⟩

theorem StateInv.rejectCommit {s : State} (h : StateInv s) {why : CfgReason} {idx : Nat}
    (hcheck : s.commitCheck = some (why, idx)) : StateInv (rejectCommit why idx s) := by
  obtain ⟨hstaged, -⟩ := h.tables
  obtain ⟨hreason, hseven, hindex⟩ := cfgStatus_reason why idx
  have hidx : (fieldAt 8 (BitVec.ofNat 8 idx) ||| why.number).extractLsb' 0 4 = 7 ∨
      (fieldAt 8 (BitVec.ofNat 8 idx) ||| why.number).extractLsb' 8 8 = 0 := by
    obtain ⟨hnone, -⟩ | ⟨why', idx', hsome, -, -, hzero, -⟩ := commitCheck_cases hstaged
    · cases hnone.symm.trans hcheck
    · obtain ⟨rfl, rfl⟩ : why' = why ∧ idx' = idx := by simpa using hsome.symm.trans hcheck
      by_cases hwhy : why' = .functionCode
      · exact .inl (hseven hwhy)
      · exact .inr (hindex.trans (congrArg (BitVec.ofNat 8) (hzero hwhy)))
  have hstatus : StateInv { s with host.cfgStatus := fieldAt 8 (BitVec.ofNat 8 idx) ||| why.number } :=
    ⟨h.legal, h.registers.withCfgStatus (cfgStatus_and_mask why idx) hreason hidx, h.memory, h.tables, h.queues, h.line,
      h.worker⟩
  exact hstatus.raise _ _

/-! `RELAY_PUSH` and `EVT_POP`. -/

/-- The frame pushed is whole and carries its CRC; a relay frame in transmission is still the head (R231, R234). -/
theorem StateInv.relayPush {s : State} (h : StateInv s) (h0 : s.host.outLen ≠ 0)
    (hroom : relayUsed s.relayQ + 1 + s.host.outLen.toNat ≤ s.params.relayQBytes) :
    StateInv { s with relayQ := s.relayQ ++ [s.codecOut], host.enqFail := false } := by
  obtain ⟨hused, hframes, hevents⟩ := h.queues
  obtain ⟨-, -, -, -, -, -, -, -, -, -, hmax, hmin⟩ := h.registers
  obtain ⟨-, -, -, -, -, hverify⟩ := h.memory
  obtain ⟨hvalid, hscan, hdue, hframe, hrest⟩ := h.worker
  have hlen := length_codecOut s
  refine ⟨h.legal, h.registers, h.memory, h.tables, ⟨?_, fun f hf => ?_, hevents⟩, h.line, hvalid, hscan, hdue,
    fun hw => ?_, hrest⟩
  · rw [relayUsed_append, hlen, ← Nat.add_assoc]
    exact hroom
  · obtain hf | hf := List.mem_append.mp hf
    · exact hframes f hf
    · obtain rfl := List.mem_singleton.mp hf
      exact ⟨hlen.symm ▸ hmin.resolve_left h0, hlen.symm ▸ hmax, hverify.resolve_left h0⟩
  · obtain ⟨hv, hsix, haddr, hfc, hrelay, hpoll⟩ := hframe hw
    refine ⟨hv, hsix, haddr, hfc, fun hsrc => ?_, hpoll⟩
    rw [List.head?_append, hrelay hsrc]
    rfl

/-- A new FIFO within its depth, of consistent events (R47, R121, R122). -/
theorem StateInv.withEvents {s : State} (h : StateInv s) {q : List Event} (ovf : Bool)
    (hlen : q.length ≤ s.params.evtDepth) (hq : ∀ e ∈ q, e.kind = e.cls.eventKind ∧ e.subch = 0) :
    StateInv { s with evtQ := q, evtOvf := ovf } := by
  obtain ⟨hused, hframes, -⟩ := h.queues
  exact ⟨h.legal, h.registers, h.memory, h.tables, ⟨hused, hframes, hlen, hq⟩, h.line, h.worker⟩

theorem StateInv.evtPop {s : State} (h : StateInv s) {e : Event} {q : List Event} (hq : s.evtQ = e :: q) :
    StateInv { s with evtQ := q, host.evtHead0 := e.head0, host.evtHead1 := e.head1, host.evtHead2 := e.val } := by
  obtain ⟨-, -, hlen, hevents⟩ := h.queues
  rw [hq] at hlen hevents
  obtain ⟨-, hsub⟩ := hevents e List.mem_cons_self
  have hpopped := h.withEvents s.evtOvf (Nat.le_of_succ_le hlen) fun e he => hevents e (List.mem_cons_of_mem _ he)
  exact ⟨h.legal, h.registers.withEvtHead (Event.head0_and_mask hsub) e.head1_le, h.memory, h.tables, hpopped.queues,
    h.line, h.worker⟩

/-! All commands. -/

/-- A frame that a command builds fits `CODEC_OUT`: that of `BUILD_READ` fits every legal `MAX_FRAME`. -/
theorem length_add_two_le {p : Params} (hp : p.Legal) {body : List Byte}
    (h : body.length + 2 ≤ p.maxFrame ∨ body.length = 6) : body.length + 2 ≤ p.maxFrame := by
  obtain ⟨-, ⟨hmin, -⟩, -⟩ := hp
  omega

theorem StateInv.commandMove {s t : State} {i : Instr} (h : StateInv s) (hmove : CommandMove s i t) : StateInv t := by
  cases hmove with
  | raised c op => exact h.raise c op
  | build hi body hmin hmax => exact h.setCodecOut hmin (length_add_two_le h.legal hmax)
  | classify n c v =>
    exact ⟨h.legal, h.registers.withCls n s.argFc c v, h.memory, h.tables, h.queues, h.line, h.worker⟩
  | push h0 hroom => exact h.relayPush h0 hroom
  | accept hcheck => exact h.acceptCommit hcheck
  | reject hcheck => exact h.rejectCommit hcheck
  | popEmpty hq =>
    exact ⟨h.legal, h.registers.withEvtHead BitVec.zero_and (Nat.zero_le _), h.memory, h.tables, h.queues, h.line,
      h.worker⟩
  | pop hq => exact h.evtPop hq
  | clrErr =>
    exact ⟨h.legal, h.registers.withErr BitVec.zero_and (Nat.zero_le _), h.memory, h.tables, h.queues, h.line, h.worker⟩
  | _ => exact ⟨h.legal, h.registers, h.memory, h.tables, h.queues, h.line, h.worker⟩

end Sys2Proof.Machine
end

section
/-! The invariant under the worker's steps (R219 to R223, R245 to R268): between frames no device is `Due` or `Polling`;
within a transaction the frame, its context and its place in the queue stay. -/

namespace Sys2Proof.Machine

/-! Between frames. -/

/-- The states of the loop in which no frame and no due device is under way. -/
def WorkerState.betweenFrames (w : WorkerState) : Bool := !w.inTransaction && w != .wDue

theorem WorkerState.facts_of_betweenFrames {w : WorkerState} (h : w.betweenFrames = true) :
    w.inTransaction = false ∧ w ≠ .wDue ∧ w ≠ .cTx := by
  revert h
  cases w <;> decide

/-- The frame boundaries are such states (R245). -/
theorem WorkerState.betweenFrames_of_boundary {w : WorkerState} (h : w ∈ [.wPass, .wScan, .wDrain, .wRwait]) :
    w.betweenFrames = true := by
  revert h
  cases w <;> decide

/-- No poll is under way: the context names no device, and every device is `Idle`. -/
def State.Quiet (s : State) : Prop := s.worker.ctx.dev = 0xFF ∧ ∀ i < s.params.nDev, s.devState i = .idle

theorem DevState.eq_idle {d : DevState} (hdue : d ≠ .due) (hpolling : d ≠ .polling) : d = .idle := by
  cases d with
  | idle => rfl
  | due => exact absurd rfl hdue
  | polling => exact absurd rfl hpolling

theorem WorkerOk.quiet {s : State} (h : WorkerOk s) (hw : s.worker.ws.betweenFrames = true) : s.Quiet := by
  obtain ⟨-, -, -, -, hdev, hdue, hpolling⟩ := h
  obtain ⟨htrans, hnotDue, -⟩ := WorkerState.facts_of_betweenFrames hw
  refine ⟨hdev.resolve_right fun ⟨ht, _⟩ => by simp [htrans] at ht, fun i hi => DevState.eq_idle ?_ ?_⟩
  · exact fun hd => hnotDue (hdue i hi hd).1
  · intro hp
    obtain ⟨ht, -⟩ := hpolling i hi hp
    simp [htrans] at ht

theorem State.Quiet.workerOk {s : State} (h : s.Quiet) (hw : s.worker.ws.betweenFrames = true)
    (hvalid : s.cfgValid = true ∨ s.worker.ws = .wIdle) (hscan : s.worker.scanI.toNat ≤ s.params.nDev) :
    WorkerOk s := by
  obtain ⟨hdev, hidle⟩ := h
  obtain ⟨htrans, hnotDue, -⟩ := WorkerState.facts_of_betweenFrames hw
  refine ⟨hvalid, hscan, fun hd => absurd hd hnotDue, fun ht => ?_, .inl hdev, fun i hi hd => ?_, fun i hi hp => ?_⟩
  · simp [htrans] at ht
  · cases (hidle i hi).symm.trans hd
  · cases (hidle i hi).symm.trans hp

/-- Outside `C_TX` the line receives and offers nothing (R274). -/
theorem LineOk.quiet {s : State} (h : LineOk s) (hw : s.worker.ws ≠ .cTx) :
    s.line.dir = false ∧ s.line.txOffer = none := by
  obtain ⟨-, hdir, -, -, hoffer⟩ := h
  exact ⟨Bool.eq_false_iff.mpr fun hd => hw (hdir.mp hd), hoffer.resolve_right fun ⟨hw', _⟩ => hw hw'⟩

/-- The line of a worker outside `C_TX`, whatever its control state, its indices and the buffers. -/
theorem LineOk.withWorker {s : State} (h : LineOk s) (hw : s.worker.ws ≠ .cTx) {w : Worker} {m : Memory}
    (hw' : w.ws ≠ .cTx) (hlen : w.txLen.toNat ≤ s.params.maxFrame) : LineOk { s with worker := w, mem := m } := by
  obtain ⟨hdir, hoffer⟩ := h.quiet hw
  obtain ⟨hrx, -⟩ := h
  exact ⟨hrx, iff_of_false (Bool.eq_false_iff.mp hdir) hw', hlen, fun h => absurd h hw', .inl hoffer⟩

/-- Outside `W_IDLE` a configuration is committed. -/
theorem WorkerOk.cfgValid {s : State} (h : WorkerOk s) (hw : s.worker.ws ≠ .wIdle) : s.cfgValid = true :=
  h.1.resolve_right hw

/-- A move of the loop that keeps the context and the frame length; only with a configuration does it leave `W_IDLE`. -/
theorem StateInv.loopMove {s : State} (h : StateInv s) (hw : s.worker.ws.betweenFrames = true) {w : Worker}
    (hw' : w.ws.betweenFrames = true) (hidle : s.worker.ws = .wIdle → s.cfgValid = true)
    (hscan : w.scanI.toNat ≤ s.params.nDev) (hctx : w.ctx = s.worker.ctx) (hlen : w.txLen = s.worker.txLen) :
    StateInv { s with worker := w } := by
  obtain ⟨-, -, hmax, -⟩ := h.line
  obtain ⟨hwf, hcells, hout, hrx, htx, hverify⟩ := h.memory
  obtain ⟨-, -, hnotTx⟩ := WorkerState.facts_of_betweenFrames hw
  obtain ⟨-, -, hnotTx'⟩ := WorkerState.facts_of_betweenFrames hw'
  obtain ⟨hdev, hstates⟩ := h.worker.quiet hw
  have hquiet : State.Quiet { s with worker := w } := ⟨(congrArg Context.dev hctx).trans hdev, hstates⟩
  have hvalid : s.cfgValid = true := by
    by_cases he : s.worker.ws = .wIdle
    · exact hidle he
    · exact h.worker.cfgValid he
  exact ⟨h.legal, h.registers, ⟨hwf, hcells, hout, hrx, hlen.symm ▸ htx, hverify⟩, h.tables, h.queues,
    h.line.withWorker hnotTx hnotTx' (hlen.symm ▸ hmax), hquiet.workerOk hw' (.inl hvalid) hscan⟩

/-- The scan goes on inside the active table (R220). -/
theorem StateInv.scanNext {s : State} (h : StateInv s) (hw : s.worker.ws = .wScan)
    (hi : s.worker.scanI.toNat < s.active.count.toNat) :
    StateInv { s with worker.scanI := s.worker.scanI + 1 } := by
  obtain ⟨-, -, -, -, hcount, -⟩ := h.tables
  have hnext : (s.worker.scanI + 1).toNat = s.worker.scanI.toNat + 1 :=
    toNat_succ_of_lt hi (Nat.le_of_lt_succ s.active.count.isLt)
  exact h.loopMove (hw ▸ rfl) (hw ▸ rfl) (fun he => nomatch hw.symm.trans he)
    (hnext.trans_le (hi.trans_le hcount)) rfl rfl

/-! Within a transaction. -/

/-- A move of a transaction that keeps the context, but for the attempt, and the frame length. -/
theorem StateInv.transactionMove {s : State} (h : StateInv s) (hw : s.worker.ws.inTransaction = true) {w : Worker}
    {l : Line} (hw' : w.ws.inTransaction = true) (hscan : w.scanI = s.worker.scanI)
    (hctx : w.ctx = { s.worker.ctx with attempt := w.ctx.attempt }) (hlen : w.txLen = s.worker.txLen)
    (hrx : l.rxLen = s.line.rxLen) (hline : LineOk { s with worker := w, line := l }) :
    StateInv { s with worker := w, line := l } := by
  have hdev : w.ctx.dev = s.worker.ctx.dev := by rw [hctx]
  have hsrc : w.ctx.src = s.worker.ctx.src := by rw [hctx]
  have haddr : w.ctx.reqAddr = s.worker.ctx.reqAddr := by rw [hctx]
  have hfc : w.ctx.reqFc = s.worker.ctx.reqFc := by rw [hctx]
  have hnotDue (w' : WorkerState) (h : w'.inTransaction = true) : w' ≠ .wDue := fun he => by
    rw [he] at h
    cases h
  obtain ⟨hwf, hcells, hout, hzero, htx, hverify⟩ := h.memory
  have hvalid := h.worker.cfgValid fun he => by
    rw [he] at hw
    cases hw
  obtain ⟨-, hscan', -, hframe, hctxDev, hdue, hpolling⟩ := h.worker
  refine ⟨h.legal, h.registers, ⟨hwf, hcells, hout, hrx.symm ▸ hzero, hlen.symm ▸ htx, hverify⟩, h.tables, h.queues,
    hline, .inl hvalid, hscan.symm ▸ hscan', fun he => absurd he (hnotDue _ hw'), fun _ => ?_, ?_, ?_, ?_⟩
  · simpa only [State.txBytes, hlen, haddr, hfc, hsrc, hdev] using hframe hw
  · exact hctxDev.imp hdev.trans fun ⟨_, hpoll⟩ => ⟨hw', hsrc.trans hpoll⟩
  · exact fun i hi hd => absurd (hdue i hi hd).1 (hnotDue _ hw)
  · intro i hi hp
    obtain ⟨-, hpoll, hi'⟩ := hpolling i hi hp
    exact ⟨hw', hsrc.trans hpoll, (congrArg BitVec.toNat hdev).trans hi'⟩

theorem StateInv.startStep {s : State} (h : StateInv s) (hw : s.worker.ws = .cStart) : StateInv (startStep s) := by
  obtain ⟨-, -, hmax, -⟩ := h.line
  obtain ⟨-, hoffer⟩ := h.line.quiet (by simp [hw])
  have hclear := h.rxClear
  exact hclear.transactionMove (hw ▸ rfl) rfl rfl rfl rfl rfl
    ⟨Nat.zero_le _, iff_of_true rfl rfl, hmax, fun _ => Nat.zero_le _, .inl hoffer⟩

theorem StateInv.offerStep {s : State} (h : StateInv s) (hw : s.worker.ws = .cTx)
    (hi : s.worker.txIdx < s.worker.txLen) : StateInv (offerStep s) := by
  obtain ⟨hrx, hdir, hmax, hidx, -⟩ := h.line
  have hoffered : StateInv { s with line.txOffer := some s.nextTxByte } :=
    h.transactionMove (hw ▸ rfl) (hw ▸ rfl) rfl rfl rfl rfl
      ⟨hrx, hdir, hmax, hidx, .inr ⟨hw, hi, rfl⟩⟩
  exact hoffered.withPorts _

theorem StateInv.switchStep {s : State} (h : StateInv s) (hw : s.worker.ws = .cTx) (ho : s.line.txOffer = none) :
    StateInv (switchStep s) := by
  obtain ⟨hrx, -, hmax, -⟩ := h.line
  exact h.transactionMove (hw ▸ rfl) rfl rfl rfl rfl rfl
    ⟨hrx, iff_of_false nofun nofun, hmax, nofun, .inl ho⟩

/-- A move of a transaction after its transmission. -/
theorem StateInv.receiveMove {s : State} (h : StateInv s) (hw : s.worker.ws.inTransaction = true)
    (hnot : s.worker.ws ≠ .cTx) {w : Worker} (hw' : w.ws.inTransaction = true) (hnot' : w.ws ≠ .cTx)
    (hscan : w.scanI = s.worker.scanI) (hctx : w.ctx = { s.worker.ctx with attempt := w.ctx.attempt })
    (hlen : w.txLen = s.worker.txLen) : StateInv { s with worker := w } := by
  obtain ⟨-, -, hmax, -⟩ := h.line
  exact h.transactionMove hw hw' hscan hctx hlen rfl (h.line.withWorker hnot hnot' (hlen.symm ▸ hmax))

/-- Publishing appends a consistent event to a FIFO with room, or sets the overflow flag (R121, R122, R268). -/
theorem StateInv.publishEvents {s : State} (h : StateInv s) :
    StateInv { s with evtQ := (publish s.classified).evtQ, evtOvf := (publish s.classified).evtOvf } := by
  obtain ⟨-, -, hlen, hevents⟩ := h.queues
  obtain ⟨-, -, he⟩ | ⟨-, he⟩ := publish_cases s.classified
  · rw [he]
    exact h
  · obtain ⟨hroom, he'⟩ | ⟨-, he'⟩ := emit_cases s.classified.attemptEvent s.classified
    · rw [he, he']
      refine h.withEvents _ (List.length_append.trans_le hroom) fun e hmem => ?_
      obtain hmem | hmem := List.mem_append.mp hmem
      · exact hevents e hmem
      · obtain rfl := List.mem_singleton.mp hmem
        exact ⟨rfl, rfl⟩
    · rw [he, he']
      exact h.withEvents true hlen hevents

theorem StateInv.classifyStep {s : State} (h : StateInv s) (hw : s.worker.ws = .cRxwait) :
    StateInv (classifyStep s) := by
  rw [classifyStep_eq]
  exact h.publishEvents.receiveMove (hw ▸ rfl) (by simp [hw]) rfl nofun rfl rfl rfl

/-! Into a transaction. -/

theorem devState_setDevState {s : State} {i : Nat} (hi : i < s.sched.devStates.length) (d : DevState) (j : Nat) :
    (setDevState i d s).devState j = if j = i then d else s.devState j := by
  split
  · rename_i hj
    rw [hj, devState_setDevState_self hi]
  · rename_i hj
    exact devState_setDevState_of_ne hj d s

theorem TablesOk.withSched {s : State} (h : TablesOk s) {d : Schedule} (hdl : d.deadlines.length = s.params.nDev)
    (hst : d.devStates.length = s.params.nDev) : TablesOk { s with sched := d } := by
  obtain ⟨hstaged, hdevs, -, -, hrest⟩ := h
  exact ⟨hstaged, hdevs, hdl, hst, hrest⟩

/-- Outside a transaction the transmit buffer may be loaded with any frame that fits (R44). -/
theorem StateInv.loadTx {s : State} (h : StateInv s) (hw : s.worker.ws.inTransaction = false) {f : List Byte}
    (hf : f.length ≤ s.params.maxFrame) : StateInv (loadTx f s) := by
  obtain ⟨hwf, hcells, hout, hrx, htx, hverify⟩ := h.memory
  obtain ⟨hapart, hapart', hapart''⟩ := windows_apart h.legal
  obtain ⟨-, ⟨-, hmax⟩, -⟩ := h.legal
  obtain ⟨-, -, -, -, -, -, -, -, -, -, hlen, -⟩ := h.registers
  have hwrite : MemWrite s.params s.mem _ := .tx f
  obtain ⟨-, hzero, hsame⟩ := loadTx_frame hwf hf
  have hsameOut : SameWindow s.mem _ codecOutBase s.params.maxFrame := hsame.window (by omega)
  have hsameRx : SameWindow s.mem _ rxBase s.params.rxCap := hsame.window (by omega)
  have htxLen : (BitVec.ofNat 8 f.length).toNat = f.length := by
    rw [BitVec.toNat_ofNat, Nat.mod_eq_of_lt (by omega)]
  have hnot : s.worker.ws ≠ .cTx := fun he => by
    rw [he] at hw
    cases hw
  have hmem : MemoryOk (Machine.loadTx f s) := by
    refine ⟨hwrite.wf hwf, hwrite.inWindow hcells, hsameOut.zeros hout, hsameRx.zeros hrx, fun k hk hlo => ?_, ?_⟩
    · exact hzero k (htxLen ▸ hlo) hk
    · exact hverify.imp_right fun hv => (congrArg verify (hsameOut.readBytes_eq hlen)).trans hv
  have hline : LineOk (Machine.loadTx f s) := h.line.withWorker hnot hnot (htxLen.trans_le hf)
  obtain ⟨hvalid, hscan, hdue, -, hrest⟩ := h.worker
  refine ⟨h.legal, h.registers, hmem, h.tables, h.queues, hline, hvalid, hscan, hdue, fun ht => ?_, hrest⟩
  cases hw.symm.trans ht

/-- The transmit buffer holds the frame it was loaded with. -/
theorem txBytes_loadTx {s : State} (hp : s.params.Legal) (hm : s.mem.wf = true) {f : List Byte}
    (hf : f.length ≤ s.params.maxFrame) :
    (loadTx f s).worker.txLen.toNat = f.length ∧ (loadTx f s).txBytes = f := by
  obtain ⟨-, ⟨-, hmax⟩, -⟩ := hp
  have hlen : (loadTx f s).worker.txLen.toNat = f.length := by
    rw [loadTx_worker, BitVec.toNat_ofNat, Nat.mod_eq_of_lt (by omega)]
  exact ⟨hlen, (congrArg (Memory.readBytes _ txBase) hlen).trans (Memory.readBytes_setWindow hm _ _ _ hf)⟩

theorem read_loadTx {s : State} (hm : s.mem.wf = true) {f : List Byte} (hf : f.length ≤ s.params.maxFrame) {k : Nat}
    (hk : k < f.length) : (loadTx f s).mem.read (txBase + k) = f.getD k 0 := (loadTx_frame hm hf).1 k hk

/-- `W_DRAIN`: the head frame, whole, with the context of a relay frame (R234, R247). -/
theorem StateInv.loadRelay {s : State} (h : StateInv s) (hw : s.worker.ws = .wDrain) {f : List Byte}
    {q : List (List Byte)} (hq : s.relayQ = f :: q) : StateInv (loadRelay f s) := by
  obtain ⟨-, hframes, -⟩ := h.queues
  obtain ⟨hsix, hmax, hverify⟩ := hframes f (hq ▸ List.mem_cons_self)
  have hwf := h.memory.1
  have hloaded := h.loadTx (hw ▸ rfl) hmax
  obtain ⟨hlen, hbytes⟩ := txBytes_loadTx h.legal hwf hmax
  have hread {k : Nat} (hk : k < f.length) := read_loadTx hwf hmax hk
  obtain ⟨-, hidle⟩ := h.worker.quiet (hw ▸ rfl)
  have hvalid := h.worker.cfgValid (by simp [hw])
  obtain ⟨-, hscan, -⟩ := h.worker
  obtain ⟨-, -, hmax', -⟩ := hloaded.line
  refine ⟨h.legal, h.registers, hloaded.memory, h.tables, h.queues,
    hloaded.line.withWorker (by simp [hw]) nofun hmax', .inl hvalid, hscan, nofun, fun _ => ?_, .inl rfl,
    fun i hi hd => ?_, fun i hi hp => ?_⟩
  · refine ⟨(congrArg verify hbytes).trans hverify, hsix.trans_eq hlen.symm, (hread (by omega)).symm,
      (hread (by omega)).symm, fun _ => ?_, nofun⟩
    exact (congrArg List.head? hq).trans (congrArg some hbytes.symm)
  · cases (hidle i hi).symm.trans hd
  · cases (hidle i hi).symm.trans hp

/-- `W_SCAN` at a due device: it is the one that is `Due` (R39, R221). -/
theorem StateInv.becomeDue {s : State} (h : StateInv s) (hw : s.worker.ws = .wScan)
    (hi : s.worker.scanI.toNat < s.active.count.toNat) : StateInv (becomeDue s.worker.scanI.toNat s) := by
  have hvalid := h.worker.cfgValid (by simp [hw])
  obtain ⟨hdev, hidle⟩ := h.worker.quiet (hw ▸ rfl)
  obtain ⟨-, -, hdl, hst, hcount, -⟩ := h.tables
  obtain ⟨-, -, hmax, -⟩ := h.line
  obtain ⟨-, hscan, -⟩ := h.worker
  have hlt : s.worker.scanI.toNat < s.params.nDev := hi.trans_le hcount
  have hstate := devState_setDevState (hst.symm ▸ hlt) .due
  refine ⟨h.legal, h.registers, h.memory,
    h.tables.withSched (List.length_set.trans hdl) (List.length_set.trans hst), h.queues,
    h.line.withWorker (by simp [hw]) nofun hmax, .inl hvalid, hscan, fun _ => hlt, nofun, .inl hdev,
    fun j hj hd => ⟨rfl, ?_⟩, fun j hj hp => ?_⟩
  · by_contra hne
    have hsame : s.devState j = .due := ((hstate j).trans (if_neg fun he => hne he.symm)).symm.trans hd
    cases (hidle j hj).symm.trans hsame
  · have hpolling := (hstate j).symm.trans hp
    split at hpolling
    · cases hpolling
    · cases (hidle j hj).symm.trans hpolling

/-- `W_DUE`: the request of the due device, whole, with the context of its poll (R222). -/
theorem StateInv.dueStep {s : State} (h : StateInv s) (hw : s.worker.ws = .wDue) : StateInv (dueStep s) := by
  have hvalid := h.worker.cfgValid (by simp [hw])
  obtain ⟨-, hscan, hlt, -, -, hdue, hpolling⟩ := h.worker
  replace hlt := hlt hw
  obtain ⟨-, -, hdl, hst, -⟩ := h.tables
  have hwf := h.memory.1
  have hmax : (pollFrame (s.device s.worker.scanI.toNat)).length ≤ s.params.maxFrame := by
    obtain ⟨-, ⟨hmin, -⟩, -⟩ := h.legal
    exact Nat.le_of_succ_le hmin
  have hloaded := h.loadTx (hw ▸ rfl) hmax
  obtain ⟨hlen, hbytes⟩ := txBytes_loadTx h.legal hwf hmax
  have hread {k : Nat} (hk : k < 8) := read_loadTx hwf hmax (k := k) hk
  obtain ⟨-, -, hmax', -⟩ := hloaded.line
  have hstate := devState_setDevState (hst.symm ▸ hlt) .polling
  refine ⟨h.legal, h.registers, hloaded.memory, h.tables.withSched hdl (List.length_set.trans hst), h.queues,
    hloaded.line.withWorker (by simp [hw]) nofun hmax', .inl hvalid, hscan, nofun, fun _ => ?_, .inr ⟨rfl, rfl⟩,
    fun j hj hd => ?_, fun j hj hp => ⟨rfl, rfl, ?_⟩⟩
  · exact ⟨(congrArg verify hbytes).trans (everyFrameVerifies _), (by decide : 6 ≤ 8).trans_eq hlen.symm,
      (hread (k := 0) (by decide)).symm, (hread (k := 1) (by decide)).symm, nofun, fun _ => ⟨hlt, rfl⟩⟩
  · have hstill := (hstate j).symm.trans hd
    split at hstill
    · cases hstill
    · rename_i hne
      exact absurd (hdue j hj hstill).2.symm hne
  · have hstill := (hstate j).symm.trans hp
    split at hstill
    · rename_i he
      exact he.symm
    · obtain ⟨htrans, -⟩ := hpolling j hj hstill
      rw [hw] at htrans
      cases htrans

/-! Out of a transaction. -/

/-- The return of a poll: its device was the only one not `Idle` (R223). -/
theorem StateInv.pollReturn {s : State} (h : StateInv s) (hw : s.worker.ws = .cEnd)
    (hsrc : s.worker.ctx.src = .poll) : StateInv (pollReturn s) := by
  have hvalid := h.worker.cfgValid (by simp [hw])
  obtain ⟨-, -, -, hframe, -, hdue, hpolling⟩ := h.worker
  obtain ⟨-, -, -, -, -, hpoll⟩ := hframe (hw ▸ rfl)
  obtain ⟨hdev, -⟩ := hpoll hsrc
  obtain ⟨-, -, hdl, hst, -⟩ := h.tables
  obtain ⟨⟨-, hmaxDev⟩, -⟩ := h.legal
  obtain ⟨-, -, hmax, -⟩ := h.line
  have hnext : (s.worker.ctx.dev + 1).toNat = s.worker.ctx.dev.toNat + 1 := toNat_succ_of_lt hdev (by omega)
  have hstate := devState_setDevState (hst.symm ▸ hdev) .idle
  have hquiet : State.Quiet (Machine.pollReturn s) := by
    refine ⟨rfl, fun j hj => (hstate j).trans ?_⟩
    split
    · rfl
    · rename_i hne
      refine DevState.eq_idle (fun hd => ?_) fun hp => hne (hpolling j hj hp).2.2.symm
      cases hw.symm.trans (hdue j hj hd).1
  exact ⟨h.legal, h.registers, h.memory, h.tables.withSched hdl (List.length_set.trans hst), h.queues,
    h.line.withWorker (by simp [hw]) nofun hmax,
    hquiet.workerOk rfl (.inl hvalid) (hnext.trans_le hdev)⟩

theorem relayUsed_tail_le (q : List (List Byte)) : relayUsed q.tail ≤ relayUsed q := by
  cases q with
  | nil => exact le_rfl
  | cons f q => exact Nat.le_add_left ..

/-- The return of a relay frame: no device was under way, and the rest of the queue is as it was (R266). -/
theorem StateInv.relayReturn {s : State} (h : StateInv s) (hw : s.worker.ws = .cEnd)
    (hsrc : s.worker.ctx.src = .relay) : StateInv (relayReturn s) := by
  have hvalid := h.worker.cfgValid (by simp [hw])
  obtain ⟨-, hscan, -, -, hdev, hdue, hpolling⟩ := h.worker
  obtain ⟨hused, hframes, hevents⟩ := h.queues
  obtain ⟨-, -, hmax, -⟩ := h.line
  have hquiet : State.Quiet (Machine.relayReturn s) := by
    refine ⟨hdev.resolve_right fun ⟨_, hpoll⟩ => ?_, fun j hj => DevState.eq_idle (fun hd => ?_) fun hp => ?_⟩
    · cases hsrc.symm.trans hpoll
    · cases hw.symm.trans (hdue j hj hd).1
    · cases hsrc.symm.trans (hpolling j hj hp).2.1
  exact ⟨h.legal, h.registers, h.memory, h.tables,
    ⟨(relayUsed_tail_le _).trans hused, fun f hf => hframes f (List.mem_of_mem_tail hf), hevents⟩,
    h.line.withWorker (by simp [hw]) nofun hmax,
    hquiet.workerOk rfl (.inl hvalid) hscan⟩

/-! The worker, and every step. -/

theorem StateInv.workerMove {s t : State} (h : StateInv s) (hmove : WorkerMove s t) : StateInv t := by
  obtain ⟨-, hscan, -⟩ := h.worker
  cases hmove with
  | leaveIdle hw hrun hvalid => exact h.loopMove (hw ▸ rfl) rfl (fun _ => hvalid) hscan rfl rfl
  | park hw =>
    exact h.loopMove (WorkerState.betweenFrames_of_boundary hw) rfl (fun he => by simp [he] at hw) hscan rfl rfl
  | restart hw =>
    have hboundary := List.mem_cons_of_mem WorkerState.wPass hw
    exact h.loopMove (WorkerState.betweenFrames_of_boundary hboundary) rfl (fun he => by simp [he] at hw) hscan rfl rfl
  | pass hw => exact h.loopMove (hw ▸ rfl) rfl (fun he => nomatch hw.symm.trans he) (Nat.zero_le _) rfl rfl
  | scanEnd hw => exact h.loopMove (hw ▸ rfl) rfl (fun he => nomatch hw.symm.trans he) hscan rfl rfl
  | scanDue hw hi hdue => exact h.becomeDue hw hi
  | scanNext hw hi => exact h.scanNext hw hi
  | due hw => exact h.dueStep hw
  | load hw hq => exact h.loadRelay hw hq
  | shortWait hw => exact h.loopMove (hw ▸ rfl) rfl (fun he => nomatch hw.symm.trans he) hscan rfl rfl
  | drainAgain hw => exact h.loopMove (hw ▸ rfl) rfl (fun he => nomatch hw.symm.trans he) hscan rfl rfl
  | passAgain hw => exact h.loopMove (hw ▸ rfl) rfl (fun he => nomatch hw.symm.trans he) hscan rfl rfl
  | start hw => exact h.startStep hw
  | offer hw hi => exact h.offerStep hw hi
  | switch hw ho => exact h.switchStep hw ho
  | classify hw => exact h.classifyStep hw
  | sample hw => exact h.receiveMove (hw ▸ rfl) (by simp [hw]) (hw ▸ rfl) (by simp [hw]) rfl rfl rfl
  | turn hw => exact h.rxClear.receiveMove (hw ▸ rfl) (by simp [hw]) rfl nofun rfl rfl rfl
  | retry hw => exact h.receiveMove (hw ▸ rfl) (by simp [hw]) rfl nofun rfl rfl rfl
  | pollReturn hw hsrc => exact h.pollReturn hw hsrc
  | relayReturn hw hsrc => exact h.relayReturn hw hsrc

/-- Settles O53: the invariant under the worker, the clock, the host's reads, errors, stores and commands, the receive
line, the transport and reset, one lemma each. -/
theorem everyStepKeepsTheInvariant : Obligations.EveryStepKeepsTheInvariant := by
  intro s t h hstep
  cases stepMove_of_step hstep with
  | worker rest hmove => exact (h.dropInput rest).workerMove hmove
  | tick rest hnone => exact (h.dropInput rest).clockStep
  | read addr size rest => exact (h.dropInput rest).hostRead addr size
  | raised c op rest => exact (h.dropInput rest).raise c op
  | store r v rest hpres => exact (h.dropInput rest).storeReg r v
  | command w rest hpend hdec hmove => exact (h.dropInput rest).commandMove hmove
  | received b rest => exact (h.dropInput rest).rxStep b
  | answered ok rest ho => exact (h.dropInput rest).answerStep ho ok
  | reset rest hpend => exact StateInv.resetWith h.legal _

end Sys2Proof.Machine
end

section
/-! What the worker's steps reach (43_relay.md, 44_cycle_controller.md): the edges of the loop, the schedule, the direction,
and nothing of the host's side. -/

namespace Sys2Proof.Machine

/-! The loop (R249). -/

/-- Settles O38: each move names the state it leaves, and enters one of the successors listed for it. -/
theorem workerFollowsItsLoop : Obligations.WorkerFollowsItsLoop := by
  intro s t h
  cases workerMove_of_workerStep h with
  | park hw =>
    simp only [List.mem_cons, List.not_mem_nil, or_false] at hw
    obtain hw | hw | hw | hw := hw
    all_goals simp [hw]
  | restart hw =>
    simp only [List.mem_cons, List.not_mem_nil, or_false] at hw
    obtain hw | hw | hw := hw
    all_goals simp [hw]
  | leaveIdle hw => simp [hw]
  | pass hw => simp [hw, passStep]
  | scanEnd hw => simp [hw]
  | scanDue hw => simp [hw, becomeDue]
  | scanNext hw => simp [hw]
  | due hw => simp [hw, dueStep]
  | load hw => simp [hw, loadRelay]
  | shortWait hw => simp [hw]
  | drainAgain hw => simp [hw]
  | passAgain hw => simp [hw]
  | start hw => simp [hw, startStep]
  | offer hw => simp [hw, offerStep]
  | switch hw => simp [hw, switchStep]
  | classify hw => simp [hw]
  | sample hw => simp [hw]
  | turn hw => simp [hw]
  | retry hw => simp [hw]
  | pollReturn hw => simp [hw, pollReturn]
  | relayReturn hw => simp [hw, relayReturn]

/-! The schedule (R221, R224). -/

theorem devState_setDevState_cases (i : Nat) (d : DevState) (s : State) (j : Nat) :
    (setDevState i d s).devState j = d ∧ j = i ∨ (setDevState i d s).devState j = s.devState j := by
  by_cases hj : j = i
  · by_cases hi : i < s.sched.devStates.length
    · exact .inl ⟨hj ▸ devState_setDevState_self hi d, hj⟩
    · have hset : s.sched.devStates.set i d = s.sched.devStates := List.set_eq_of_length_le (Nat.le_of_not_lt hi)
      exact .inr (congrArg (List.getD · j DevState.idle) hset)
  · exact .inr (devState_setDevState_of_ne hj d s)

/-- Settles O29: only the scan step makes a device Due, and only one whose `MAG` is not 0. -/
theorem magZeroNeverBecomesDue : Obligations.MagZeroNeverBecomesDue := by
  intro s t i hstep hmag hdue
  cases workerMove_of_workerStep hstep with
  | scanDue hw hi hisDue =>
    obtain ⟨-, rfl⟩ | hsame := devState_setDevState_cases s.worker.scanI.toNat .due s i
    · exact absurd hmag ((isDue_iff s _).mp hisDue).1
    · exact hsame.symm.trans hdue
  | due hw =>
    obtain ⟨hpolling, -⟩ | hsame := devState_setDevState_cases s.worker.scanI.toNat .polling s i
    · cases hpolling.symm.trans hdue
    · exact hsame.symm.trans hdue
  | pollReturn hw hsrc =>
    obtain ⟨hidle, -⟩ | hsame := devState_setDevState_cases s.worker.ctx.dev.toNat .idle s i
    · cases hidle.symm.trans hdue
    · exact hsame.symm.trans hdue
  | classify hw => rwa [State.devState, classifyStep_sched] at hdue
  | _ => exact hdue

/-- Of the worker's moves only the scan step at a due device writes a deadline, that device's (R38, R221). -/
theorem deadlines_of_workerMove {s t : State} (h : WorkerMove s t) :
    t.sched.deadlines = s.sched.deadlines ∨
    (s.worker.ws = .wScan ∧ t.worker.ws = .wDue ∧ ∀ j, j ≠ s.worker.scanI.toNat → t.deadline j = s.deadline j) := by
  cases h with
  | scanDue hw hi hdue =>
    exact .inr ⟨hw, rfl, fun j hj => deadline_setDeadline_of_ne hj _ (setDevState _ .due s)⟩
  | classify hw => exact .inl (congrArg Schedule.deadlines (classifyStep_sched s))
  | _ => exact .inl rfl

/-! The direction (R274). -/

/-- The worker turns the line in its moves into and out of `C_TX` only. -/
theorem dir_of_workerMove {s t : State} (h : WorkerMove s t) :
    (t.line.dir = true ∧ t.worker.ws = .cTx) ∨ (t.line.dir = false ∧ t.worker.ws ≠ .cTx) ∨
    (t.line.dir = s.line.dir ∧ (t.worker.ws = .cTx ↔ s.worker.ws = .cTx)) := by
  cases h with
  | start hw => exact .inl ⟨rfl, rfl⟩
  | switch hw ho => exact .inr (.inl ⟨rfl, nofun⟩)
  | offer hw hi => exact .inr (.inr ⟨rfl, Iff.rfl⟩)
  | sample hw => exact .inr (.inr ⟨rfl, Iff.rfl⟩)
  | scanNext hw hi => exact .inr (.inr ⟨rfl, Iff.rfl⟩)
  | classify hw =>
    rw [classifyStep_line, classifyStep_worker]
    exact .inr (.inr ⟨rfl, iff_of_false nofun fun he => by simp [he] at hw⟩)
  | park hw | restart hw | leaveIdle hw | pass hw | scanEnd hw | scanDue hw | due hw | load hw | shortWait hw
  | drainAgain hw | passAgain hw | turn hw | retry hw | pollReturn hw | relayReturn hw =>
    exact .inr (.inr ⟨rfl, iff_of_false nofun fun he => by simp [he] at hw⟩)

/-! The queues (R258, R266, R268). -/

/-- Of the worker's moves only the return of a relay frame changes the relay queue (R266). -/
theorem relayQ_of_workerMove {s t : State} (h : WorkerMove s t) :
    t.relayQ = s.relayQ ∨
    (s.worker.ws = .cEnd ∧ s.worker.ctx.src = .relay ∧ t.worker.ws = .wDrain ∧ t.relayQ = s.relayQ.tail) := by
  cases h with
  | relayReturn hw hsrc => exact .inr ⟨hw, hsrc, rfl, rfl⟩
  | classify hw => exact .inl (classifyStep_relayQ s)
  | _ => exact .inl rfl

/-- Publishing keeps the FIFO, appends the attempt's event to one with room, or drops it at a full one (R258, R268). -/
theorem events_classifyStep (s : State) :
    ((classifyStep s).evtQ = s.evtQ ∧ (classifyStep s).evtOvf = s.evtOvf) ∨
    (s.evtQ.length < s.params.evtDepth ∧ (classifyStep s).evtQ = s.evtQ ++ [s.classified.attemptEvent] ∧
      (classifyStep s).evtOvf = s.evtOvf) ∨
    (s.params.evtDepth ≤ s.evtQ.length ∧ (classifyStep s).evtQ = s.evtQ ∧ (classifyStep s).evtOvf = true) := by
  rw [classifyStep_eq]
  obtain ⟨-, -, he⟩ | ⟨-, he⟩ := publish_cases s.classified
  · rw [he]
    exact .inl ⟨rfl, rfl⟩
  · obtain ⟨hroom, he'⟩ | ⟨hfull, he'⟩ := emit_cases s.classified.attemptEvent s.classified
    · rw [he, he']
      exact .inr (.inl ⟨hroom, rfl, rfl⟩)
    · rw [he, he']
      exact .inr (.inr ⟨hfull, rfl, rfl⟩)

/-- Of the worker's moves only the classification touches the events. -/
theorem events_of_workerMove {s t : State} (h : WorkerMove s t) :
    (t.evtQ = s.evtQ ∧ t.evtOvf = s.evtOvf) ∨ (s.worker.ws = .cRxwait ∧ t = classifyStep s) := by
  cases h with
  | classify hw => exact .inr ⟨hw, rfl⟩
  | _ => exact .inl ⟨rfl, rfl⟩

/-! The host's side (R158). -/

theorem inputs_of_workerMove {s t : State} (h : WorkerMove s t) : t.ports.inputs = s.ports.inputs := by
  cases h with
  | classify hw => exact congrArg Ports.inputs (classifyStep_ports s)
  | _ => rfl

/-- The codec windows lie below the buffers that the worker writes. -/
theorem read_below_rxBase_of_workerMove {s t : State} (hm : s.mem.wf = true) (h : WorkerMove s t) {a : Nat}
    (ha : a < rxBase) : t.mem.read a = s.mem.read a := by
  have htx : a < txBase := ha.trans (by decide)
  obtain he | he | ⟨f, he⟩ := mem_of_workerMove h
  · rw [he]
  · rw [he, Memory.read_setWindow hm, if_neg (by omega)]
  · rw [he, Memory.read_setWindow hm, if_neg (by omega)]

/-- Settles O42: `SameConfig` says it for the registers, and the worker's buffers lie above the codec windows. -/
theorem workerLeavesTheHostSide : Obligations.WorkerLeavesTheHostSide := by
  intro s t hm hstep
  have hmove := workerMove_of_workerStep hstep
  have hinputs := inputs_of_workerMove hmove
  have hmem {a : Nat} (ha : a < rxBase) := read_below_rxBase_of_workerMove hm hmove ha
  have hsame : t = _ := sameConfig_of_workerStep hstep
  rw [hsame]
  exact ⟨rfl, rfl, rfl, rfl, rfl, rfl, rfl, hinputs, fun _ ha => hmem ha⟩

end Sys2Proof.Machine
end

section
/-! What a command reaches (40_codec.md section 3, 42_scheduler.md section 1): of the worker's side the restart flag only. -/

namespace Sys2Proof.Machine

/-- What no command writes. -/
structure SameWorkerSide (s t : State) : Prop where
  params : t.params = s.params
  line : t.line = s.line
  ctrl : t.ctrl = s.ctrl
  now : t.now = s.now
  ports : t.ports = s.ports
  staging : t.staging = s.staging
  arg0 : t.host.arg0 = s.host.arg0
  arg1 : t.host.arg1 = s.host.arg1
  arg2 : t.host.arg2 = s.host.arg2
  worker : t.worker = { s.worker with restart := t.worker.restart }

theorem sameWorkerSide_raise (c : ErrCode) (op : Byte) (s : State) : SameWorkerSide s (raise c op s) := by
  obtain ⟨-, he⟩ | ⟨-, he⟩ := raise_cases c op s
  all_goals
    rw [he]
    exact ⟨rfl, rfl, rfl, rfl, rfl, rfl, rfl, rfl, rfl, rfl⟩

theorem sameWorkerSide_of_commandMove {i : Instr} {s t : State} (h : CommandMove s i t) : SameWorkerSide s t := by
  cases h with
  | raised c op => exact sameWorkerSide_raise c op s
  | @reject why idx hcheck =>
    obtain ⟨hparams, hline, hctrl, hnow, hports, hstaging, harg0, harg1, harg2, hworker⟩ :=
      sameWorkerSide_raise .cfgReject (opField (Opcode.value .cfgCommit))
        { s with host.cfgStatus := fieldAt 8 (BitVec.ofNat 8 idx) ||| why.number }
    exact ⟨hparams, hline, hctrl, hnow, hports, hstaging, harg0, harg1, harg2, hworker⟩
  | _ => exact ⟨rfl, rfl, rfl, rfl, rfl, rfl, rfl, rfl, rfl, rfl⟩

/-- Only `CFG_COMMIT` reaches the active configuration, the schedule and the worker (R211). -/
theorem config_of_commandMove {i : Instr} {s t : State} (h : CommandMove s i t) (hi : i ≠ .cfgCommit) :
    t.worker = s.worker ∧ t.active = s.active ∧ t.sched = s.sched ∧ t.cfgValid = s.cfgValid := by
  cases h with
  | raised c op => exact ⟨raise_worker .., raise_active .., raise_sched .., raise_cfgValid ..⟩
  | accept hcheck => exact absurd rfl hi
  | reject hcheck => exact absurd rfl hi
  | _ => exact ⟨rfl, rfl, rfl, rfl⟩

/-- Only a `RELAY_PUSH` changes the relay queue: it appends the built frame (R233). -/
theorem relayQ_of_commandMove {i : Instr} {s t : State} (h : CommandMove s i t) :
    t.relayQ = s.relayQ ∨ (i = .relayPush ∧ t.relayQ = s.relayQ ++ [s.codecOut]) := by
  cases h with
  | raised c op => exact .inl (raise_relayQ ..)
  | push h0 hroom => exact .inr ⟨rfl, rfl⟩
  | reject hcheck => exact .inl (raise_relayQ ..)
  | _ => exact .inl rfl

/-- Only an `EVT_POP` changes the event FIFO: it removes the head (R294). -/
theorem evtQ_of_commandMove {i : Instr} {s t : State} (h : CommandMove s i t) :
    t.evtQ = s.evtQ ∨ (i = .evtPop ∧ t.evtQ = s.evtQ.tail) := by
  cases h with
  | raised c op => exact .inl (raise_evtQ ..)
  | reject hcheck => exact .inl (raise_evtQ ..)
  | pop hq => exact .inr ⟨rfl, by rw [hq]; rfl⟩
  | _ => exact .inl rfl

/-- A recorded error stands (R300). -/
theorem raise_of_recorded {s : State} (h : s.errCode ≠ 0) (c : ErrCode) (op : Byte) : raise c op s = s := if_neg h

/-- Once an error is recorded, only `CLR_ERR` changes `ERR` (R300). -/
theorem err_of_commandMove {i : Instr} {s t : State} (h : CommandMove s i t) (herr : s.errCode ≠ 0) :
    t.host.err = s.host.err ∨ i = .clrErr := by
  cases h with
  | raised c op => exact .inl (congrArg (·.host.err) (raise_of_recorded herr c op))
  | @reject why idx hcheck =>
    have hstands := raise_of_recorded (s := { s with host.cfgStatus := fieldAt 8 (BitVec.ofNat 8 idx) ||| why.number })
      herr .cfgReject (opField (Opcode.value .cfgCommit))
    exact .inl (congrArg (·.host.err) hstands)
  | clrErr => exact .inr rfl
  | _ => exact .inl rfl

/-- Settles O44: the frame of every command, its window of the memory, and the three commands with more to write. -/
theorem commandLeavesTheWorkerSide : Obligations.CommandLeavesTheWorkerSide := by
  intro i s t _ hm hexec
  have hmove := commandMove_of_exec hexec
  have hside := sameWorkerSide_of_commandMove hmove
  refine ⟨hside.params, hside.line, hside.ctrl, hside.now, hside.ports, hside.staging, hside.arg0, hside.arg1, hside.arg2,
    hside.worker, fun a ha => ?_, config_of_commandMove hmove,
    fun hi => (relayQ_of_commandMove hmove).resolve_right fun ⟨he, _⟩ => hi he,
    fun hi => (evtQ_of_commandMove hmove).resolve_right fun ⟨he, _⟩ => hi he⟩
  obtain he | ⟨f, he⟩ := mem_of_commandMove hmove
  · rw [he]
  · rw [he, Memory.read_setWindow hm, if_neg ha]

end Sys2Proof.Machine
end

section
/-! What all steps keep (20_memory.md section 8, 43_relay.md, 44_cycle_controller.md section 5, 60_exceptions.md,
70_reset_and_hazards.md): each quantity by the agents that write it. -/

namespace Sys2Proof.Machine

/-! A read reaches the ports, a store the registers, the line its buffer. -/

theorem hostRead_eq (addr : Addr) (size : Nat) (s : State) :
    hostRead addr size s = { s with ports := (hostRead addr size s).ports } := by
  unfold hostRead
  split <;> rfl

theorem wire_hostRead (addr : Addr) (size : Nat) (s : State) : (hostRead addr size s).ports.wire = s.ports.wire := by
  unfold hostRead
  split <;> rfl

theorem inputs_hostRead (addr : Addr) (size : Nat) (s : State) :
    (hostRead addr size s).ports.inputs = s.ports.inputs := by
  unfold hostRead
  split <;> rfl

theorem storeReg_eq (r : Reg) (v : Word) (s : State) :
    storeReg r v s = { s with
      ctrl := (storeReg r v s).ctrl, staging := (storeReg r v s).staging, mem := (storeReg r v s).mem,
      host := { s.host with
        arg0 := (storeReg r v s).host.arg0, arg1 := (storeReg r v s).host.arg1, arg2 := (storeReg r v s).host.arg2 } } := by
  cases r <;> rfl

theorem rxStep_eq (b : Byte) (s : State) :
    rxStep b s = { s with mem := (rxStep b s).mem, line.rxLen := (rxStep b s).line.rxLen } := by
  unfold rxStep
  split <;> rfl

/-! `ERR` (R300, R301). -/

theorem host_of_workerMove {s t : State} (h : WorkerMove s t) : t.host = s.host := by
  cases h with
  | classify hw => rw [classifyStep_eq]
  | _ => rfl

/-- Once an error is recorded, only `CLR_ERR` and reset change `ERR`. -/
theorem err_of_stepMove {s t : State} (h : StepMove s t) (herr : s.errCode ≠ 0) :
    t.host.err = s.host.err ∨ (∃ rest, s.Pending (.hostWrite cmdAddr 4 0x00000009) rest) ∨
    (∃ rest, s.Pending .reset rest) := by
  cases h with
  | worker rest hmove => exact .inl (congrArg (·.err) (host_of_workerMove hmove))
  | tick rest hnone => exact .inl rfl
  | read addr size rest => exact .inl (congrArg (·.host.err) (hostRead_eq addr size (dropInput rest s)))
  | raised c op rest => exact .inl (congrArg (·.host.err) (raise_of_recorded (s := dropInput rest s) herr c op))
  | store r v rest hpres => exact .inl (congrArg (·.host.err) (storeReg_eq r v (dropInput rest s)))
  | command w rest hpend hdec hmove =>
    obtain hsame | rfl := err_of_commandMove hmove herr
    · exact .inl hsame
    · exact .inr (.inl ⟨rest, (decode_eq_clrErr_iff w).mp hdec ▸ hpend⟩)
  | received b rest => exact .inl (congrArg (·.host.err) (rxStep_eq b (dropInput rest s)))
  | answered ok rest ho => exact .inl rfl
  | reset rest hpend => exact .inr (.inr ⟨rest, hpend⟩)

/-- Settles O8: the number of `ERR` by its fields, and the error stands under every move. -/
theorem firstErrorWins : Obligations.FirstErrorWins := by
  refine ⟨by decide, fun c op s => ⟨fun h0 => ?_, fun herr => raise_of_recorded herr c op⟩, fun s t hstep herr => ?_⟩
  · have hraise : raise c op s = { s with host.err := fieldAt 8 op ||| c.number } := if_pos h0
    rw [hraise]
    refine ⟨rfl, toNat_errWord c op, fun hzero => ?_⟩
    have hcode : c.number.toNat = 0 := (errWord_code c op).symm.trans (congrArg BitVec.toNat hzero)
    revert hcode
    cases c <;> decide
  · exact err_of_stepMove (stepMove_of_step hstep) herr

/-! The deadlines (R38, R211, R221, R343). -/

/-- Settles O31: the scan step at a due device, the accepted commit, and reset. -/
theorem deadlinesChangeOnlyWhenDueOrCommitted : Obligations.DeadlinesChangeOnlyWhenDueOrCommitted := by
  intro s t hstep
  cases stepMove_of_step hstep with
  | worker rest hmove => exact (deadlines_of_workerMove hmove).imp_right .inl
  | tick rest hnone => exact .inl rfl
  | read addr size rest => exact .inl (congrArg (·.sched.deadlines) (hostRead_eq addr size (dropInput rest s)))
  | raised c op rest => exact .inl (congrArg Schedule.deadlines (raise_sched ..))
  | store r v rest hpres => exact .inl (congrArg (·.sched.deadlines) (storeReg_eq r v (dropInput rest s)))
  | command w rest hpend hdec hmove =>
    cases hmove with
    | accept hcheck =>
      have hw := (decode_eq_cfgCommit_iff w).mp hdec
      exact .inr (.inr (.inl ⟨⟨rest, hw ▸ hpend⟩, rfl, deadline_acceptCommit _⟩))
    | raised c op => exact .inl (congrArg Schedule.deadlines (raise_sched ..))
    | reject hcheck => exact .inl (congrArg Schedule.deadlines (raise_sched ..))
    | _ => exact .inl rfl
  | received b rest => exact .inl (congrArg (·.sched.deadlines) (rxStep_eq b (dropInput rest s)))
  | answered ok rest ho => exact .inl rfl
  | reset rest hpend => exact .inr (.inr (.inr ⟨rest, hpend⟩))

/-! The queues (R91, R92, R234, R235, R266, R268). -/

/-- The relay queue grows at its tail, loses its head, or is reset. -/
theorem relayQ_of_stepMove {s t : State} (h : StepMove s t) :
    t.relayQ = s.relayQ ∨
    ((∃ rest, s.Pending (.hostWrite cmdAddr 4 0x00000006) rest) ∧ t.relayQ = s.relayQ ++ [s.codecOut]) ∨
    (s.worker.ws = .cEnd ∧ s.worker.ctx.src = .relay ∧ t.worker.ws = .wDrain ∧ t.relayQ = s.relayQ.tail) ∨
    ((∃ rest, s.Pending .reset rest) ∧ t.relayQ = []) := by
  cases h with
  | worker rest hmove => exact (relayQ_of_workerMove hmove).imp_right (.inr ∘ .inl)
  | tick rest hnone => exact .inl rfl
  | read addr size rest => exact .inl (congrArg (·.relayQ) (hostRead_eq addr size (dropInput rest s)))
  | raised c op rest => exact .inl (raise_relayQ ..)
  | store r v rest hpres => exact .inl (congrArg (·.relayQ) (storeReg_eq r v (dropInput rest s)))
  | command w rest hpend hdec hmove =>
    obtain hsame | ⟨rfl, hpush⟩ := relayQ_of_commandMove hmove
    · exact .inl hsame
    · exact .inr (.inl ⟨⟨rest, (decode_eq_relayPush_iff w).mp hdec ▸ hpend⟩, hpush⟩)
  | received b rest => exact .inl (congrArg (·.relayQ) (rxStep_eq b (dropInput rest s)))
  | answered ok rest ho => exact .inl rfl
  | reset rest hpend => exact .inr (.inr (.inr ⟨⟨rest, hpend⟩, rfl⟩))

/-- What a step can do to the event FIFO and to `EVT_OVF`: nothing, the classification's event stored or dropped, a pop,
`CLR_ERR`, or reset. -/
theorem events_of_stepMove {s t : State} (h : StepMove s t) :
    (t.evtQ = s.evtQ ∧ t.evtOvf = s.evtOvf) ∨
    (∃ rest, s.worker.ws = .cRxwait ∧ t = classifyStep (dropInput rest s)) ∨
    ((∃ rest, s.Pending (.hostWrite cmdAddr 4 0x00000008) rest) ∧ t.evtQ = s.evtQ.tail ∧ t.evtOvf = s.evtOvf) ∨
    ((∃ rest, s.Pending (.hostWrite cmdAddr 4 0x00000009) rest) ∧ t.evtQ = s.evtQ ∧ t.evtOvf = false) ∨
    ((∃ rest, s.Pending .reset rest) ∧ t.evtQ = [] ∧ t.evtOvf = false) := by
  cases h with
  | worker rest hmove => exact (events_of_workerMove hmove).imp_right fun ⟨hw, he⟩ => .inl ⟨rest, hw, he⟩
  | tick rest hnone => exact .inl ⟨rfl, rfl⟩
  | read addr size rest =>
    have hread := hostRead_eq addr size (dropInput rest s)
    exact .inl ⟨congrArg (·.evtQ) hread, congrArg (·.evtOvf) hread⟩
  | raised c op rest => exact .inl ⟨raise_evtQ .., raise_evtOvf ..⟩
  | store r v rest hpres =>
    have hstore := storeReg_eq r v (dropInput rest s)
    exact .inl ⟨congrArg (·.evtQ) hstore, congrArg (·.evtOvf) hstore⟩
  | command w rest hpend hdec hmove =>
    cases hmove with
    | raised c op => exact .inl ⟨raise_evtQ .., raise_evtOvf ..⟩
    | reject hcheck => exact .inl ⟨raise_evtQ .., raise_evtOvf ..⟩
    | @pop e q hq =>
      have hw := (decode_eq_evtPop_iff w).mp hdec
      exact .inr (.inr (.inl ⟨⟨rest, hw ▸ hpend⟩, (congrArg List.tail hq).symm, rfl⟩))
    | clrErr =>
      have hw := (decode_eq_clrErr_iff w).mp hdec
      exact .inr (.inr (.inr (.inl ⟨⟨rest, hw ▸ hpend⟩, rfl, rfl⟩)))
    | _ => exact .inl ⟨rfl, rfl⟩
  | received b rest =>
    have hrx := rxStep_eq b (dropInput rest s)
    exact .inl ⟨congrArg (·.evtQ) hrx, congrArg (·.evtOvf) hrx⟩
  | answered ok rest ho => exact .inl ⟨rfl, rfl⟩
  | reset rest hpend => exact .inr (.inr (.inr (.inr ⟨⟨rest, hpend⟩, rfl, rfl⟩)))

/-- Settles O33: the moves of the two queues, the classification split by what it publishes. -/
theorem queuesAreFirstInFirstOut : Obligations.QueuesAreFirstInFirstOut := by
  intro s t hstep
  have hmove := stepMove_of_step hstep
  refine ⟨relayQ_of_stepMove hmove, ?_⟩
  obtain ⟨hq, hovf⟩ | ⟨rest, hw, rfl⟩ | ⟨hpend, hq, hovf⟩ | ⟨hpend, hq, hovf⟩ | ⟨hpend, hq, hovf⟩ :=
    events_of_stepMove hmove
  · exact ⟨.inl hq, fun h => .inl (hovf.trans h), fun h h' => by simp [hovf, h] at h'⟩
  · have hturn : (classifyStep (dropInput rest s)).worker.ws = .cTurn := congrArg Worker.ws (classifyStep_worker _)
    have hworker := classifyStep_worker (dropInput rest s)
    obtain ⟨hq, hovf⟩ | ⟨hroom, hq, hovf⟩ | ⟨hfull, hq, hovf⟩ := events_classifyStep (dropInput rest s)
    · exact ⟨.inl hq, fun h => .inl (hovf.trans h), fun h h' => absurd (h.symm.trans (hovf.symm.trans h')) nofun⟩
    · refine ⟨.inr (.inl ⟨hw, hturn, hroom, _, hq, rfl, rfl, ?_, ?_⟩), fun h => .inl (hovf.trans h),
        fun h h' => absurd (h.symm.trans (hovf.symm.trans h')) nofun⟩
      · exact (congrArg Worker.cls hworker).symm
      · exact (congrArg Worker.val hworker).symm
    · exact ⟨.inl hq, fun _ => .inl hovf, fun _ _ => ⟨hw, hturn, hfull, hq⟩⟩
  · exact ⟨.inr (.inr (.inl ⟨hpend, hq⟩)), fun h => .inl (hovf.trans h), fun h h' => by simp [hovf, h] at h'⟩
  · exact ⟨.inl hq, fun _ => .inr (.inl hpend), fun _ h' => by simp [hovf] at h'⟩
  · exact ⟨.inr (.inr (.inr ⟨hpend, hq⟩)), fun _ => .inr (.inr hpend), fun _ h' => by simp [hovf] at h'⟩

/-! The line (R274, R292, R332). -/

/-- Of all agents only the worker and reset move the worker, and only they turn the line. -/
theorem dir_of_stepMove {s t : State} (h : StepMove s t) :
    (t.line.dir = true ∧ t.worker.ws = .cTx) ∨ (t.line.dir = false ∧ t.worker.ws ≠ .cTx) ∨
    (t.line.dir = s.line.dir ∧ (t.worker.ws = .cTx ↔ s.worker.ws = .cTx)) := by
  cases h with
  | worker rest hmove =>
    have hdir := dir_of_workerMove hmove
    exact hdir
  | tick rest hnone => exact .inr (.inr ⟨rfl, Iff.rfl⟩)
  | read addr size rest =>
    rw [hostRead_eq]
    exact .inr (.inr ⟨rfl, Iff.rfl⟩)
  | raised c op rest =>
    rw [raise_line, raise_worker]
    exact .inr (.inr ⟨rfl, Iff.rfl⟩)
  | store r v rest hpres =>
    rw [storeReg_eq]
    exact .inr (.inr ⟨rfl, Iff.rfl⟩)
  | command w rest hpend hdec hmove =>
    have hside := sameWorkerSide_of_commandMove hmove
    rw [hside.line, hside.worker]
    exact .inr (.inr ⟨rfl, Iff.rfl⟩)
  | received b rest =>
    rw [rxStep_eq]
    exact .inr (.inr ⟨rfl, Iff.rfl⟩)
  | answered ok rest ho => exact .inr (.inr ⟨rfl, Iff.rfl⟩)
  | reset rest hpend => exact .inr (.inl ⟨rfl, nofun⟩)

/-- Settles O55: a move turns the line and enters or leaves `C_TX` together, or does neither. -/
theorem directionIsTransmitExactlyInCTx : Obligations.DirectionIsTransmitExactlyInCTx := by
  intro s t hdir hstep
  obtain ⟨hd, hw⟩ | ⟨hd, hw⟩ | ⟨hd, hw⟩ := dir_of_stepMove (stepMove_of_step hstep)
  · exact iff_of_true hd hw
  · exact iff_of_false (Bool.eq_false_iff.mp hd) hw
  · rw [hd, hw]
    exact hdir

/-- A parked worker that is not ready has no move (R292). -/
theorem not_workerMove_of_parked {s t : State} (hw : s.worker.ws = .wIdle) (h : s.run = false ∨ s.cfgValid = false) :
    ¬ WorkerMove s t := by
  intro hmove
  have hnone : workerStep s = none := (workerStep_wIdle hw).trans (idleStep_of_not_ready h)
  cases hnone.symm.trans (workerStep_of_workerMove hmove)

/-- Settles O57: the worker has no move, and no other agent offers a byte, turns the line to transmit or moves the
worker. -/
theorem nothingIsSentWhileParked : Obligations.NothingIsSentWhileParked := by
  intro s t hw hparked hstep
  cases stepMove_of_step hstep with
  | worker rest hmove => exact absurd hmove (not_workerMove_of_parked hw hparked)
  | tick rest hnone => exact ⟨hw, rfl, id, .inr rfl⟩
  | read addr size rest =>
    have hwire := wire_hostRead addr size (dropInput rest s)
    rw [hostRead_eq]
    exact ⟨hw, hwire, id, .inr rfl⟩
  | raised c op rest =>
    rw [raise_line, raise_worker, raise_ports]
    exact ⟨hw, rfl, id, .inr rfl⟩
  | store r v rest hpres =>
    rw [storeReg_eq]
    exact ⟨hw, rfl, id, .inr rfl⟩
  | command w rest hpend hdec hmove =>
    have hside := sameWorkerSide_of_commandMove hmove
    rw [hside.line, hside.worker, hside.ports]
    exact ⟨hw, rfl, id, .inr rfl⟩
  | received b rest =>
    rw [rxStep_eq]
    exact ⟨hw, rfl, id, .inr rfl⟩
  | answered ok rest ho => exact ⟨hw, rfl, id, .inl rfl⟩
  | reset rest hpend => exact ⟨rfl, rfl, nofun, .inl rfl⟩

/-! Turns and stops (R12, R246, R300, R305, R310). -/

theorem tickTurn_of_enabled {s t : State} (h : workerStep s = some t) (taken : State) : tickTurn taken s = t := by
  simp only [tickTurn, h]

theorem tickTurn_of_waiting {s : State} (h : workerStep s = none) (taken : State) :
    tickTurn taken s = clockStep taken := by
  simp only [tickTurn, h]

theorem step_tick {s : State} {rest : List Input} (h : s.Pending .tick rest) :
    step s = .next (tickTurn (dropInput rest s) s) := step_cons h

theorem step_worker_of_enabled {s t : State} {rest : List Input} (h : s.Pending .worker rest)
    (ht : workerStep (dropInput rest s) = some t) : step s = .next t := by
  rw [step_cons h]
  simp only [takeInput, ht]

theorem step_worker_of_waiting {s : State} {rest : List Input} (h : s.Pending .worker rest)
    (hnone : workerStep (dropInput rest s) = none) : step s = .fault .workerNotEnabled := by
  rw [step_cons h]
  simp only [takeInput, hnone]

/-- Settles O40: the clauses are the branches of the worker's turn and of a due tick. -/
theorem workerAndClockTurns : Obligations.WorkerAndClockTurns := by
  intro s rest
  refine ⟨fun t => step_worker_of_enabled, fun t hpend ht => ?_, fun hpend hnone => ?_, fun t hnil ht => ?_,
    fun hnil hnone => ?_⟩
  · rw [step_tick hpend, tickTurn_of_enabled ht]
  · rw [step_tick hpend, tickTurn_of_waiting hnone]
    rfl
  · rw [step_nil hnil, tickTurn_of_enabled ht]
  · rw [step_nil hnil, tickTurn_of_waiting hnone]
    rfl

/-- Every command answers a next state (R12). -/
theorem exists_exec_eq_next (i : Instr) (s : State) : ∃ t, exec i s = .next t := by
  cases i with
  | nop => exact ⟨_, rfl⟩
  | crcCalc n =>
    simp only [exec, execCrcCalc]
    split <;> exact ⟨_, rfl⟩
  | crcVerify n =>
    simp only [exec, execCrcVerify]
    split
    · exact ⟨_, rfl⟩
    · split <;> exact ⟨_, rfl⟩
  | buildRead => exact ⟨_, rfl⟩
  | buildWriteS n =>
    simp only [exec, execBuildWriteS]
    split <;> exact ⟨_, rfl⟩
  | buildWriteM n =>
    simp only [exec, execBuildWriteM]
    split <;> exact ⟨_, rfl⟩
  | classify n =>
    simp only [exec, execClassify]
    split <;> exact ⟨_, rfl⟩
  | relayPush =>
    simp only [exec, execRelayPush]
    split
    · exact ⟨_, rfl⟩
    · split <;> exact ⟨_, rfl⟩
  | cfgCommit =>
    simp only [exec, execCfgCommit]
    split <;> exact ⟨_, rfl⟩
  | evtPop =>
    simp only [exec, execEvtPop]
    split <;> exact ⟨_, rfl⟩
  | clrErr => exact ⟨_, rfl⟩

/-- Every host write answers a next state: an error, a store or a command word. -/
theorem exists_hostWrite_eq_next (addr : Addr) (size : Nat) (v : Word) (s : State) :
    ∃ t, hostWrite addr size v s = .next t := by
  obtain ⟨-, he⟩ | ⟨r, -, -, -, he⟩ | ⟨-, -, he⟩ := hostWrite_cases addr size v s
  · exact ⟨_, he⟩
  · exact ⟨_, he⟩
  · rw [he]
    obtain ⟨i, -, he'⟩ | ⟨why, -, he'⟩ := command_cases v s
    · exact he' ▸ exists_exec_eq_next i s
    · exact ⟨_, he'⟩

/-- Settles O58: of the port actions only a worker turn and an answer can stop, each in the one branch that says so. -/
theorem nothingStopsTheBlock : Obligations.NothingStopsTheBlock := by
  refine ⟨exists_exec_eq_next, fun s => ?_, fun s addr size rest hpend => ?_, fun s rest hpend => ?_⟩
  · cases hin : s.ports.inputs with
    | nil => exact .inl ⟨_, step_nil hin⟩
    | cons inp rest =>
      have hstep := step_cons hin
      cases inp with
      | hostRead addr size => exact .inl ⟨_, hstep⟩
      | hostWrite addr size v => exact .inl (hstep ▸ exists_hostWrite_eq_next addr size v (dropInput rest s))
      | worker =>
        cases hw : workerStep (dropInput rest s) with
        | none => exact .inr (.inl ⟨rest, hin, hw, step_worker_of_waiting hin hw⟩)
        | some t => exact .inl ⟨t, step_worker_of_enabled hin hw⟩
      | tick => exact .inl ⟨_, hstep⟩
      | rx b => exact .inl ⟨_, hstep⟩
      | answer ok =>
        by_cases ho : s.line.txOffer = none
        · exact .inr (.inr ⟨ok, rest, hin, ho, hstep.trans (if_pos ho)⟩)
        · exact .inl ⟨_, hstep.trans (if_neg ho)⟩
      | reset => exact .inl ⟨_, hstep⟩
  · exact ⟨_, step_cons hpend, hostRead_eq addr size (dropInput rest s), inputs_hostRead addr size _,
      wire_hostRead addr size _⟩
  · exact ⟨_, step_cons hpend, rfl⟩

end Sys2Proof.Machine
end

section
/-! The registers behind the bus (20_memory.md sections 2 and 4, 10_state.md sections 1 and 4): what a write stores, and the
fields of `STATUS`. -/

namespace Sys2Proof.Machine

/-! Writable registers (R72, R79). -/

/-- A write of 32 bits to a mapped `RW` word stores it. -/
theorem step_store {s : State} {addr : Addr} {v : Word} {r : Reg} {rest : List Input}
    (hpend : s.Pending (.hostWrite addr 4 v) rest) (hmap : mapped s.params addr = some r) (hrw : r.access = .rw) :
    step s = .next (storeReg r v (dropInput rest s)) := by
  rw [step_cons hpend]
  simp [takeInput, hostWrite, hmap, writeReg, hrw]

theorem params_storeReg (r : Reg) (v : Word) (s : State) : (storeReg r v s).params = s.params :=
  (params_cfgValid_storeReg r v s).1

theorem length_staged_storeReg (r : Reg) (v : Word) (s : State) :
    (storeReg r v s).staging.devs.length = s.staging.devs.length := by
  cases r with
  | devsAf i | devsReg i | devsCyc i => exact List.length_set
  | _ => rfl

/-- Outside `CODEC_IN` a store leaves the memory. -/
theorem mem_storeReg_of_ne {r : Reg} (hc : ∀ j, r ≠ .codecIn j) (v : Word) (s : State) :
    (storeReg r v s).mem = s.mem := by
  cases r with
  | codecIn j => exact absurd rfl (hc j)
  | _ => rfl

/-- A writable register holds the value written; `CTRL` its three fields. -/
theorem regValue_storeReg_self {s : State} (hl : s.staging.devs.length = s.params.nDev) {r : Reg} (v : Word)
    (hrw : r.access = .rw) (hc : ∀ j, r ≠ .codecIn j) (hp : r.Present s.params) :
    (storeReg r v s).regValue r = if r = .ctrl then ctrlWritten v else v := by
  cases r <;> simp only [Reg.access, reduceCtorEq] at hrw
  case devsAf i | devsReg i | devsCyc i =>
    simp only [storeReg, State.regValue, staged_setStaged _ (hl.symm ▸ hp : i < s.staging.devs.length)]
    simp
  case codecIn j => exact absurd rfl (hc j)
  all_goals rfl

/-- The words read at an address other than the one stored to (R79). -/
theorem memRead_storeReg_of_ne {s : State} (hl : s.staging.devs.length = s.params.nDev) {addr a : Addr} {r : Reg}
    (v : Word) (hmap : mapped s.params addr = some r) (hrw : r.access = .rw) (hc : ∀ j, r ≠ .codecIn j) (ha : a ≠ addr) :
    memRead (storeReg r v s) a = memRead s a := by
  have hparams := params_storeReg r v s
  cases hm : mapped s.params a with
  | none => rw [memRead_unmapped hm, memRead_unmapped (hparams.symm ▸ hm)]
  | some r' =>
    have hne : r' ≠ r := fun he => ha (mapped_inj (he ▸ hm) hmap)
    rw [memRead_mapped hm, memRead_mapped (hparams.symm ▸ hm),
      regValue_storeReg_of_ne hl v hrw hc (mapped_eq_some hmap).1 hne]

/-- `CTRL` stands at one address only (R75). -/
theorem eq_ctrl_iff {p : Params} {addr : Addr} {r : Reg} (hmap : mapped p addr = some r) : r = .ctrl ↔ addr = 0x014 := by
  constructor
  · rintro rfl
    exact mapped_inj hmap rfl
  · rintro rfl
    exact (Option.some.inj hmap).symm

/-- Settles O47: the store, the word it leaves at its own address, and every other word. -/
theorem writableRegistersReadBack : Obligations.WritableRegistersReadBack := by
  intro s addr v r rest htab hpend hmap hrw hc
  obtain ⟨hl, -⟩ := htab
  have hpres : r.Present s.params := (mapped_eq_some hmap).1
  have hmap' : mapped (storeReg r v (dropInput rest s)).params addr = some r := by rwa [params_storeReg]
  have hself : memRead (storeReg r v (dropInput rest s)) addr = if r = .ctrl then ctrlWritten v else v :=
    (memRead_mapped hmap').trans (regValue_storeReg_self (s := dropInput rest s) hl v hrw hc hpres)
  refine ⟨_, step_store hpend hmap hrw, ?_, fun ha => ?_, fun ha => ?_, fun a ha => ?_, length_staged_storeReg ..⟩
  · have hstore := storeReg_eq r v (dropInput rest s)
    rw [mem_storeReg_of_ne hc] at hstore
    exact hstore
  · rw [hself, if_neg (mt (eq_ctrl_iff hmap).mp ha)]
  · rw [hself, if_pos ((eq_ctrl_iff hmap).mpr ha)]
    rfl
  · exact memRead_storeReg_of_ne (s := dropInput rest s) hl v hmap hrw hc ha

/-! `CODEC_IN` (R74). -/

/-- A word stored in a window: its four bytes, as far as they lie below the capacity, and nothing else. -/
theorem read_setWindowWord {m : Memory} (hm : m.wf = true) (base cap j a : Nat) (v : Word) :
    (m.setWindowWord base cap j v).read a =
      if 4 * j + 3 < cap ∧ a = base + (4 * j + 3) then wordByte v 3
      else if 4 * j + 2 < cap ∧ a = base + (4 * j + 2) then wordByte v 2
      else if 4 * j + 1 < cap ∧ a = base + (4 * j + 1) then wordByte v 1
      else if 4 * j < cap ∧ a = base + 4 * j then wordByte v 0
      else m.read a := by
  have hwf0 := Memory.wf_setWindowByte hm base cap (4 * j) (wordByte v 0)
  have hwf1 := Memory.wf_setWindowByte hwf0 base cap (4 * j + 1) (wordByte v 1)
  have hwf2 := Memory.wf_setWindowByte hwf1 base cap (4 * j + 2) (wordByte v 2)
  rw [Memory.setWindowWord, Memory.read_setWindowByte hwf2, Memory.read_setWindowByte hwf1,
    Memory.read_setWindowByte hwf0, Memory.read_setWindowByte hm]

theorem read_setWindowWord_byte {m : Memory} (hm : m.wf = true) (base : Nat) {cap j k : Nat} (v : Word) (hk : k < 4)
    (hcap : 4 * j + k < cap) : (m.setWindowWord base cap j v).read (base + (4 * j + k)) = wordByte v k := by
  rw [read_setWindowWord hm]
  have hc : k = 0 ∨ k = 1 ∨ k = 2 ∨ k = 3 := by omega
  obtain rfl | rfl | rfl | rfl := hc
  · rw [if_neg (by omega), if_neg (by omega), if_neg (by omega), if_pos ⟨hcap, rfl⟩]
  · rw [if_neg (by omega), if_neg (by omega), if_pos ⟨hcap, rfl⟩]
  · rw [if_neg (by omega), if_pos ⟨hcap, rfl⟩]
  · rw [if_pos ⟨hcap, rfl⟩]

theorem read_setWindowWord_of_ne {m : Memory} (hm : m.wf = true) {base cap j a : Nat} (v : Word)
    (ha : ∀ k, k < 4 → 4 * j + k < cap → a ≠ base + (4 * j + k)) :
    (m.setWindowWord base cap j v).read a = m.read a := by
  rw [read_setWindowWord hm, if_neg fun ⟨h, he⟩ => ha 3 (by decide) h he, if_neg fun ⟨h, he⟩ => ha 2 (by decide) h he,
    if_neg fun ⟨h, he⟩ => ha 1 (by decide) h he, if_neg fun ⟨h, he⟩ => ha 0 (by decide) h he]

/-- Settles O48: the address is that of word `j` of the window, and the store is `setWindowWord`. -/
theorem codecInWritesAreLittleEndian : Obligations.CodecInWritesAreLittleEndian := by
  intro s j v rest hp hm hj hpend
  have hmap : mapped s.params (BitVec.ofNat 12 (codecInBase + 4 * j)) = some (.codecIn j) :=
    mapped_offset (r := .codecIn j) hp hj
  exact ⟨_, step_store hpend hmap rfl, rfl, fun k hk hcap => read_setWindowWord_byte hm codecInBase v hk hcap,
    fun a ha => read_setWindowWord_of_ne hm v ha⟩

/-! `STATUS` (R25, R40). -/

theorem getElem_fieldAt {n : Nat} (k : Nat) (v : BitVec n) {i : Nat} (hi : i < 32) :
    (fieldAt k v)[i] = (decide (k ≤ i) && v.getLsbD (i - k)) := by
  by_cases hk : k ≤ i
  · simp [fieldAt, hk, Nat.not_lt.mpr hk]
  · simp [fieldAt, hk, Nat.lt_of_not_le hk]

/-- A field read at its own place. -/
theorem extractLsb'_fieldAt_self {n k : Nat} (v : BitVec n) (h : k + n ≤ 32) : (fieldAt k v).extractLsb' k n = v := by
  ext j hj
  rw [BitVec.getElem_extractLsb', BitVec.getLsbD_eq_getElem (by omega), getElem_fieldAt]
  simp [hj]

/-- A field read where it is not. -/
theorem extractLsb'_fieldAt_apart {n k i l : Nat} (v : BitVec n) (hl : i + l ≤ 32) (h : i + l ≤ k ∨ k + n ≤ i) :
    (fieldAt k v).extractLsb' i l = 0 := by
  ext j hj
  rw [BitVec.getElem_extractLsb', BitVec.getLsbD_eq_getElem (by omega), getElem_fieldAt]
  obtain h | h := h
  · simp [show ¬ k ≤ i + j by omega]
  · simp [show n ≤ i + j - k by omega]

theorem workerTable_code (w : WorkerState) : workerTable[w.code.toNat]? = some w := by cases w <;> rfl

/-- Settles O49: each field of the word is read at its own place, and every other field is apart from it. -/
theorem statusShowsTheFlags : Obligations.StatusShowsTheFlags := by
  intro s
  rw [memRead_status, State.status]
  simp only [bitAt_eq_fieldAt]
  refine ⟨?_, ?_, ?_, ?_, ?_, ?_, ?_, ?_, ?_, ?_⟩
  · simp [getElem_fieldAt]
  · simp [getElem_fieldAt]
  · simp [getElem_fieldAt]
  · simp [getElem_fieldAt]
  · simp [getElem_fieldAt]
  · simp [getElem_fieldAt]
  · simp [BitVec.extractLsb'_or, extractLsb'_fieldAt_apart]
  · simp [BitVec.extractLsb'_or, extractLsb'_fieldAt_apart, extractLsb'_fieldAt_self]
  · simp [BitVec.extractLsb'_or, extractLsb'_fieldAt_apart]
  · simp [BitVec.extractLsb'_or, extractLsb'_fieldAt_apart, extractLsb'_fieldAt_self, workerTable_code]

end Sys2Proof.Machine
end

section
/-! What does not reach the worker (R158, R45): its step is the same whatever stands in the command port and in the
codec windows. -/

namespace Sys2Proof.Machine

/-- `s` with another command port and another byte memory. -/
def State.withHostSide (p : HostPort) (m : Memory) (s : State) : State := { s with host := p, mem := m }

/-- A relation of memories that holds the worker's windows together: they read the same from `rxBase` on, and filling one
of them on both sides keeps the relation. -/
structure AgreesForWorker (R : Memory → Memory → Prop) : Prop where
  read {m m' : Memory} (h : R m m') {a : Nat} (ha : rxBase ≤ a) : m'.read a = m.read a
  setWindow {m m' : Memory} (h : R m m') {base : Nat} (hbase : rxBase ≤ base) (cap : Nat) (f : List Byte) :
    R (m.setWindow base cap f) (m'.setWindow base cap f)

theorem agreesForWorker_eq : AgreesForWorker Eq where
  read h _ _ := h ▸ rfl
  setWindow h _ _ _ _ := h ▸ rfl

/-- Both memories are canonical, and they read the same from `rxBase` on. -/
def SameFromRxBase (m m' : Memory) : Prop :=
  m.wf = true ∧ m'.wf = true ∧ ∀ a, rxBase ≤ a → m'.read a = m.read a

theorem SameFromRxBase.symm {m m' : Memory} (h : SameFromRxBase m m') : SameFromRxBase m' m := by
  obtain ⟨hm, hm', hread⟩ := h
  exact ⟨hm', hm, fun a ha => (hread a ha).symm⟩

theorem agreesForWorker_sameFromRxBase : AgreesForWorker SameFromRxBase where
  read h a ha := h.2.2 a ha
  setWindow h base _ cap f := by
    obtain ⟨hm, hm', hread⟩ := h
    refine ⟨Memory.wf_setWindow hm .., Memory.wf_setWindow hm' .., fun a ha => ?_⟩
    rw [Memory.read_setWindow hm, Memory.read_setWindow hm', hread a ha]

section

variable {R : Memory → Memory → Prop} {s t : State} {m : Memory}

theorem nextTxByte_withHostSide (hR : AgreesForWorker R) (hm : R s.mem m) (p : HostPort) :
    (s.withHostSide p m).nextTxByte = s.nextTxByte :=
  hR.read hm ((show rxBase ≤ txBase by decide).trans (Nat.le_add_right ..))

theorem rxClass_withHostSide (hR : AgreesForWorker R) (hm : R s.mem m) (p : HostPort) :
    (s.withHostSide p m).rxClass = s.rxClass := by
  have hbytes : (s.withHostSide p m).rxBytes = s.rxBytes :=
    Memory.readBytes_congr fun _ _ => hR.read hm (Nat.le_add_right ..)
  exact congrArg (classify · s.worker.ctx.reqAddr s.worker.ctx.reqFc s.worker.ctx.flags) hbytes

theorem emit_withHostSide (e : Event) (p : HostPort) :
    emit e (s.withHostSide p m) = (emit e s).withHostSide p m := by
  simp only [emit, apply_ite (State.withHostSide p m)]
  rfl

theorem publish_withHostSide (p : HostPort) : publish (s.withHostSide p m) = (publish s).withHostSide p m := by
  simp only [publish, apply_ite (State.withHostSide p m), ← emit_withHostSide]
  rfl

theorem classifyStep_withHostSide (hR : AgreesForWorker R) (hm : R s.mem m) (p : HostPort) :
    classifyStep (s.withHostSide p m) = (classifyStep s).withHostSide p m := by
  have hclass : (s.withHostSide p m).classified = s.classified.withHostSide p m := by
    rw [State.classified, rxClass_withHostSide hR hm]
    rfl
  rw [classifyStep_eq, classifyStep_eq, hclass, publish_withHostSide, rxClass_withHostSide hR hm]
  rfl

/-- The worker's move is the same over another command port and a memory that agrees in the worker's windows, and leaves
memories that agree. -/
theorem workerMove_withHostSide (hR : AgreesForWorker R) (hm : R s.mem m) (p : HostPort) (h : WorkerMove s t) :
    ∃ m', WorkerMove (s.withHostSide p m) (t.withHostSide p m') ∧ R t.mem m' := by
  have htx : rxBase ≤ txBase := by decide
  cases h with
  | leaveIdle hw hrun hvalid => exact ⟨m, .leaveIdle hw hrun hvalid, hm⟩
  | park hw hrun => exact ⟨m, .park hw hrun, hm⟩
  | restart hw hrun hs => exact ⟨m, .restart hw hrun hs, hm⟩
  | pass hw hrun => exact ⟨m, .pass hw hrun, hm⟩
  | scanEnd hw hi hrun hs => exact ⟨m, .scanEnd hw hi hrun hs, hm⟩
  | scanDue hw hi hdue hrun hs => exact ⟨m, .scanDue hw hi hdue hrun hs, hm⟩
  | scanNext hw hi hdue hrun hs => exact ⟨m, .scanNext hw hi hdue hrun hs, hm⟩
  | due hw => exact ⟨_, .due hw, hR.setWindow hm htx ..⟩
  | load hw hq hrun hs => exact ⟨_, .load (s := s.withHostSide p m) hw hq hrun hs, hR.setWindow hm htx ..⟩
  | shortWait hw hq hrun hs => exact ⟨m, .shortWait hw hq hrun hs, hm⟩
  | drainAgain hw hq hrun hs => exact ⟨m, .drainAgain hw hq hrun hs, hm⟩
  | passAgain hw hq ht hrun hs => exact ⟨m, .passAgain hw hq ht hrun hs, hm⟩
  | start hw => exact ⟨_, .start hw, hR.setWindow hm le_rfl ..⟩
  | offer hw hi ho =>
    have he : offerStep (s.withHostSide p m) = (offerStep s).withHostSide p m := by
      rw [offerStep, nextTxByte_withHostSide hR hm]
      rfl
    exact ⟨m, he ▸ .offer hw hi ho, hm⟩
  | switch hw ho hi => exact ⟨m, .switch hw ho hi, hm⟩
  | classify hw hs hc =>
    refine ⟨m, classifyStep_withHostSide hR hm p ▸ .classify hw hs hc, ?_⟩
    rwa [classifyStep_mem]
  | sample hw hs h0 hstop => exact ⟨m, .sample hw hs h0 hstop, hm⟩
  | turn hw ht => exact ⟨_, .turn hw ht, hR.setWindow hm le_rfl ..⟩
  | retry hw hc ha => exact ⟨m, .retry hw hc ha, hm⟩
  | pollReturn hw hsrc hfinal => exact ⟨m, .pollReturn hw hsrc hfinal, hm⟩
  | relayReturn hw hsrc hfinal => exact ⟨m, .relayReturn hw hsrc hfinal, hm⟩

theorem workerStep_withHostSide_of_some (hR : AgreesForWorker R) (hm : R s.mem m) (p : HostPort)
    (h : workerStep s = some t) :
    ∃ m', workerStep (s.withHostSide p m) = some (t.withHostSide p m') ∧ R t.mem m' := by
  obtain ⟨m', hmove, hm'⟩ := workerMove_withHostSide hR hm p (workerMove_of_workerStep h)
  exact ⟨m', workerStep_of_workerMove hmove, hm'⟩

/-- A worker that waits does so over every such command port and memory: a step it had there, it had here too. -/
theorem workerStep_withHostSide_of_none (hR : AgreesForWorker R) (hm : R m s.mem) (p : HostPort)
    (h : workerStep s = none) : workerStep (s.withHostSide p m) = none := by
  cases hstep : workerStep (s.withHostSide p m) with
  | none => rfl
  | some t =>
    obtain ⟨m', hback, -⟩ := workerStep_withHostSide_of_some (s := s.withHostSide p m) hR hm s.host hstep
    exact absurd (h.symm.trans hback) (Option.some_ne_none _).symm

end

/-- Settles O43: the move is the same by `workerMove_withHostSide`, with equality as the relation of memories for the
first part. -/
theorem workerIgnoresTheCommandPort : Obligations.WorkerIgnoresTheCommandPort := by
  refine ⟨fun s p => ?_, fun s p m hwf hwf' hread => ?_⟩
  · cases hstep : workerStep s with
    | none => exact workerStep_withHostSide_of_none agreesForWorker_eq rfl p hstep
    | some t =>
      obtain ⟨m', hstep', hm'⟩ := workerStep_withHostSide_of_some agreesForWorker_eq rfl p hstep
      cases hm'
      exact hstep'
  · have hm : SameFromRxBase s.mem m := ⟨hwf, hwf', hread⟩
    refine ⟨workerStep_withHostSide_of_none agreesForWorker_sameFromRxBase hm.symm p, fun t hstep => ?_⟩
    obtain ⟨m', hstep', -, -, hread'⟩ := workerStep_withHostSide_of_some agreesForWorker_sameFromRxBase hm p hstep
    refine ⟨m', hstep', fun a => ?_⟩
    split
    case isTrue ha => exact read_below_rxBase_of_workerMove hwf' (workerMove_of_workerStep hstep') ha
    case isFalse ha => exact hread' a (Nat.le_of_not_lt ha)

end Sys2Proof.Machine
end

section
/-! A silent response wait (R259, R271): while nothing is received, ticks and samples alternate until the timeout, the
last sample time is the timeout itself, and there the step classifies. -/

namespace Sys2Proof.Machine

/-- `s` with the time and the next sample time of a response wait that has gone on. -/
def State.waitingAt (now next : DWord) (s : State) : State := { s with now := now, worker.nextSample := next }

@[simp] theorem now_waitingAt (now next : DWord) (s : State) : (s.waitingAt now next).now = now := rfl
@[simp] theorem nextSample_waitingAt (now next : DWord) (s : State) :
    (s.waitingAt now next).worker.nextSample = next := rfl
@[simp] theorem waitEnd_waitingAt (now next : DWord) (s : State) : (s.waitingAt now next).waitEnd = s.waitEnd := rfl

/-- The sample time after the present one (R258). -/
def State.followingSample (s : State) : DWord :=
  minTime (s.worker.nextSample + BitVec.ofNat 64 s.params.rxPollMs) s.waitEnd

theorem toNat_followingSample {s : State} (h : s.worker.nextSample.toNat + s.params.rxPollMs < 2 ^ 64) :
    s.followingSample.toNat = min (s.worker.nextSample.toNat + s.params.rxPollMs) s.waitEnd.toNat := by
  rw [State.followingSample, toNat_minTime, toNat_add_ms h]

/-- A response wait in which nothing was received, no port action is to come and no time wraps. -/
structure SilentWait (s : State) : Prop where
  ws : s.worker.ws = .cRxwait
  inputs : s.ports.inputs = []
  rxLen : s.line.rxLen = 0
  poll : 1 ≤ s.params.rxPollMs
  noWrap : s.waitEnd.toNat + s.params.rxPollMs < 2 ^ 64
  sampled : s.now.toNat ≤ s.worker.nextSample.toNat
  clamped : s.worker.nextSample.toNat ≤ s.waitEnd.toNat

theorem step_of_early {s : State} (h : SilentWait s) (hs : s.now.toNat < s.worker.nextSample.toNat) :
    step s = .next (s.waitingAt (s.now + 1) s.worker.nextSample) := by
  have hnone : workerStep s = none := (workerStep_cRxwait h.ws).trans (rxwaitStep_of_early hs)
  rw [step_nil h.inputs, tickTurn_of_waiting hnone]
  rfl

theorem step_of_sample {s : State} (h : SilentWait s) (hs : s.worker.nextSample.toNat ≤ s.now.toNat)
    (hstop : s.now.toNat < s.waitEnd.toNat) : step s = .next (s.waitingAt s.now s.followingSample) := by
  have hsome := (workerStep_cRxwait h.ws).trans (rxwaitStep_of_silence hs h.rxLen hstop)
  rw [step_nil h.inputs, tickTurn_of_enabled hsome]
  rfl

/-- The wait goes on over any two times in its order. -/
theorem SilentWait.waitingAt {s : State} (h : SilentWait s) {now next : DWord} (hs : now.toNat ≤ next.toNat)
    (hc : next.toNat ≤ s.waitEnd.toNat) : SilentWait (s.waitingAt now next) :=
  ⟨h.ws, h.inputs, h.rxLen, h.poll, h.noWrap, hs, hc⟩

/-- A silent wait comes to its end without leaving the state `C_RXWAIT`, and a sample is due there: each tick brings the
time nearer to the next sample, and each sample moves that nearer to the end. -/
theorem SilentWait.reaches_waitEnd {s : State} (h : SilentWait s) :
    ReachesWhile (fun u => u.worker.ws = .cRxwait) s (s.waitingAt s.waitEnd s.waitEnd) := by
  have hpoll := h.poll
  have hwrap := h.noWrap
  have hclamp := h.clamped
  obtain hearly | hdue := h.sampled.lt_or_eq
  · have hnow : (s.now + 1).toNat = s.now.toNat + 1 := toNat_add_ms (n := 1) (by omega)
    have hwait : SilentWait (s.waitingAt (s.now + 1) s.worker.nextSample) := h.waitingAt (by omega) hclamp
    exact reachesWhile_head hwait.reaches_waitEnd h.ws (step_of_early h hearly)
  obtain hlt | hstop := hclamp.lt_or_eq
  · have hnext := toNat_followingSample (s := s) (by omega)
    have hwait : SilentWait (s.waitingAt s.now s.followingSample) := h.waitingAt (by omega) (by omega)
    exact reachesWhile_head hwait.reaches_waitEnd h.ws (step_of_sample h hdue.ge (hdue ▸ hlt))
  · have hend : s.worker.nextSample = s.waitEnd := BitVec.eq_of_toNat_eq hstop
    have hnow : s.now = s.waitEnd := (BitVec.eq_of_toNat_eq hdue).trans hend
    have hself : s.waitingAt s.waitEnd s.waitEnd = s :=
      (congrArg₂ (State.waitingAt · · s) hnow.symm hend.symm).trans rfl
    rw [hself]
    exact .refl s
termination_by (s.waitEnd.toNat - s.now.toNat) + (s.waitEnd.toNat - s.worker.nextSample.toNat)
decreasing_by
  · rw [waitEnd_waitingAt, now_waitingAt, nextSample_waitingAt]
    omega
  · rw [waitEnd_waitingAt, now_waitingAt, nextSample_waitingAt]
    omega

/-! The end of the wait. -/

theorem step_of_timeout {s : State} (h : SilentWait s) (hs : s.worker.nextSample.toNat ≤ s.now.toNat)
    (hstop : s.waitEnd.toNat ≤ s.now.toNat) : step s = .next (classifyStep s) := by
  have hsome := (workerStep_cRxwait h.ws).trans (rxwaitStep_of_classify hs (.inr hstop))
  rw [step_nil h.inputs, tickTurn_of_enabled hsome]

theorem rxClass_of_silence {s : State} (h : s.line.rxLen = 0) : s.rxClass = (.noResponse, 0) := by
  refine classify_empty s.worker.ctx.flags ?_
  rw [State.rxBytes, h]
  rfl

/-- A first attempt without a response publishes nothing (R260). -/
theorem classifyStep_of_silence_first {s : State} (h : s.line.rxLen = 0) (ha : s.worker.ctx.attempt = .first) :
    (classifyStep s).evtQ = s.evtQ ∧ (classifyStep s).evtOvf = s.evtOvf := by
  have hfail : s.classified.worker.cls.isFailure = true := by
    rw [State.classified, rxClass_of_silence h]
    rfl
  rw [classifyStep_eq, publish_of_failed_first hfail ha]
  exact ⟨rfl, rfl⟩

/-- The event of a retry without a response. -/
def State.silenceEvent (s : State) : Event :=
  { kind := .diagnostic, dev := s.worker.ctx.dev, subch := 0, fc := s.worker.ctx.reqFc, cls := .noResponse, val := 0 }

/-- A retry without a response publishes its diagnostic event while there is room (R260, R268). -/
theorem classifyStep_of_silence_retry {s : State} (h : s.line.rxLen = 0) (ha : s.worker.ctx.attempt = .retry)
    (hroom : s.evtQ.length < s.params.evtDepth) :
    (classifyStep s).evtQ = s.evtQ ++ [s.silenceEvent] := by
  have hpub : publish s.classified = emit s.classified.attemptEvent s.classified := publish_of_final (.inr ha)
  rw [classifyStep_eq, hpub, emit_of_room (s := s.classified) hroom, State.classified, rxClass_of_silence h]
  rfl

/-- Settles O59: the wait reaches its end by `SilentWait.reaches_waitEnd`, and the step there classifies an empty receive
buffer. -/
theorem silentWaitEndsExactlyAtTheTimeout : Obligations.SilentWaitEndsExactlyAtTheTimeout := by
  intro s hw hin h0 hlegal stop e hpoll hpause hsampled hclamp
  obtain ⟨-, -, -, -, -, ⟨hms, -⟩, -⟩ := hlegal
  have hstop : s.waitEnd.toNat = stop := toNat_add_half (by omega)
  have hwait : SilentWait s := ⟨hw, hin, h0, hms, by omega, hsampled, by omega⟩
  have hlast : SilentWait (s.waitingAt s.waitEnd s.waitEnd) := hwait.waitingAt le_rfl le_rfl
  refine ⟨classifyStep (s.waitingAt s.waitEnd s.waitEnd),
    .step hwait.reaches_waitEnd hw (step_of_timeout hlast le_rfl le_rfl), ?_⟩
  simp only [classifyStep_worker, classifyStep_ports, classifyStep_now, rxClass_of_silence hlast.rxLen]
  refine ⟨trivial, hstop, ?_, trivial, trivial, rfl, classifyStep_of_silence_first hlast.rxLen,
    classifyStep_of_silence_retry hlast.rxLen⟩
  exact (toNat_add_half (hstop ▸ hpause)).trans (congrArg (· + s.active.ifs.toNat) hstop)

end Sys2Proof.Machine
end
